-- ==== Sys2Proof/Word.lean ====
section
/-! DEFINITION. Machine words. XLEN is 32 or 64 (00_scope.md R2); one 64-bit word type holds an XLEN-bit value, with the bits
at and above XLEN zero (log 2). `Xlen.wrap` reduces a 64-bit result modulo 2^XLEN. -/

namespace Sys2Proof

/-- An XLEN-bit value, zero above bit XLEN-1. -/
abbrev Word := BitVec 64

/-- The smallest addressable unit of memory (20_memory.md R100). -/
abbrev Byte := BitVec 8

/-- A register number, the 5-bit field of an instruction (10_state.md R20). -/
abbrev Reg := BitVec 5

/-- The width of an integer register (00_scope.md R2). -/
inductive Xlen where
  | rv32
  | rv64
  deriving DecidableEq, Repr, Inhabited

/-- XLEN as a number. -/
def Xlen.bits : Xlen → Nat
  | .rv32 => 32
  | .rv64 => 64

/-- Arithmetic on XLEN-bit values wraps modulo 2^XLEN (00_scope.md R6). -/
def Xlen.wrap (x : Xlen) (v : Word) : Word :=
  match x with
  | .rv32 => (v.setWidth 32).setWidth 64
  | .rv64 => v

end Sys2Proof
end

