-- ==== Sys2Proof/WellFormed.lean ====
section
/-! DEFINITION. Which operand values an encoding can carry: branch and jump offsets are even, and under RV32 a shift amount is
below 32 (30_encoding.md R184, 44_base_subset.md R265). Every other field takes every value of its width. -/

namespace Sys2Proof

/-- The offset of a branch or of `jal` has bit 0 = 0 ("分支和 JAL 的立即数总是偶数", R184). -/
def evenOffset {n : Nat} (off : BitVec n) : Bool := !off.getLsbD 0

/-- The shift amount of `slli` fits the register width (R265). -/
def shamtFits (x : Xlen) (shamt : BitVec 6) : Bool := decide (shamt.toNat < x.bits)

/-- The instruction has an encoding under register width `x`. -/
def Instr.wf (x : Xlen) (i : Instr) : Bool :=
  match i with
  | .sret => true
  | .mret => true
  | .wfi => true
  | .sfenceVma _ _ => true
  | .ecall => true
  | .ebreak => true
  | .csrrw _ _ _ => true
  | .csrrs _ _ _ => true
  | .csrrc _ _ _ => true
  | .csrrwi _ _ _ => true
  | .csrrsi _ _ _ => true
  | .csrrci _ _ _ => true
  | .lui _ _ => true
  | .auipc _ _ => true
  | .jal _ off => evenOffset off
  | .jalr _ _ _ => true
  | .beq _ _ off => evenOffset off
  | .bne _ _ off => evenOffset off
  | .blt _ _ off => evenOffset off
  | .bge _ _ off => evenOffset off
  | .bltu _ _ off => evenOffset off
  | .bgeu _ _ off => evenOffset off
  | .lw _ _ _ => true
  | .sw _ _ _ => true
  | .addi _ _ _ => true
  | .ori _ _ _ => true
  | .andi _ _ _ => true
  | .slli _ _ shamt => shamtFits x shamt
  | .add _ _ _ => true
  | .sub _ _ _ => true
  | .sltu _ _ _ => true
  | .or _ _ _ => true
  | .and _ _ _ => true

end Sys2Proof
end

