-- ==== Sys2Proof/Decode.lean ====
section
/-! DEFINITION. Decoding (30_encoding.md R180 to R190) and encoding. The decoder is total: it answers an instruction, or rejects
by name. The encoder is written from the same encoding tables; `decodeTableWord` numbers bits as spec/opcode_table.json. -/

namespace Sys2Proof

/-- Why a pattern is not an instruction of the spec. -/
inductive DecodeError where
  /-- Fewer than the four bytes an instruction has (R180). -/
  | truncated
  /-- The low two bits are not `11`: not a 32-bit instruction (R180). -/
  | notThirtyTwoBit
  /-- Inside SYSTEM and not one of the spec's words: Illegal instruction (R190 (a)). -/
  | illegalSystem
  /-- Outside SYSTEM and outside the opcode table: no meaning (R190 (c)). -/
  | uncovered
  deriving DecidableEq, Repr

/-- The field `w[lo+len-1:lo]`. -/
def field (w : BitVec 32) (lo len : Nat) : BitVec len := w.extractLsb' lo len

def fOpcode (w : BitVec 32) : BitVec 7 := field w 0 7
def fRd (w : BitVec 32) : Reg := field w 7 5
def fFunct3 (w : BitVec 32) : BitVec 3 := field w 12 3
def fRs1 (w : BitVec 32) : Reg := field w 15 5
def fRs2 (w : BitVec 32) : Reg := field w 20 5
def fFunct7 (w : BitVec 32) : BitVec 7 := field w 25 7
/-- The CSR address, or the I immediate (R182). -/
def fImmI (w : BitVec 32) : BitVec 12 := field w 20 12
def fImmU (w : BitVec 32) : BitVec 20 := field w 12 20
/-- The S immediate (R183). -/
def fImmS (w : BitVec 32) : BitVec 12 := field w 25 7 ++ field w 7 5
/-- The B immediate, bit 0 = 0 (R183, R184). -/
def fImmB (w : BitVec 32) : BitVec 13 :=
  field w 31 1 ++ (field w 7 1 ++ (field w 25 6 ++ (field w 8 4 ++ 0#1)))
/-- The J immediate, bit 0 = 0 (R183, R184). -/
def fImmJ (w : BitVec 32) : BitVec 21 :=
  field w 31 1 ++ (field w 12 8 ++ (field w 20 1 ++ (field w 21 10 ++ 0#1)))

/-- SYSTEM with funct3 = 000: exactly six patterns are instructions (R185, R186, R187, R190 (a)). -/
def decodePriv (w : BitVec 32) : Except DecodeError Instr :=
  if fRd w = 0#5 then
    if fFunct7 w = 0b0001001#7 then .ok (.sfenceVma (fRs1 w) (fRs2 w))
    else if fRs1 w = 0#5 then
      if fImmI w = 0x102#12 then .ok .sret
      else if fImmI w = 0x302#12 then .ok .mret
      else if fImmI w = 0x105#12 then .ok .wfi
      else if fImmI w = 0x000#12 then .ok .ecall
      else if fImmI w = 0x001#12 then .ok .ebreak
      else .error .illegalSystem
    else .error .illegalSystem
  else .error .illegalSystem

/-- The major opcode SYSTEM (R185, R188); funct3 = 100 is illegal (R190 (a)). -/
def decodeSystem (w : BitVec 32) : Except DecodeError Instr :=
  if fFunct3 w = 0b000#3 then decodePriv w
  else if fFunct3 w = 0b001#3 then .ok (.csrrw (fRd w) (fImmI w) (fRs1 w))
  else if fFunct3 w = 0b010#3 then .ok (.csrrs (fRd w) (fImmI w) (fRs1 w))
  else if fFunct3 w = 0b011#3 then .ok (.csrrc (fRd w) (fImmI w) (fRs1 w))
  else if fFunct3 w = 0b101#3 then .ok (.csrrwi (fRd w) (fImmI w) (fRs1 w))
  else if fFunct3 w = 0b110#3 then .ok (.csrrsi (fRd w) (fImmI w) (fRs1 w))
  else if fFunct3 w = 0b111#3 then .ok (.csrrci (fRd w) (fImmI w) (fRs1 w))
  else .error .illegalSystem

/-- The conditional branches (R189). -/
def decodeBranch (w : BitVec 32) : Except DecodeError Instr :=
  if fFunct3 w = 0b000#3 then .ok (.beq (fRs1 w) (fRs2 w) (fImmB w))
  else if fFunct3 w = 0b001#3 then .ok (.bne (fRs1 w) (fRs2 w) (fImmB w))
  else if fFunct3 w = 0b100#3 then .ok (.blt (fRs1 w) (fRs2 w) (fImmB w))
  else if fFunct3 w = 0b101#3 then .ok (.bge (fRs1 w) (fRs2 w) (fImmB w))
  else if fFunct3 w = 0b110#3 then .ok (.bltu (fRs1 w) (fRs2 w) (fImmB w))
  else if fFunct3 w = 0b111#3 then .ok (.bgeu (fRs1 w) (fRs2 w) (fImmB w))
  else .error .uncovered

/-- Register-immediate arithmetic (R189). Under RV32 an `slli` pattern with bit 25 set is not `slli` (R265, 90_conflicts.md C15). -/
def decodeOpImm (x : Xlen) (w : BitVec 32) : Except DecodeError Instr :=
  if fFunct3 w = 0b000#3 then .ok (.addi (fRd w) (fRs1 w) (fImmI w))
  else if fFunct3 w = 0b110#3 then .ok (.ori (fRd w) (fRs1 w) (fImmI w))
  else if fFunct3 w = 0b111#3 then .ok (.andi (fRd w) (fRs1 w) (fImmI w))
  else if fFunct3 w = 0b001#3 then
    if field w 26 6 = 0#6 ∧ shamtFits x (field w 20 6) = true then
      .ok (.slli (fRd w) (fRs1 w) (field w 20 6))
    else .error .uncovered
  else .error .uncovered

/-- Register-register arithmetic (R189). -/
def decodeOp (w : BitVec 32) : Except DecodeError Instr :=
  if fFunct7 w = 0b0000000#7 then
    if fFunct3 w = 0b000#3 then .ok (.add (fRd w) (fRs1 w) (fRs2 w))
    else if fFunct3 w = 0b011#3 then .ok (.sltu (fRd w) (fRs1 w) (fRs2 w))
    else if fFunct3 w = 0b110#3 then .ok (.or (fRd w) (fRs1 w) (fRs2 w))
    else if fFunct3 w = 0b111#3 then .ok (.and (fRd w) (fRs1 w) (fRs2 w))
    else .error .uncovered
  else if fFunct7 w = 0b0100000#7 ∧ fFunct3 w = 0b000#3 then .ok (.sub (fRd w) (fRs1 w) (fRs2 w))
  else .error .uncovered

/-- The decoder, by major opcode (R185 to R190). -/
def decode (x : Xlen) (w : BitVec 32) : Except DecodeError Instr :=
  if fOpcode w = 0b1110011#7 then decodeSystem w
  else if fOpcode w = 0b0110111#7 then .ok (.lui (fRd w) (fImmU w))
  else if fOpcode w = 0b0010111#7 then .ok (.auipc (fRd w) (fImmU w))
  else if fOpcode w = 0b1101111#7 then .ok (.jal (fRd w) (fImmJ w))
  else if fOpcode w = 0b1100111#7 then
    if fFunct3 w = 0b000#3 then .ok (.jalr (fRd w) (fRs1 w) (fImmI w)) else .error .uncovered
  else if fOpcode w = 0b1100011#7 then decodeBranch w
  else if fOpcode w = 0b0000011#7 then
    if fFunct3 w = 0b010#3 then .ok (.lw (fRd w) (fRs1 w) (fImmI w)) else .error .uncovered
  else if fOpcode w = 0b0100011#7 then
    if fFunct3 w = 0b010#3 then .ok (.sw (fRs2 w) (fRs1 w) (fImmS w)) else .error .uncovered
  else if fOpcode w = 0b0010011#7 then decodeOpImm x w
  else if fOpcode w = 0b0110011#7 then decodeOp w
  else if field w 0 2 = 0b11#2 then .error .uncovered
  else .error .notThirtyTwoBit

/-- The bytes of an instruction word, the byte at the lowest address first (R180, 20_memory.md R104). -/
def wordBytes (w : BitVec 32) : List Byte :=
  [field w 0 8, field w 8 8, field w 16 8, field w 24 8]

/-- The instruction at the front of a list of bytes, and the bytes after it. -/
def decodeBytes (x : Xlen) (bs : List Byte) : Except DecodeError (Instr × List Byte) :=
  match bs with
  | b0 :: b1 :: b2 :: b3 :: rest =>
    match decode x (b3 ++ (b2 ++ (b1 ++ b0))) with
    | .ok i => .ok (i, rest)
    | .error e => .error e
  | _ => .error .truncated

/-- R format (R181). -/
def encR (f7 : BitVec 7) (rs2 rs1 : Reg) (f3 : BitVec 3) (rd : Reg) (op : BitVec 7) : BitVec 32 :=
  f7 ++ (rs2 ++ (rs1 ++ (f3 ++ (rd ++ op))))

/-- I format, also the CSR instructions with the CSR address as immediate (R182, R188). -/
def encI (imm : BitVec 12) (rs1 : Reg) (f3 : BitVec 3) (rd : Reg) (op : BitVec 7) : BitVec 32 :=
  imm ++ (rs1 ++ (f3 ++ (rd ++ op)))

/-- S format (R183). -/
def encS (imm : BitVec 12) (rs2 rs1 : Reg) (f3 : BitVec 3) (op : BitVec 7) : BitVec 32 :=
  imm.extractLsb' 5 7 ++ (rs2 ++ (rs1 ++ (f3 ++ (imm.extractLsb' 0 5 ++ op))))

/-- B format (R183). -/
def encB (off : BitVec 13) (rs2 rs1 : Reg) (f3 : BitVec 3) (op : BitVec 7) : BitVec 32 :=
  off.extractLsb' 12 1 ++ (off.extractLsb' 5 6 ++ (rs2 ++ (rs1 ++ (f3 ++
    (off.extractLsb' 1 4 ++ (off.extractLsb' 11 1 ++ op))))))

/-- U format (R183). -/
def encU (imm : BitVec 20) (rd : Reg) (op : BitVec 7) : BitVec 32 := imm ++ (rd ++ op)

/-- J format (R183). -/
def encJ (off : BitVec 21) (rd : Reg) (op : BitVec 7) : BitVec 32 :=
  off.extractLsb' 20 1 ++ (off.extractLsb' 1 10 ++ (off.extractLsb' 11 1 ++
    (off.extractLsb' 12 8 ++ (rd ++ op))))

/-- `slli`: six zero bits, the shift amount, and the fields of the I format (R189, R265). -/
def encShift (shamt : BitVec 6) (rs1 : Reg) (f3 : BitVec 3) (rd : Reg) (op : BitVec 7) : BitVec 32 :=
  (0b000000#6) ++ (shamt ++ (rs1 ++ (f3 ++ (rd ++ op))))

/-- The word of an instruction (R186 to R189). -/
def encode (i : Instr) : BitVec 32 :=
  match i with
  | .sret => encR 0b0001000#7 0b00010#5 0#5 0b000#3 0#5 0b1110011#7
  | .mret => encR 0b0011000#7 0b00010#5 0#5 0b000#3 0#5 0b1110011#7
  | .wfi => encR 0b0001000#7 0b00101#5 0#5 0b000#3 0#5 0b1110011#7
  | .sfenceVma rs1 rs2 => encR 0b0001001#7 rs2 rs1 0b000#3 0#5 0b1110011#7
  | .ecall => encI 0#12 0#5 0b000#3 0#5 0b1110011#7
  | .ebreak => encI 1#12 0#5 0b000#3 0#5 0b1110011#7
  | .csrrw rd csr rs1 => encI csr rs1 0b001#3 rd 0b1110011#7
  | .csrrs rd csr rs1 => encI csr rs1 0b010#3 rd 0b1110011#7
  | .csrrc rd csr rs1 => encI csr rs1 0b011#3 rd 0b1110011#7
  | .csrrwi rd csr uimm => encI csr uimm 0b101#3 rd 0b1110011#7
  | .csrrsi rd csr uimm => encI csr uimm 0b110#3 rd 0b1110011#7
  | .csrrci rd csr uimm => encI csr uimm 0b111#3 rd 0b1110011#7
  | .lui rd imm => encU imm rd 0b0110111#7
  | .auipc rd imm => encU imm rd 0b0010111#7
  | .jal rd off => encJ off rd 0b1101111#7
  | .jalr rd rs1 imm => encI imm rs1 0b000#3 rd 0b1100111#7
  | .beq rs1 rs2 off => encB off rs2 rs1 0b000#3 0b1100011#7
  | .bne rs1 rs2 off => encB off rs2 rs1 0b001#3 0b1100011#7
  | .blt rs1 rs2 off => encB off rs2 rs1 0b100#3 0b1100011#7
  | .bge rs1 rs2 off => encB off rs2 rs1 0b101#3 0b1100011#7
  | .bltu rs1 rs2 off => encB off rs2 rs1 0b110#3 0b1100011#7
  | .bgeu rs1 rs2 off => encB off rs2 rs1 0b111#3 0b1100011#7
  | .lw rd rs1 imm => encI imm rs1 0b010#3 rd 0b0000011#7
  | .sw rs2 rs1 imm => encS imm rs2 rs1 0b010#3 0b0100011#7
  | .addi rd rs1 imm => encI imm rs1 0b000#3 rd 0b0010011#7
  | .ori rd rs1 imm => encI imm rs1 0b110#3 rd 0b0010011#7
  | .andi rd rs1 imm => encI imm rs1 0b111#3 rd 0b0010011#7
  | .slli rd rs1 shamt => encShift shamt rs1 0b001#3 rd 0b0010011#7
  | .add rd rs1 rs2 => encR 0b0000000#7 rs2 rs1 0b000#3 rd 0b0110011#7
  | .sub rd rs1 rs2 => encR 0b0100000#7 rs2 rs1 0b000#3 rd 0b0110011#7
  | .sltu rd rs1 rs2 => encR 0b0000000#7 rs2 rs1 0b011#3 rd 0b0110011#7
  | .or rd rs1 rs2 => encR 0b0000000#7 rs2 rs1 0b110#3 rd 0b0110011#7
  | .and rd rs1 rs2 => encR 0b0000000#7 rs2 rs1 0b111#3 rd 0b0110011#7

/-- A word numbered as spec/opcode_table.json numbers it, laid out in memory order and given to the decoder. The table's rows are
32 bits and its `slli` row is the RV64 form (log 25), so the register width here is RV64; bits at and above `nbits` are 0. -/
def decodeTableWord (nbits w : Nat) : Option Instr :=
  match decodeBytes .rv64 (wordBytes (BitVec.ofNat 32 (w % 2 ^ nbits))) with
  | .ok (i, _) => some i
  | .error _ => none

end Sys2Proof
end

