-- ==== Sys2Proof/Config.lean ====
section
/-! DEFINITION. What an implementation fixes (the parameters of 00_scope.md R5, held as plain data so that a claim quantifies over
them, log 1), the choices the spec leaves free in one step (log 3), and the two opaque constants that supply them. -/

namespace Sys2Proof

/-- The privilege modes (R3, Figure 10.5). -/
inductive Priv where
  | U
  | S
  | M
  deriving DecidableEq, Repr, Inhabited

/-- The encoding of Figure 10.5. -/
def Priv.code : Priv → Nat
  | .U => 0
  | .S => 1
  | .M => 3

/-- MODES (R4): machine only; machine and user; machine, supervisor and user. -/
inductive Modes where
  | m
  | mu
  | msu
  deriving DecidableEq, Repr, Inhabited

/-- The modes a configuration implements (R4). -/
def Modes.has : Modes → Priv → Bool
  | _, .M => true
  | .m, .S => false
  | .m, .U => false
  | .mu, .S => false
  | .mu, .U => true
  | .msu, .S => true
  | .msu, .U => true

/-- The kinds of explicit access (R6). -/
inductive AccessKind where
  | fetch
  | load
  | store
  deriving DecidableEq, Repr, Inhabited

/-- AD_UPDATE (R5, R157). -/
inductive AdUpdate where
  | fault
  | hardware
  | either
  deriving DecidableEq, Repr, Inhabited

/-- WFI_IMPL (R5, R210). -/
inductive WfiImpl where
  | nop
  | stall
  | either
  deriving DecidableEq, Repr, Inhabited

/-- The values of satp.MODE that the source assigns (10_state.md R61). -/
inductive SatpMode where
  | bare
  | sv32
  | sv39
  | sv48
  deriving DecidableEq, Repr, Inhabited

/-- What stands behind a range of physical addresses (20_memory.md R113). Vacant is what no region of the map covers. -/
inductive PmaKind where
  /-- Ordinary memory: fetch, load and store. -/
  | memory
  /-- ROM: fetch and load. -/
  | rom
  /-- A device the spec gives no behaviour (R110), with the access kinds it supports. -/
  | device (fetch load store : Bool)
  deriving DecidableEq, Repr, Inhabited

/-- One range of the map PMA: `base ≤ a < base + size`. -/
structure PmaRegion where
  base : Nat
  size : Nat
  kind : PmaKind
  deriving DecidableEq, Repr, Inhabited

/-- The implementation parameters of R5. HARTS is 1 (log 5); IALIGN follows from `cExt`. -/
structure Params where
  xlen : Xlen
  modes : Modes
  /-- C_EXT -/
  cExt : Bool
  /-- MISALIGNED_HW -/
  misalignedHw : Bool
  /-- PMP_COUNT -/
  pmpCount : Nat
  /-- PA_BITS -/
  paBits : Nat
  /-- SATP_MODES -/
  satpModes : List SatpMode
  /-- ASIDLEN -/
  asidLen : Nat
  /-- AD_UPDATE -/
  adUpdate : AdUpdate
  /-- VECTORED -/
  vectored : Bool
  /-- WFI_IMPL -/
  wfiImpl : WfiImpl
  /-- TW_LIMIT, counted in steps of the waiting hart (log 22) -/
  twLimit : Nat
  /-- RESET_VECTOR -/
  resetVector : Word
  /-- MTIME_ADDR -/
  mtimeAddr : Nat
  /-- MTIMECMP_ADDR[0] -/
  mtimecmpAddr : Nat
  /-- MSIP_ADDR[0] -/
  msipAddr : Nat
  /-- PMA -/
  pma : List PmaRegion
  /-- SIP_WRITABLE -/
  sipWritable : Word
  /-- Whether the platform may store to `msip[0]` ("only if a claim admits it", 60_exceptions.md R362; log 4) -/
  externalMsip : Bool
  deriving DecidableEq, Repr, Inhabited

/-- IALIGN / 8: the alignment of instruction addresses in bytes (R5). -/
def Params.ialign (c : Params) : Nat := if c.cExt then 2 else 4

/-- The configuration of `State.reset` (log 1): the platform of 95_test_vectors.md section 3.0, with R5's defaults for ASIDLEN and
AD_UPDATE. -/
def Params.standard : Params where
  xlen := .rv32
  modes := .msu
  cExt := false
  misalignedHw := false
  pmpCount := 16
  paBits := 34
  satpModes := [.bare, .sv32]
  asidLen := 0
  adUpdate := .either
  vectored := true
  wfiImpl := .either
  twLimit := 0
  resetVector := 0x80000000#64
  mtimeAddr := 0x0200BFF8
  mtimecmpAddr := 0x02004000
  msipAddr := 0x02000000
  pma := [{ base := 0x80000000, size := 0x10000, kind := .memory }]
  sipWritable := 0x2#64
  externalMsip := true

/-- One entry of the translation cache (25_virtual_memory.md R161): a page-table entry read at `level` for the addresses whose
upper page numbers are `prefixVpn`, under address-space `asid`. -/
structure TlbEntry where
  asid : BitVec 16
  level : Nat
  prefixVpn : Word
  pte : Word
  deriving DecidableEq, Repr, Inhabited

/-- The choices one page-table walk draws: which cached entries it uses where one matches (R161 (d)), and whether the hardware sets
A and D under AD_UPDATE = either (R157). -/
structure WalkChoice where
  useCached : List TlbEntry
  setAD : Bool
  deriving DecidableEq, Repr, Inhabited

/-- A speculative walk: its address, and the cached entries it uses (25_virtual_memory.md R161 (b), (d)). -/
structure SpeculativeWalk where
  va : Word
  useCached : List TlbEntry
  deriving DecidableEq, Repr, Inhabited

/-- The choices of a speculative walk, which sets no A or D bit. -/
def SpeculativeWalk.choice (x : SpeculativeWalk) : WalkChoice := { useCached := x.useCached, setAD := false }

/-- Everything one step of the machine draws, as plain data (log 3). A claim about all states holds for every value of it. -/
structure Choices where
  /-- a candidate for the new value of mtime (R350) -/
  mtime : BitVec 64
  /-- the external interrupt lines (R309) -/
  meip : Bool
  seip : Bool
  /-- what an outside store leaves in `msip[0]` (R308) -/
  msip : Bool
  /-- take a takeable interrupt at this boundary (R312) -/
  takeInterrupt : Bool
  /-- supervisor-level interrupts bound for M are ordered by class before level (R313, log 24) -/
  classFirst : Bool
  /-- `wfi` stalls, under WFI_IMPL = either (R210) -/
  wfiStall : Bool
  /-- the hart leaves the wait early, under WFI_IMPL = either (R211) -/
  wakeEarly : Bool
  /-- the speculative walks before the step (R161 (b)) -/
  speculate : List SpeculativeWalk
  /-- cache entries that disappear before the step (R161 (c)) -/
  evict : List TlbEntry
  fetchWalk : WalkChoice
  /-- the walks of the step's data accesses, in the order they are made -/
  dataWalks : List WalkChoice
  /-- the order of the byte accesses of a misaligned access (R106) -/
  byteOrder : List Nat
  /-- what MPP holds after a write of an unimplemented encoding (R31) -/
  mpp : Priv
  /-- what mcause or scause holds after a write of an unlisted value (R44) -/
  cause : Word
  deriving DecidableEq, Repr, Inhabited

/-- The choices of the n-th step: unconstrained (log 3). -/
opaque Config.freeChoices : Nat → Choices

/-- What a byte of physical memory that nothing has written reads as: unconstrained (10_state.md R75, log 9). -/
opaque Config.freeByte : Nat → Byte

end Sys2Proof
end

