-- ==== Sys2Proof/Machine/State.lean ====
section
/-! DEFINITION. The state of one hart and its platform (10_state.md, 20_memory.md R100), as plain data, and the state after reset
(10_state.md R75, 70_reset_and_hazards.md R380). -/

namespace Sys2Proof.Machine

/-- Physical memory: (address, byte) pairs, addresses strictly rising. -/
abbrev Memory := List Host.Cell

/-- What an address that the list does not name reads as: no value. `State.byteAt` turns it into the free byte of that address
(R75 "unspecified", log 9). -/
def unlistedReads : Option Byte := none

/-- Why the machine stops with a fault. No constructor: every fault the source describes is a trap with a cause code, a NEXT state
(00_scope.md section 5 item 5; log 33). -/
inductive Fault
  deriving DecidableEq, Repr

/-- Why the machine gives no meaning. Each is safe: nothing can be proved about what follows it. -/
inductive Refusal where
  /-- An instruction whose meaning is not written yet: raised only by `exec`'s arms. Safe. -/
  | notModelled (mnemonic : String)
  /-- Raised by the CSR instructions on an address outside the table of R25 (R232, 92_eei_decisions.md D6). Safe. -/
  | unlistedCsr (csr : BitVec 12)
  /-- Raised by decoding a 32-bit pattern outside SYSTEM and outside the opcode table (R190 (c), D41). Safe. -/
  | uncoveredEncoding (word : BitVec 32)
  /-- Raised by decoding a parcel whose low two bits are not 11 (R180). Safe. -/
  | notThirtyTwoBit (word : BitVec 32)
  /-- Raised by a fetch from a physical location stored to since reset (20_memory.md R132, D40). Safe. -/
  | fetchOfStoredLocation (pa : Nat)
  /-- Raised by a walk that meets a valid page-table entry with a non-zero Reserved field (R146, 93_implementation_defined.md U5). Safe. -/
  | reservedPteBits (pte : Word)
  /-- Raised by a write of a PMP configuration byte with R = 0, W = 1 (R57, 93_implementation_defined.md U9). Safe. -/
  | reservedPmpPermission (entry : Nat)
  /-- Raised by an access to a device region of PMA (R110, 93_implementation_defined.md U14). Safe. -/
  | deviceRegion (pa : Nat)
  /-- Raised by a store to mtime (R350, 93_implementation_defined.md U15). Safe. -/
  | mtimeStore (pa : Nat)
  deriving DecidableEq, Repr

/-- The machine. Every register of 10_state.md has one field; views (sstatus, sie, sip, mip) are computed. -/
structure State where
  /-- the parameters of R5; no step changes them -/
  cfg : Params
  /-- x0 to x31 (R20); slot 0 is never written -/
  regs : Vector Word 32
  pc : Word
  priv : Priv
  mstatus : Word
  medeleg : Word
  mideleg : Word
  mie : Word
  mtvec : Word
  mscratch : Word
  mepc : Word
  mcause : Word
  mtval : Word
  /-- the software-written bits of mip: SEIP (9), STIP (5), SSIP (1) (R50) -/
  mipSoft : Word
  stvec : Word
  sscratch : Word
  sepc : Word
  scause : Word
  stval : Word
  satp : Word
  /-- the configuration byte of each PMP entry (R56, R57) -/
  pmpcfg : Vector Byte 16
  pmpaddr : Vector Word 16
  /-- the translation cache (R67, R161) -/
  tlb : List TlbEntry
  /-- stalled by `wfi` (R68) -/
  waiting : Bool
  /-- steps spent in the present wait (TW_LIMIT, log 22) -/
  waited : Nat
  mem : Memory
  /-- the physical addresses stored to since reset, strictly rising (R132) -/
  stored : List Nat
  mtime : BitVec 64
  mtimecmp : BitVec 64
  /-- bit 0 of the software-interrupt register (R65) -/
  msip : Bool
  /-- the external interrupt lines (R66) -/
  meipLine : Bool
  seipLine : Bool
  /-- the choices of the present step (the model's own field, log 3) -/
  now : Choices
  /-- choices written down for coming steps; empty: they are free (the model's own field, log 3) -/
  script : List Choices
  /-- how many steps have drawn their choices (the model's own field, log 3) -/
  tick : Nat
  deriving DecidableEq, Repr

/-- The value of mstatus after reset: MIE = 0 and MPRV = 0 (R75), the unspecified fields 0 (log 6); under MODES = M the field MPP is
hardwired 3 (R31). -/
def resetMstatus : Modes → Word
  | .m => 0x1800#64
  | .mu => 0#64
  | .msu => 0#64

/-- The state after reset under the parameters `c` (R75, R380). What R75 leaves unspecified is zero (log 6, log 8). -/
def State.resetOf (c : Params) : State where
  cfg := c
  regs := Vector.replicate 32 0#64
  pc := c.resetVector
  priv := .M
  mstatus := resetMstatus c.modes
  medeleg := 0#64
  mideleg := 0#64
  mie := 0#64
  mtvec := 0#64
  mscratch := 0#64
  mepc := 0#64
  mcause := 0#64
  mtval := 0#64
  mipSoft := 0#64
  stvec := 0#64
  sscratch := 0#64
  sepc := 0#64
  scause := 0#64
  stval := 0#64
  satp := 0#64
  pmpcfg := Vector.replicate 16 0#8
  pmpaddr := Vector.replicate 16 0#64
  tlb := []
  waiting := false
  waited := 0
  mem := []
  stored := []
  mtime := 0#64
  mtimecmp := 0#64
  msip := false
  meipLine := false
  seipLine := false
  now := default
  script := []
  tick := 0

/-- The machine right after reset, in the standard configuration (log 1). -/
def State.reset : State := State.resetOf Params.standard

end Sys2Proof.Machine
end

