-- ==== Sys2Proof/Machine/Bits.lean ====
section
/-! DEFINITION. Bit-field, sign-extension and byte-order helpers (00_scope.md R6, 20_memory.md R104). -/

namespace Sys2Proof.Machine

/-- `v[i]`. -/
def bit (v : Word) (i : Nat) : Bool := v.getLsbD i

/-- `v` with bit `i` replaced by `b`. -/
def withBit (v : Word) (i : Nat) (b : Bool) : Word :=
  if b then v ||| (1#64 <<< i) else v &&& ~~~(1#64 <<< i)

/-- The bits of `v` under `mask`, the other bits of `old`: a write that changes only the bits of `mask` (43_system_csr.md R239). -/
def mergeBits (mask old v : Word) : Word := (old &&& ~~~mask) ||| (v &&& mask)

/-- `sext_XLEN(v)`. -/
def sext (x : Xlen) {n : Nat} (v : BitVec n) : Word := x.wrap (v.signExtend 64)

/-- The signed value of an XLEN-bit word (two's complement). -/
def signedValue (x : Xlen) (v : Word) : Int :=
  match x with
  | .rv32 => (v.setWidth 32).toInt
  | .rv64 => v.toInt

/-- The value of bytes listed from the lowest address up (little-endian, R104). -/
def bytesToWord : List Byte → Word
  | [] => 0#64
  | b :: bs => b.setWidth 64 ||| (bytesToWord bs <<< 8)

/-- The `n` low bytes of a value, lowest address first (R104). -/
def wordToBytes (v : Word) (n : Nat) : List Byte :=
  (List.range n).map fun k => v.extractLsb' (8 * k) 8

/-- `v` with its byte number `k` replaced. -/
def withByte (v : Word) (k : Nat) (b : Byte) : Word :=
  (v &&& ~~~(255#64 <<< (8 * k))) ||| (b.setWidth 64 <<< (8 * k))

/-- The number of consecutive 1 bits at the low end of `v`, counted up to `fuel` (R122). -/
def trailingOnes : Nat → Nat → Nat
  | 0, _ => 0
  | fuel + 1, v => if v % 2 = 1 then trailingOnes fuel (v / 2) + 1 else 0

/-- Insert into a strictly rising list of addresses. -/
def insertAddr (k : Nat) : List Nat → List Nat
  | [] => [k]
  | a :: rest => if k < a then k :: a :: rest else if k = a then a :: rest else a :: insertAddr k rest

/-- Strictly rising addresses. -/
def risingAddrs : List Nat → Bool
  | [] => true
  | [_] => true
  | a :: b :: rest => decide (a < b) && risingAddrs (b :: rest)

end Sys2Proof.Machine
end

