-- ==== Sys2Proof/Machine/Flags.lean ====
section
/-! DEFINITION. The status fields. There are no condition codes (10_state.md R69): all status is in mstatus (R30 to R38), the
interrupt bits (R50 to R53) and what decides that an interrupt is taken (60_exceptions.md R305 to R313). -/

namespace Sys2Proof.Machine

/-- The one-bit fields of mstatus that are not hardwired (R30). -/
inductive StatusField where
  | SIE
  | MIE
  | SPIE
  | MPIE
  | SPP
  | MPRV
  | SUM
  | MXR
  | TVM
  | TW
  | TSR
  deriving DecidableEq, Repr

/-- The bit position of a field (R30). -/
def StatusField.pos : StatusField → Nat
  | .SIE => 1
  | .MIE => 3
  | .SPIE => 5
  | .MPIE => 7
  | .SPP => 8
  | .MPRV => 17
  | .SUM => 18
  | .MXR => 19
  | .TVM => 20
  | .TW => 21
  | .TSR => 22

/-- A one-bit field of a value of mstatus. -/
def statusBit (m : Word) (f : StatusField) : Bool := bit m f.pos

/-- A value of mstatus with a one-bit field replaced. -/
def withStatusBit (m : Word) (f : StatusField) (b : Bool) : Word := withBit m f.pos b

/-- The field MPP, bits 12:11, in the encoding of Figure 10.5 (R31). The unassigned encoding `10` is never held (R203); it reads as U. -/
def mppOf (m : Word) : Priv :=
  if bit m 11 then (if bit m 12 then .M else .S) else .U

/-- A value of mstatus with MPP replaced. -/
def withMpp (m : Word) (p : Priv) : Word :=
  withBit (withBit m 11 (decide (p ≠ .U))) 12 (decide (p = .M))

/-- The two bits 12:11 of a written value name an implemented mode (R31). Under MODES = M the field is hardwired. -/
def mppWritten (c : Params) (v : Word) : Option Priv :=
  match bit v 12, bit v 11 with
  | false, false => if c.modes.has .U then some .U else none
  | false, true => if c.modes.has .S then some .S else none
  | true, true => some .M
  | true, false => none

/-- SPP as a mode: 0 = U, 1 = S (R32). -/
def sppOf (m : Word) : Priv := if statusBit m .SPP then .S else .U

/-- The mode loads and stores are checked at (20_memory.md R111). -/
def State.effPriv (s : State) : Priv := if statusBit s.mstatus .MPRV then mppOf s.mstatus else s.priv

/-- The interrupts of Figure 10.3 (R305). -/
inductive Irq where
  | ssi
  | msi
  | sti
  | mti
  | sei
  | mei
  deriving DecidableEq, Repr

/-- The code, which is also the bit position in mip, mie and mideleg (R305). -/
def Irq.code : Irq → Nat
  | .ssi => 1
  | .msi => 3
  | .sti => 5
  | .mti => 7
  | .sei => 9
  | .mei => 11

/-- All six, by code. -/
def Irq.all : List Irq := [.ssi, .msi, .sti, .mti, .sei, .mei]

/-- The value of a bit of mip, from its source (R50, R64, R65, R66). Supervisor bits exist only under MODES = MSU. -/
def State.pending (s : State) (i : Irq) : Bool :=
  match i with
  | .ssi => decide (s.cfg.modes = .msu) && bit s.mipSoft 1
  | .msi => s.msip
  | .sti => decide (s.cfg.modes = .msu) && bit s.mipSoft 5
  | .mti => decide (s.mtimecmp.toNat ≤ s.mtime.toNat)
  | .sei => decide (s.cfg.modes = .msu) && (bit s.mipSoft 9 || s.seipLine)
  | .mei => s.meipLine

/-- mip with its hardware-driven bits as they are now, SEIP being `sei` (R50, R239). -/
def mipWord (s : State) (sei : Bool) : Word :=
  withBit (withBit (withBit (withBit (withBit (withBit 0#64 1 (s.pending .ssi)) 3 (s.pending .msi)) 5 (s.pending .sti))
    7 (s.pending .mti)) 9 sei) 11 (s.pending .mei)

/-- mip as a read sees it: SEIP is the software bit OR the external line (R50). -/
def State.mip (s : State) : Word := mipWord s (s.pending .sei)

/-- mip as `csrrs` and `csrrc` modify it: SEIP is the software bit only (43_system_csr.md R240). -/
def State.mipForModify (s : State) : Word :=
  mipWord s (decide (s.cfg.modes = .msu) && bit s.mipSoft 9)

/-- The interrupt is delegated to S mode (60_exceptions.md R311: mideleg counts as 0 unless MODES = MSU). -/
def State.delegatedIrq (s : State) (i : Irq) : Bool :=
  decide (s.cfg.modes = .msu) && bit s.mideleg i.code

/-- Interrupts bound for M mode are enabled (R311): in M by MIE, below M always. -/
def State.mEnabled (s : State) : Bool :=
  match s.priv with
  | .M => statusBit s.mstatus .MIE
  | .S => true
  | .U => true

/-- Interrupts bound for S mode are enabled (R311): never in M, in S by SIE, in U always. -/
def State.sEnabled (s : State) : Bool :=
  match s.priv with
  | .M => false
  | .S => statusBit s.mstatus .SIE
  | .U => true

/-- The interrupt is takeable now (R311). -/
def State.takeable (s : State) (i : Irq) : Bool :=
  (if s.delegatedIrq i then s.sEnabled else s.mEnabled) && bit s.mie i.code && s.pending i

/-- The order among interrupts bound for one mode, highest first (R313): external, software, timer. Where supervisor-level and
machine-level interrupts are both bound for M the rule does not say whether the level or the class counts first: the step draws it (log 24).
Nor does it order a machine-level against an undelegated supervisor-level interrupt of the same class (MEI and SEI, MSI and SSI, MTI and STI):
DESIGN CHOICE, the machine-level one comes first in both orders (log 42). -/
def irqOrder (classFirst : Bool) : List Irq :=
  if classFirst then [.mei, .sei, .msi, .ssi, .mti, .sti] else [.mei, .msi, .mti, .sei, .ssi, .sti]

/-- The interrupt to take, if any is takeable: those bound for M before those bound for S (R313). -/
def State.selectIrq (s : State) : Option Irq :=
  match (irqOrder s.now.classFirst).find? (fun i => !s.delegatedIrq i && s.takeable i) with
  | some i => some i
  | none => [Irq.sei, Irq.ssi, Irq.sti].find? (fun i => s.delegatedIrq i && s.takeable i)

/-- `mie & mip ≠ 0`, the wake-up condition of `wfi` (41_wfi.md R210), bit by bit. -/
def State.wakes (s : State) : Bool := Irq.all.any (fun i => bit s.mie i.code && s.pending i)

end Sys2Proof.Machine
end

