-- ==== Sys2Proof/Machine/Ops.lean ====
section
/-! DEFINITION. The named operations over registers, memory and the platform's registers, and taking and leaving a trap
(60_exceptions.md R300 to R332, 40_trap_return.md). -/

namespace Sys2Proof.Machine

/-- What a step or a meaning answers. -/
abbrev Result := Host.Outcome State Fault Refusal

/-! ## Integer registers and the program counter (10_state.md R20, R23) -/

/-- `x[r]`; x0 reads zero. -/
def State.reg (s : State) (r : Reg) : Word :=
  if r = 0#5 then 0#64 else s.regs[r.toNat]'(by have := r.isLt; omega)

/-- `x[r] <- v`, XLEN bits; a write to x0 is discarded. -/
def State.setReg (s : State) (r : Reg) (v : Word) : State :=
  if r = 0#5 then s
  else { s with regs := s.regs.set r.toNat (s.cfg.xlen.wrap v) (by have := r.isLt; omega) }

/-- `pc <- target`. -/
def State.setPc (s : State) (target : Word) : State := { s with pc := target }

/-- The address of the next instruction in sequence, `pc + 4` modulo 2^XLEN (R23). -/
def State.nextPc (s : State) : Word := s.cfg.xlen.wrap (s.pc + 4#64)

/-- `pc <- pc + 4`. -/
def State.advance (s : State) : State := s.setPc s.nextPc

/-! ## Memory as a list of bytes (20_memory.md R100) -/

/-- The byte listed at an address. -/
def memRead : Memory → Nat → Option Byte
  | [], _ => unlistedReads
  | (a, b) :: rest, k => if a = k then some b else memRead rest k

/-- List `v` at address `k`, keeping the addresses strictly rising. -/
def memWrite : Memory → Nat → Byte → Memory
  | [], k, v => [(k, v)]
  | (a, b) :: rest, k, v =>
    if k < a then (k, v) :: (a, b) :: rest
    else if k = a then (k, v) :: rest
    else (a, b) :: memWrite rest k v

/-- The canonical form: addresses strictly rising. No entry can equal what an unlisted address reads as, `unlistedReads = none`. -/
def Memory.wf (m : Memory) : Bool := risingAddrs (m.map Prod.fst)

/-! ## The memory-mapped registers and the map PMA (R110, R113, 60_exceptions.md R353) -/

/-- The registers of the platform that loads and stores reach. -/
inductive PlatformReg where
  | mtime
  | mtimecmp
  | msip
  deriving DecidableEq, Repr

/-- The platform register that physical address `a` belongs to, and the byte of it (10_state.md R63 to R65). -/
def platformAt (c : Params) (a : Nat) : Option (PlatformReg × Nat) :=
  if c.mtimeAddr ≤ a ∧ a < c.mtimeAddr + 8 then some (.mtime, a - c.mtimeAddr)
  else if c.mtimecmpAddr ≤ a ∧ a < c.mtimecmpAddr + 8 then some (.mtimecmp, a - c.mtimecmpAddr)
  else if c.msipAddr ≤ a ∧ a < c.msipAddr + 4 then some (.msip, a - c.msipAddr)
  else none

/-- The region of PMA that covers an address. -/
def pmaRegionAt (c : Params) (a : Nat) : Option PmaRegion :=
  c.pma.find? (fun r => decide (r.base ≤ a) && decide (a < r.base + r.size))

/-- A kind of region supports a kind of access (R113). -/
def pmaSupports : PmaKind → AccessKind → Bool
  | .memory, _ => true
  | .rom, .fetch => true
  | .rom, .load => true
  | .rom, .store => false
  | .device f _ _, .fetch => f
  | .device _ l _, .load => l
  | .device _ _ w, .store => w

/-- The physical address supports the access (R113): nothing at or above PA_BITS does; a platform register supports loads and
stores (log 20); an address no region covers is vacant. -/
def pmaByte (c : Params) (kind : AccessKind) (a : Nat) : Bool :=
  if 2 ^ c.paBits ≤ a then false
  else match platformAt c a with
    | some _ => decide (kind ≠ .fetch)
    | none =>
      match pmaRegionAt c a with
      | some r => pmaSupports r.kind kind
      | none => false

/-- Every byte of the access is supported (R113). -/
def pmaAllows (c : Params) (kind : AccessKind) (pa n : Nat) : Bool :=
  (List.range n).all (fun k => pmaByte c kind (pa + k))

/-- The address lies in a device region without behaviour (R110). -/
def isDevice (c : Params) (a : Nat) : Bool :=
  match platformAt c a with
  | some _ => false
  | none =>
    match pmaRegionAt c a with
    | some r => match r.kind with
      | .device _ _ _ => true
      | .memory => false
      | .rom => false
    | none => false

/-- The first byte of the access that lies in a device region. -/
def deviceIn (c : Params) (pa n : Nat) : Option Nat :=
  ((List.range n).map (pa + ·)).find? (isDevice c)

/-- The first byte of the access that belongs to mtime. -/
def mtimeIn (c : Params) (pa n : Nat) : Option Nat :=
  ((List.range n).map (pa + ·)).find? (fun a =>
    match platformAt c a with
    | some (.mtime, _) => true
    | some (.mtimecmp, _) => false
    | some (.msip, _) => false
    | none => false)

/-! ## Accesses to physical memory after every check (00_scope.md R6: PhysRead, PhysWrite) -/

/-- The byte at a physical address. Memory that nothing has written reads as the free byte of its address (R75, log 9). -/
def State.byteAt (s : State) (a : Nat) : Byte :=
  match platformAt s.cfg a with
  | some (.mtime, k) => s.mtime.extractLsb' (8 * k) 8
  | some (.mtimecmp, k) => s.mtimecmp.extractLsb' (8 * k) 8
  | some (.msip, k) => if k = 0 then (if s.msip then 1#8 else 0#8) else 0#8
  | none =>
    match memRead s.mem a with
    | some b => b
    | none => Config.freeByte a

/-- Store one byte: into memory, which also marks the location as stored to (R132), or into a platform register. -/
def State.setByte (s : State) (a : Nat) (b : Byte) : State :=
  match platformAt s.cfg a with
  | some (.mtime, _) => s
  | some (.mtimecmp, k) => { s with mtimecmp := withByte s.mtimecmp k b }
  | some (.msip, k) => if k = 0 then { s with msip := b.getLsbD 0 } else s
  | none => { s with mem := memWrite s.mem a b, stored := insertAddr a s.stored }

/-- Store bytes at rising addresses. -/
def State.setBytes (s : State) (a : Nat) : List Byte → State
  | [] => s
  | b :: bs => (s.setByte a b).setBytes (a + 1) bs

/-- PhysRead(pa, n): refused on a device region (U14). -/
def physRead (s : State) (pa n : Nat) : Except Refusal Word :=
  match deviceIn s.cfg pa n with
  | some a => .error (.deviceRegion a)
  | none => .ok (bytesToWord ((List.range n).map fun k => s.byteAt (pa + k)))

/-- PhysWrite(pa, n, v): refused on a device region (U14) and on mtime (U15). -/
def physWrite (s : State) (pa n : Nat) (v : Word) : Except Refusal State :=
  match deviceIn s.cfg pa n with
  | some a => .error (.deviceRegion a)
  | none =>
    match mtimeIn s.cfg pa n with
    | some a => .error (.mtimeStore a)
    | none => .ok (s.setBytes pa (wordToBytes v n))

/-! ## Taking a trap (60_exceptions.md R300 to R326) -/

/-- The synchronous exceptions (R300). -/
inductive Exc where
  | instructionAddressMisaligned
  | instructionAccessFault
  | illegalInstruction
  | breakpoint
  | loadAddressMisaligned
  | loadAccessFault
  | storeAddressMisaligned
  | storeAccessFault
  | environmentCallFromU
  | environmentCallFromS
  | environmentCallFromM
  | instructionPageFault
  | loadPageFault
  | storePageFault
  deriving DecidableEq, Repr

/-- The codes of Figure 10.3 (R300). -/
def Exc.code : Exc → Nat
  | .instructionAddressMisaligned => 0
  | .instructionAccessFault => 1
  | .illegalInstruction => 2
  | .breakpoint => 3
  | .loadAddressMisaligned => 4
  | .loadAccessFault => 5
  | .storeAddressMisaligned => 6
  | .storeAccessFault => 7
  | .environmentCallFromU => 8
  | .environmentCallFromS => 9
  | .environmentCallFromM => 11
  | .instructionPageFault => 12
  | .loadPageFault => 13
  | .storePageFault => 15

/-- The access fault of an access kind (R113). -/
def accessFault : AccessKind → Exc
  | .fetch => .instructionAccessFault
  | .load => .loadAccessFault
  | .store => .storeAccessFault

/-- The page fault of an access kind (25_virtual_memory.md R159). -/
def pageFault : AccessKind → Exc
  | .fetch => .instructionPageFault
  | .load => .loadPageFault
  | .store => .storePageFault

/-- What a trap is taken for: an exception or an interrupt. -/
inductive Cause where
  | exc (e : Exc)
  | irq (i : Irq)
  deriving DecidableEq, Repr

/-- The exception code field (R44). -/
def Cause.code : Cause → Nat
  | .exc e => e.code
  | .irq i => i.code

/-- The interrupt bit (R44). -/
def Cause.isIrq : Cause → Bool
  | .exc _ => false
  | .irq _ => true

/-- The value of mcause or scause: `(is_interrupt ? 2^(XLEN-1) : 0) + code` (R320). -/
def causeWord (x : Xlen) (c : Cause) : Word :=
  BitVec.ofNat 64 ((if c.isIrq then 2 ^ (x.bits - 1) else 0) + c.code)

/-- Vector(tvec, is_interrupt, code) (R322). -/
def trapVector (x : Xlen) (tvec : Word) (c : Cause) : Word :=
  let base := tvec &&& ~~~3#64
  if tvec &&& 3#64 = 1#64 ∧ c.isIrq = true then x.wrap (base + BitVec.ofNat 64 (4 * c.code)) else base

/-- TrapEntryM (R320). Under MODES = M the field MPP reads 3 and is not written. -/
def enterM (c : Cause) (tval epc : Word) (s : State) : State :=
  let m := withStatusBit (withStatusBit s.mstatus .MPIE (statusBit s.mstatus .MIE)) .MIE false
  { s with
    mepc := epc
    mcause := causeWord s.cfg.xlen c
    mtval := tval
    mstatus := if s.cfg.modes = .m then m else withMpp m s.priv
    priv := .M
    pc := trapVector s.cfg.xlen s.mtvec c }

/-- TrapEntryS (R325). -/
def enterS (c : Cause) (tval epc : Word) (s : State) : State :=
  let m := withStatusBit (withStatusBit s.mstatus .SPIE (statusBit s.mstatus .SIE)) .SIE false
  { s with
    sepc := epc
    scause := causeWord s.cfg.xlen c
    stval := tval
    mstatus := withStatusBit m .SPP (decide (s.priv = .S))
    priv := .S
    pc := trapVector s.cfg.xlen s.stvec c }

/-- The trap is delegated to S mode by medeleg or mideleg and arises below M, under MODES = MSU (R321, R326). -/
def delegated (s : State) (c : Cause) : Bool :=
  decide (s.cfg.modes = .msu) && decide (s.priv ≠ .M) &&
    (match c with
     | .exc e => bit s.medeleg e.code
     | .irq i => bit s.mideleg i.code)

/-- Trap(is_interrupt, code, tval, epc) (R321). -/
def takeTrap (c : Cause) (tval epc : Word) (s : State) : State :=
  if delegated s c then enterS c tval epc s else enterM c tval epc s

/-- `raise E(tval)`: the trap entry with epc = the instruction's own pc (R6, R323). -/
def raise (e : Exc) (tval : Word) (s : State) : State := takeTrap (.exc e) tval s.pc s

/-- The Illegal instruction exception of instruction `i`: the trap value is its word, zero-extended (R301). -/
def raiseIllegal (i : Instr) (s : State) : State :=
  raise .illegalInstruction ((encode i).setWidth 64) s

/-! ## Leaving a trap (40_trap_return.md R200, R201) -/

/-- The effect of `mret` (R200). -/
def returnM (s : State) : State :=
  let m := withStatusBit (withStatusBit s.mstatus .MIE (statusBit s.mstatus .MPIE)) .MPIE true
  { s with
    mstatus := if s.cfg.modes = .m then m else withMpp m .U
    priv := if s.cfg.modes = .m then .M else mppOf s.mstatus
    pc := s.mepc }

/-- The effect of `sret` (R201). -/
def returnS (s : State) : State :=
  let m := withStatusBit (withStatusBit s.mstatus .SIE (statusBit s.mstatus .SPIE)) .SPIE true
  { s with
    mstatus := withStatusBit m .SPP false
    priv := sppOf s.mstatus
    pc := s.sepc }

end Sys2Proof.Machine
end

