-- ==== Sys2Proof/Machine/Operands.lean ====
section
/-! DEFINITION. Operand forms: immediates (30_encoding.md R184), effective addresses, jump and branch targets (44_base_subset.md). -/

namespace Sys2Proof.Machine

/-- The 12-bit immediate of the I and S formats, sign-extended to XLEN. -/
def State.imm12 (s : State) (imm : BitVec 12) : Word := sext s.cfg.xlen imm

/-- The U immediate: 20 high bits of a 32-bit value whose low 12 bits are zero, sign-extended from bit 31. -/
def State.immU (s : State) (imm : BitVec 20) : Word := sext s.cfg.xlen (imm ++ 0#12)

/-- `uimm`, zero-extended. -/
def immZ (uimm : BitVec 5) : Word := uimm.setWidth 64

/-- The effective address `x[rs1] + imm` of `lw` and `sw` (R260, R261). -/
def State.effAddr (s : State) (rs1 : Reg) (imm : BitVec 12) : Word :=
  s.cfg.xlen.wrap (s.reg rs1 + s.imm12 imm)

/-- `pc + imm`, the target of `jal` and of the branches (R252, R254). -/
def State.pcTarget (s : State) {n : Nat} (off : BitVec n) : Word :=
  s.cfg.xlen.wrap (s.pc + sext s.cfg.xlen off)

/-- `(x[rs1] + imm) & ~1`, the target of `jalr` (R253). -/
def State.jalrTarget (s : State) (rs1 : Reg) (imm : BitVec 12) : Word :=
  s.effAddr rs1 imm &&& ~~~1#64

/-- The target is a multiple of IALIGN/8 bytes (R107). -/
def State.targetOk (s : State) (target : Word) : Bool :=
  decide (target.toNat % s.cfg.ialign = 0)

/-- `x[rd] <- v; pc <- pc + 4`. -/
def writeAdvance (rd : Reg) (v : Word) (s : State) : Result := .next ((s.setReg rd v).setPc s.nextPc)

/-- A jump: Instruction address misaligned on the jump itself where the target is not a multiple of IALIGN/8 (R107), else link and go. -/
def jump (rd : Reg) (target : Word) (s : State) : Result :=
  if s.targetOk target then .next ((s.setReg rd s.nextPc).setPc target)
  else .next (raise .instructionAddressMisaligned target s)

/-- A conditional branch (R254): the exception only when it is taken. -/
def branch (taken : Bool) (target : Word) (s : State) : Result :=
  if taken then
    if s.targetOk target then .next (s.setPc target)
    else .next (raise .instructionAddressMisaligned target s)
  else .next s.advance

end Sys2Proof.Machine
end

