-- ==== Sys2Proof/Machine/Arith.lean ====
section
/-! DEFINITION. Integer arithmetic (44_base_subset.md R262 to R270). Results wrap modulo 2^XLEN in `setReg`; no flag exists (R69, R271). -/

namespace Sys2Proof.Machine

/-- `addi` (R262). -/
def execAddi (rd rs1 : Reg) (imm : BitVec 12) (s : State) : Result := writeAdvance rd (s.reg rs1 + s.imm12 imm) s

/-- `ori` (R263). -/
def execOri (rd rs1 : Reg) (imm : BitVec 12) (s : State) : Result := writeAdvance rd (s.reg rs1 ||| s.imm12 imm) s

/-- `andi` (R264). -/
def execAndi (rd rs1 : Reg) (imm : BitVec 12) (s : State) : Result := writeAdvance rd (s.reg rs1 &&& s.imm12 imm) s

/-- `slli` (R265): zeros shifted in, bits shifted out are lost. -/
def execSlli (rd rs1 : Reg) (shamt : BitVec 6) (s : State) : Result := writeAdvance rd (s.reg rs1 <<< shamt.toNat) s

/-- `add` (R266). -/
def execAdd (rd rs1 rs2 : Reg) (s : State) : Result := writeAdvance rd (s.reg rs1 + s.reg rs2) s

/-- `sub` (R267). -/
def execSub (rd rs1 rs2 : Reg) (s : State) : Result := writeAdvance rd (s.reg rs1 - s.reg rs2) s

/-- `sltu` (R268), unsigned. -/
def execSltu (rd rs1 rs2 : Reg) (s : State) : Result :=
  writeAdvance rd (if (s.reg rs1).toNat < (s.reg rs2).toNat then 1#64 else 0#64) s

/-- `or` (R269). -/
def execOr (rd rs1 rs2 : Reg) (s : State) : Result := writeAdvance rd (s.reg rs1 ||| s.reg rs2) s

/-- `and` (R270). -/
def execAnd (rd rs1 rs2 : Reg) (s : State) : Result := writeAdvance rd (s.reg rs1 &&& s.reg rs2) s

end Sys2Proof.Machine
end

