-- ==== Sys2Proof/Machine/Pmp.lean ====
section
/-! DEFINITION. Physical memory protection (10_state.md R56 to R59, 20_memory.md R120 to R126). -/

namespace Sys2Proof.Machine

/-- The fields of a PMP configuration byte (R57). -/
def pmpR (b : Byte) : Bool := b.getLsbD 0
def pmpW (b : Byte) : Bool := b.getLsbD 1
def pmpX (b : Byte) : Bool := b.getLsbD 2
def pmpL (b : Byte) : Bool := b.getLsbD 7

/-- The address-matching modes of the field A (R57, R121, R122). -/
inductive PmpMatch where
  | off
  | tor
  | na4
  | napot
  deriving DecidableEq, Repr

/-- The field A, bits 4:3. -/
def pmpMatch (b : Byte) : PmpMatch :=
  match b.getLsbD 4, b.getLsbD 3 with
  | false, false => .off
  | false, true => .tor
  | true, false => .na4
  | true, true => .napot

/-- The configuration byte of entry `i`; entries at or above PMP_COUNT read zero (R56). -/
def State.pmpCfg (s : State) (i : Nat) : Byte :=
  if i < s.cfg.pmpCount then s.pmpcfg[i]?.getD 0#8 else 0#8

/-- The address register of entry `i`; entries at or above PMP_COUNT read zero (R58). -/
def State.pmpAddr (s : State) (i : Nat) : Word :=
  if i < s.cfg.pmpCount then s.pmpaddr[i]?.getD 0#64 else 0#64

/-- Region(i): the byte addresses `lo ≤ a < hi` that an enabled entry covers (R121, R122). -/
def pmpRegion (s : State) (i : Nat) : Nat × Nat :=
  let a := (s.pmpAddr i).toNat
  match pmpMatch (s.pmpCfg i) with
  | .off => (0, 0)
  | .tor => (if i = 0 then 0 else 4 * (s.pmpAddr (i - 1)).toNat, 4 * a)
  | .na4 => (4 * a, 4 * a + 4)
  | .napot =>
    let k := trailingOnes 64 a
    let lo := 4 * (a - a % 2 ^ (k + 1))
    (lo, lo + 2 ^ (k + 3))

/-- How many of the bytes `pa .. pa+n-1` lie in `[lo, hi)`. -/
def bytesInside (lo hi pa n : Nat) : Nat := min hi (pa + n) - max lo pa

/-- The permission of an entry for an access kind (R120). -/
def pmpPermits (b : Byte) : AccessKind → Bool
  | .load => pmpR b
  | .store => pmpW b
  | .fetch => pmpX b

/-- The entries from the lowest number up: the first that covers any byte decides (R120, R123 to R125). -/
def pmpDecide (s : State) (pa n : Nat) (kind : AccessKind) (ep : Priv) : List Nat → Bool
  | [] => decide (ep = .M)
  | i :: rest =>
    let b := s.pmpCfg i
    let r := pmpRegion s i
    let k := bytesInside r.1 r.2 pa n
    if pmpMatch b = .off ∨ k = 0 then pmpDecide s pa n kind ep rest
    else if k < n then false
    else if ep = .M ∧ pmpL b = false then true
    else pmpPermits b kind

/-- PmpCheck(pa, n, kind, effpriv) (R120). -/
def pmpCheck (s : State) (pa n : Nat) (kind : AccessKind) (ep : Priv) : Bool :=
  if s.cfg.pmpCount = 0 then true
  else pmpDecide s pa n kind ep (List.range (min s.cfg.pmpCount 16))

/-- Steps 3 and 4 of the access path: PMP, then PMA (20_memory.md R112). Their failures cannot be told apart (R113). -/
def physAllowed (s : State) (pa n : Nat) (kind : AccessKind) (ep : Priv) : Bool :=
  pmpCheck s pa n kind ep && pmaAllows s.cfg kind pa n

end Sys2Proof.Machine
end

