-- ==== Sys2Proof/Machine/Paging.lean ====
section
/-! DEFINITION. Page-based virtual memory: Sv32, Sv39, Sv48 (25_virtual_memory.md R140 to R166). -/

namespace Sys2Proof.Machine

/-- What an access or a part of one answers: a value, a trap to take (with its trap value), or a refusal. The state carries what
the access leaves behind even when it traps: A and D bits, cache entries, bytes stored by a misaligned store (60_exceptions.md R303). -/
inductive Access (α : Type) where
  | done (a : α) (s : State)
  | trap (e : Exc) (tval : Word) (s : State)
  | refused (r : Refusal)
  deriving Repr

/-- Go on with the value of an access; a trap or a refusal ends it. -/
def Access.bind {α β : Type} (x : Access α) (f : α → State → Access β) : Access β :=
  match x with
  | .done a s => f a s
  | .trap e tval s => .trap e tval s
  | .refused r => .refused r

/-! ## Schemes and fields (R142 to R147, 10_state.md R60, R61) -/

/-- The parameters of a paging scheme (R142). -/
structure Scheme where
  vaBits : Nat
  levels : Nat
  pteBytes : Nat
  vpnBits : Nat
  ppnBits : Nat
  deriving DecidableEq, Repr

/-- The scheme a satp mode selects (R141, R142, R147). -/
def schemeOf : SatpMode → Option Scheme
  | .bare => none
  | .sv32 => some { vaBits := 32, levels := 2, pteBytes := 4, vpnBits := 10, ppnBits := 22 }
  | .sv39 => some { vaBits := 39, levels := 3, pteBytes := 8, vpnBits := 9, ppnBits := 44 }
  | .sv48 => some { vaBits := 48, levels := 4, pteBytes := 8, vpnBits := 9, ppnBits := 44 }

/-- The MODE field of a satp value (R60, R61); `none` for a value the source does not assign. -/
def satpModeOf (x : Xlen) (v : Word) : Option SatpMode :=
  match x with
  | .rv32 => if bit v 31 then some .sv32 else some .bare
  | .rv64 =>
    if v.extractLsb' 60 4 = 0#4 then some .bare
    else if v.extractLsb' 60 4 = 8#4 then some .sv39
    else if v.extractLsb' 60 4 = 9#4 then some .sv48
    else none

/-- The ASID field of a satp value (R60). -/
def satpAsid (x : Xlen) (v : Word) : BitVec 16 :=
  match x with
  | .rv32 => (v.extractLsb' 22 9).setWidth 16
  | .rv64 => v.extractLsb' 44 16

/-- The PPN field of a satp value (R60). -/
def satpPpn (x : Xlen) (v : Word) : Nat :=
  match x with
  | .rv32 => (v.extractLsb' 0 22).toNat
  | .rv64 => (v.extractLsb' 0 44).toNat

/-- The mode in force; paging exists only under MODES = MSU (R140). Which mode is in force where the MODE field holds a value the source
does not assign (RV64 1 to 7 and 10 to 15, R61) is not in the spec: DESIGN CHOICE, the model reads it as Bare (log 41). No reset and no write
produces such a value (R62). -/
def State.satpMode (s : State) : SatpMode :=
  match s.cfg.modes with
  | .m => .bare
  | .mu => .bare
  | .msu => (satpModeOf s.cfg.xlen s.satp).getD .bare

/-- `va.vpn[i]` (R143). -/
def vpn (sch : Scheme) (va : Word) (i : Nat) : Nat :=
  va.toNat / 2 ^ (12 + sch.vpnBits * i) % 2 ^ sch.vpnBits

/-- `va.vpn[LEVELS-1:i]` (R161). -/
def vpnPrefix (sch : Scheme) (va : Word) (i : Nat) : Word :=
  BitVec.ofNat 64 (va.toNat % 2 ^ sch.vaBits / 2 ^ (12 + sch.vpnBits * i))

/-- Bits above the translated width equal the top translated bit (R148); under Sv32 there is nothing to check. -/
def canonical (x : Xlen) (sch : Scheme) (va : Word) : Bool :=
  match x with
  | .rv32 => true
  | .rv64 => decide (va = (va.setWidth sch.vaBits).signExtend 64)

/-- The fields of a page-table entry (R144 to R147). -/
def pteV (p : Word) : Bool := bit p 0
def pteR (p : Word) : Bool := bit p 1
def pteW (p : Word) : Bool := bit p 2
def pteX (p : Word) : Bool := bit p 3
def pteU (p : Word) : Bool := bit p 4
def pteG (p : Word) : Bool := bit p 5
def pteA (p : Word) : Bool := bit p 6
def pteD (p : Word) : Bool := bit p 7
def ptePpn (sch : Scheme) (p : Word) : Nat := p.toNat / 2 ^ 10 % 2 ^ sch.ppnBits

/-- Bits 63:54, the Reserved field of the RV64 formats (R146, R147); zero for a 32-bit entry. -/
def pteReserved (p : Word) : Nat := p.toNat / 2 ^ 54

/-- A leaf: R = 1 or X = 1 (R150 step 4, R152). -/
def pteLeaf (p : Word) : Bool := pteR p || pteX p

/-- Step 3: V = 0, or R = 0 and W = 1 (R150, R152). -/
def pteInvalid (p : Word) : Bool := !pteV p || (!pteR p && pteW p)

/-- Step 7's test: A = 0, or a store and D = 0 (R157). -/
def pteNeedsAD (p : Word) (kind : AccessKind) : Bool :=
  !pteA p || (decide (kind = .store) && !pteD p)

/-- The entry with A set and, for a store, D set (R157). -/
def pteWithAD (p : Word) (kind : AccessKind) : Word :=
  match kind with
  | .store => withBit (withBit p 6 true) 7 true
  | .load => withBit p 6 true
  | .fetch => withBit p 6 true

/-- Permitted(pte, kind, effpriv) (R155). -/
def pagePermits (s : State) (p : Word) (kind : AccessKind) (ep : Priv) : Bool :=
  if ep = .U ∧ pteU p = false then false
  else if ep = .S ∧ pteU p = true ∧ (kind = .fetch ∨ statusBit s.mstatus .SUM = false) then false
  else match kind with
    | .fetch => pteX p
    | .load => pteR p || (statusBit s.mstatus .MXR && pteX p)
    | .store => pteW p

/-! ## The translation cache (R160 to R165) -/

/-- Add an entry to the set (R161 (a)). -/
def State.tlbAdd (s : State) (e : TlbEntry) : State :=
  if e ∈ s.tlb then s else { s with tlb := e :: s.tlb }

/-- The entry a walk makes of a PTE read at level `i` for `va` under the current satp (R161 (a)). -/
def State.tlbEntry (s : State) (sch : Scheme) (va : Word) (i : Nat) (p : Word) : TlbEntry :=
  { asid := satpAsid s.cfg.xlen s.satp, level := i, prefixVpn := vpnPrefix sch va i, pte := p }

/-- The entry serves a walk at level `i` for `va` under the current ASID (R161 (d), R165), and is not a leaf whose A or D bit the
access would have to set (R161 (e)). -/
def State.tlbMatches (s : State) (sch : Scheme) (va : Word) (kind : AccessKind) (i : Nat) (e : TlbEntry) : Bool :=
  decide (e.level = i) && decide (e.prefixVpn = vpnPrefix sch va i) &&
    (decide (e.asid = satpAsid s.cfg.xlen s.satp) || pteG e.pte) &&
    !(pteV e.pte && pteLeaf e.pte && pteNeedsAD e.pte kind)

/-- The cached value the step chooses to use, if it chooses one that is in the cache and matches (R161 (d)). -/
def State.tlbLookup (s : State) (sch : Scheme) (w : WalkChoice) (va : Word) (kind : AccessKind) (i : Nat) : Option Word :=
  (w.useCached.find? (fun e => decide (e ∈ s.tlb) && s.tlbMatches sch va kind i e)).map TlbEntry.pte

/-! ## The walk (R150 to R159) -/

/-- Step 2 reading memory at the entry's address: a PMP- and PMA-checked S-mode load (R151, 20_memory.md R126); the value may enter
the cache (R161 (a); that it enters always loses nothing, since entries vanish at any time, log 16). -/
def readPteMem (sch : Scheme) (va : Word) (kind : AccessKind) (i pa : Nat) (s : State) : Access Word :=
  if physAllowed s pa sch.pteBytes .load .S then
    match physRead s pa sch.pteBytes with
    | .ok p => .done p (s.tlbAdd (s.tlbEntry sch va i p))
    | .error r => .refused r
  else .trap (accessFault kind) va s

/-- ReadPte(pte_addr, va, i) (R161 (d)). -/
def readPte (sch : Scheme) (w : WalkChoice) (va : Word) (kind : AccessKind) (i pa : Nat) (s : State) : Access Word :=
  match s.tlbLookup sch w va kind i with
  | some p => .done p s
  | none => readPteMem sch va kind i pa s

/-- Step 8: the low `i` PPN fields come from the address, the others from the entry (R158). -/
def leafAddress (sch : Scheme) (va : Word) (i : Nat) (p : Word) : Nat :=
  let low := 2 ^ (sch.vpnBits * i)
  (ptePpn sch p - ptePpn sch p % low + va.toNat / 2 ^ 12 % low) * 4096 + va.toNat % 4096

/-- Step 6: the low PPN fields of a superpage leaf are not all zero (R156). -/
def misalignedSuperpage (sch : Scheme) (i : Nat) (p : Word) : Bool :=
  decide (ptePpn sch p % 2 ^ (sch.vpnBits * i) ≠ 0)

/-- The hardware's update of A and D in the entry at `pa`: PMP- and PMA-checked as an S-mode store; the cache entry takes the new
value (R157, R161 (a)). The value in memory is the value the walk read, so no restart arises on one hart (log 28). -/
def updateAD (sch : Scheme) (va : Word) (kind : AccessKind) (i pa : Nat) (p : Word) (s : State) : Access Unit :=
  if physAllowed s pa sch.pteBytes .store .S then
    match physWrite s pa sch.pteBytes (pteWithAD p kind) with
    | .ok s' =>
      let old := s.tlbEntry sch va i p
      let new := s.tlbEntry sch va i (pteWithAD p kind)
      .done () ({ s' with tlb := s'.tlb.filter (fun e => decide (e ≠ old)) }.tlbAdd new)
    | .error r => .refused r
  else .trap (accessFault kind) va s

/-- Whether this walk's step 7 sets the bits (AD_UPDATE, R157). -/
def State.setsAD (s : State) (w : WalkChoice) : Bool :=
  match s.cfg.adUpdate with
  | .fault => false
  | .hardware => true
  | .either => w.setAD

/-- Steps 5 to 8 on a leaf found at level `i`, whose entry stands at `pa` (R150). -/
def finishLeaf (sch : Scheme) (w : WalkChoice) (va : Word) (kind : AccessKind) (ep : Priv) (i pa : Nat) (p : Word) (s : State) :
    Access Nat :=
  if !pagePermits s p kind ep then .trap (pageFault kind) va s
  else if misalignedSuperpage sch i p then .trap (pageFault kind) va s
  else if pteNeedsAD p kind then
    if s.setsAD w then
      (updateAD sch va kind i pa p s).bind fun _ s' => .done (leafAddress sch va i p) s'
    else .trap (pageFault kind) va s
  else .done (leafAddress sch va i p) s

/-- The loop of R150 from the table at `a`, with `n` levels left: the next entry is read at level `n - 1`. -/
def walk (sch : Scheme) (w : WalkChoice) (va : Word) (kind : AccessKind) (ep : Priv) : Nat → Nat → State → Access Nat
  | 0, _, s => .trap (pageFault kind) va s
  | i + 1, a, s =>
    let pa := a + vpn sch va i * sch.pteBytes
    (readPte sch w va kind i pa s).bind fun p s' =>
      if pteInvalid p then .trap (pageFault kind) va s'
      else if pteReserved p ≠ 0 then .refused (.reservedPteBits p)
      else if pteLeaf p then finishLeaf sch w va kind ep i pa p s'
      else walk sch w va kind ep i (ptePpn sch p * 4096) s'

/-- Translate(va, kind, effpriv) under the scheme in force (R148, R150). -/
def translate (sch : Scheme) (w : WalkChoice) (va : Word) (kind : AccessKind) (ep : Priv) (s : State) : Access Nat :=
  if canonical s.cfg.xlen sch va then
    walk sch w va kind ep sch.levels (satpPpn s.cfg.xlen s.satp * 4096) s
  else .trap (pageFault kind) va s

/-! ## Speculative walks (R161 (b)) -/

/-- The reads of a speculative walk: step 2 of R150 at each level, through ReadPte (R161 (d)), so a pointer may come from the cache, stale or
not, or from memory, when it also enters the cache. The walk goes on through pointers, stops wherever a read is not allowed, and raises nothing. -/
def speculateFrom (sch : Scheme) (w : WalkChoice) (va : Word) : Nat → Nat → State → State
  | 0, _, s => s
  | i + 1, a, s =>
    match readPte sch w va .load i (a + vpn sch va i * sch.pteBytes) s with
    | .done p s' =>
      if pteInvalid p || decide (pteReserved p ≠ 0) || pteLeaf p then s' else speculateFrom sch w va i (ptePpn sch p * 4096) s'
    | .trap _ _ _ => s
    | .refused _ => s

/-- One speculative walk from the root of the current satp (steps 1 and 2 of R150); none while satp.MODE is Bare (R161 (b)). -/
def speculateOne (s : State) (x : SpeculativeWalk) : State :=
  match schemeOf s.satpMode with
  | none => s
  | some sch => speculateFrom sch x.choice (s.cfg.xlen.wrap x.va) sch.levels (satpPpn s.cfg.xlen s.satp * 4096) s

/-- Speculative walks, one after another. -/
def speculateAll (s : State) (walks : List SpeculativeWalk) : State := walks.foldl speculateOne s

/-! ## What `sfence.vma` removes (42_sfence_vma.md R221) -/

/-- The schemes under which a prefix is read: the one in force, or, under Bare, each scheme of the register width (log 16). -/
def coverSchemes (s : State) : List Scheme :=
  match schemeOf s.satpMode with
  | some sch => [sch]
  | none =>
    match s.cfg.xlen with
    | .rv32 => (schemeOf .sv32).toList
    | .rv64 => (schemeOf .sv39).toList ++ (schemeOf .sv48).toList

/-- The entry covers `va`: its prefix is `va.vpn[LEVELS-1:i]` (R221). -/
def tlbCovers (s : State) (va : Word) (e : TlbEntry) : Bool :=
  (coverSchemes s).any (fun sch => decide (e.prefixVpn = vpnPrefix sch va e.level))

/-- The low ASIDLEN bits of a register, which `sfence.vma` reads as its ASID (R220 corner case 3). -/
def State.fenceAsid (s : State) (v : Word) : BitVec 16 :=
  BitVec.ofNat 16 (v.toNat % 2 ^ s.cfg.asidLen)

/-- The four-case table of R221; an operand is `none` where the register number is 0. -/
def fenceRemoves (s : State) (va : Option Word) (asid : Option (BitVec 16)) (e : TlbEntry) : Bool :=
  match va, asid with
  | none, none => true
  | some v, none => tlbCovers s v e
  | none, some a => decide (e.asid = a) && !pteG e.pte
  | some v, some a => decide (e.asid = a) && !pteG e.pte && tlbCovers s v e

end Sys2Proof.Machine
end

