-- ==== Sys2Proof/Machine/Fence.lean ====
section
/-! DEFINITION. `sfence.vma` (42_sfence_vma.md R220 to R224). Earlier stores are visible to later page-table reads of the hart
because memory holds them; what the instruction changes is the translation cache. -/

namespace Sys2Proof.Machine

/-- The removal of the selected entries (R221). "All" is chosen by the register number 0 (R220 corner case 1). -/
def fenceTlb (rs1 rs2 : Reg) (s : State) : State :=
  let va := if rs1 = 0#5 then none else some (s.reg rs1)
  let asid := if rs2 = 0#5 then none else some (s.fenceAsid (s.reg rs2))
  { s with tlb := s.tlb.filter (fun e => !fenceRemoves s va asid e) }

/-- `sfence.vma` (R220): Illegal instruction without S mode, in U, and in S while TVM = 1. -/
def execSfenceVma (rs1 rs2 : Reg) (s : State) : Result :=
  if s.cfg.modes ≠ .msu ∨ s.priv = .U ∨ (s.priv = .S ∧ statusBit s.mstatus .TVM = true) then
    .next (raiseIllegal (.sfenceVma rs1 rs2) s)
  else .next (fenceTlb rs1 rs2 s).advance

end Sys2Proof.Machine
end

