-- ==== Sys2Proof/Machine/Jumps.lean ====
section
/-! DEFINITION. Jumps and branches (44_base_subset.md R252 to R259). -/

namespace Sys2Proof.Machine

/-- `jal` (R252). -/
def execJal (rd : Reg) (off : BitVec 21) (s : State) : Result := jump rd (s.pcTarget off) s

/-- `jalr` (R253): the target is taken from the old value of rs1. -/
def execJalr (rd rs1 : Reg) (imm : BitVec 12) (s : State) : Result := jump rd (s.jalrTarget rs1 imm) s

/-- `beq` (R254). -/
def execBeq (rs1 rs2 : Reg) (off : BitVec 13) (s : State) : Result :=
  branch (decide (s.reg rs1 = s.reg rs2)) (s.pcTarget off) s

/-- `bne` (R255). -/
def execBne (rs1 rs2 : Reg) (off : BitVec 13) (s : State) : Result :=
  branch (decide (s.reg rs1 ≠ s.reg rs2)) (s.pcTarget off) s

/-- `blt` (R256), signed. -/
def execBlt (rs1 rs2 : Reg) (off : BitVec 13) (s : State) : Result :=
  branch (decide (signedValue s.cfg.xlen (s.reg rs1) < signedValue s.cfg.xlen (s.reg rs2))) (s.pcTarget off) s

/-- `bge` (R257), signed. -/
def execBge (rs1 rs2 : Reg) (off : BitVec 13) (s : State) : Result :=
  branch (decide (signedValue s.cfg.xlen (s.reg rs2) ≤ signedValue s.cfg.xlen (s.reg rs1))) (s.pcTarget off) s

/-- `bltu` (R258), unsigned. -/
def execBltu (rs1 rs2 : Reg) (off : BitVec 13) (s : State) : Result :=
  branch (decide ((s.reg rs1).toNat < (s.reg rs2).toNat)) (s.pcTarget off) s

/-- `bgeu` (R259), unsigned. -/
def execBgeu (rs1 rs2 : Reg) (off : BitVec 13) (s : State) : Result :=
  branch (decide ((s.reg rs2).toNat ≤ (s.reg rs1).toNat)) (s.pcTarget off) s

end Sys2Proof.Machine
end

