-- ==== Sys2Proof/Machine/Access.lean ====
section
/-! DEFINITION. The path of one explicit access (20_memory.md R104 to R113): alignment, translation, PMP, PMA, the access. -/

namespace Sys2Proof.Machine

/-- Steps 2 to 4 of R112: the physical address of an access of `n` bytes at `va`, checked at mode `ep`. -/
def accessAddr (w : WalkChoice) (va : Word) (n : Nat) (kind : AccessKind) (ep : Priv) (s : State) : Access Nat :=
  let translated : Access Nat :=
    if ep = .M then .done va.toNat s
    else match schemeOf s.satpMode with
      | none => .done va.toNat s
      | some sch => translate sch w va kind ep s
  translated.bind fun pa s' =>
    if physAllowed s' pa n kind ep then .done pa s' else .trap (accessFault kind) va s'

/-- The choices of the step's `k`-th data walk. -/
def State.dataWalk (s : State) (k : Nat) : WalkChoice := s.now.dataWalks[k]?.getD default

/-- Steps 2 to 5 of a load of `n` bytes, as the step's `k`-th data access. -/
def loadPart (k : Nat) (va : Word) (n : Nat) (s : State) : Access Word :=
  (accessAddr (s.dataWalk k) va n .load s.effPriv s).bind fun pa s' =>
    match physRead s' pa n with
    | .ok v => .done v s'
    | .error r => .refused r

/-- Steps 2 to 5 of a store of `n` bytes, as the step's `k`-th data access. -/
def storePart (k : Nat) (va : Word) (n : Nat) (v : Word) (s : State) : Access Unit :=
  (accessAddr (s.dataWalk k) va n .store s.effPriv s).bind fun pa s' =>
    match physWrite s' pa n v with
    | .ok s'' => .done () s''
    | .error r => .refused r

/-- The order of the `n` byte accesses of a misaligned access (R106): what the step draws, completed to each byte once. -/
def byteOrder (s : State) (n : Nat) : List Nat :=
  let drawn := (s.now.byteOrder.filter (fun k => decide (k < n))).dedup
  drawn ++ (List.range n).filter (fun k => decide (k ∉ drawn))

/-- The byte loads of a misaligned load, one after another (R106); `acc` holds the bytes already read. -/
def loadBytes (va : Word) (j : Nat) : List Nat → Word → State → Access Word
  | [], acc, s => .done acc s
  | k :: rest, acc, s =>
    (loadPart j (s.cfg.xlen.wrap (va + BitVec.ofNat 64 k)) 1 s).bind fun b s' =>
      loadBytes va (j + 1) rest (withByte acc k (b.setWidth 8)) s'

/-- The byte stores of a misaligned store, one after another: a later failure leaves earlier bytes stored (R106). -/
def storeBytes (va : Word) (v : Word) (j : Nat) : List Nat → State → Access Unit
  | [], s => .done () s
  | k :: rest, s =>
    (storePart j (s.cfg.xlen.wrap (va + BitVec.ofNat 64 k)) 1 ((v.extractLsb' (8 * k) 8).setWidth 64) s).bind fun _ s' =>
      storeBytes va v (j + 1) rest s'

/-- MemRead(va, n) (R112). -/
def memLoad (va : Word) (n : Nat) (s : State) : Access Word :=
  if va.toNat % n = 0 then loadPart 0 va n s
  else if s.cfg.misalignedHw then loadBytes va 0 (byteOrder s n) 0#64 s
  else .trap .loadAddressMisaligned va s

/-- MemWrite(va, n, v) (R112). -/
def memStore (va : Word) (n : Nat) (v : Word) (s : State) : Access Unit :=
  if va.toNat % n = 0 then storePart 0 va n v s
  else if s.cfg.misalignedHw then storeBytes va v 0 (byteOrder s n) s
  else .trap .storeAddressMisaligned va s

/-- The first byte of `pa .. pa+n-1` that has been stored to since reset (R132). -/
def storedIn (s : State) (pa n : Nat) : Option Nat :=
  ((List.range n).map (pa + ·)).find? (fun a => decide (a ∈ s.stored))

/-- Fetch(pc): four bytes at the current mode (R109, R111, R112), refused where a byte has been stored to since reset (R132). -/
def fetch (s : State) : Access (BitVec 32) :=
  (accessAddr s.now.fetchWalk s.pc 4 .fetch s.priv s).bind fun pa s' =>
    match storedIn s' pa 4 with
    | some a => .refused (.fetchOfStoredLocation a)
    | none =>
      match physRead s' pa 4 with
      | .ok v => .done (v.setWidth 32) s'
      | .error r => .refused r

/-- The end of an instruction's access: its value goes on to the rest of the instruction, a raised exception traps with the
instruction's own pc (R6, R323). -/
def Access.finish {α : Type} (x : Access α) (f : α → State → Result) : Result :=
  match x with
  | .done a s => f a s
  | .trap e tval s => .next (raise e tval s)
  | .refused r => .refused r

end Sys2Proof.Machine
end

