-- ==== Sys2Proof/Machine/LoadStore.lean ====
section
/-! DEFINITION. `lw` and `sw` (44_base_subset.md R260, R261). -/

namespace Sys2Proof.Machine

/-- `lw` (R260): the word is sign-extended; on an exception rd is not written. -/
def execLw (rd rs1 : Reg) (imm : BitVec 12) (s : State) : Result :=
  (memLoad (s.effAddr rs1 imm) 4 s).finish fun v s' => writeAdvance rd (sext s.cfg.xlen (v.setWidth 32)) s'

/-- `sw` (R261): the low 32 bits of rs2. -/
def execSw (rs2 rs1 : Reg) (imm : BitVec 12) (s : State) : Result :=
  (memStore (s.effAddr rs1 imm) 4 (((s.reg rs2).setWidth 32).setWidth 64) s).finish fun _ s' => .next s'.advance

end Sys2Proof.Machine
end

