-- ==== Sys2Proof/Machine/Csr.lean ====
section
/-! DEFINITION. The CSR file (10_state.md R25 to R62): names and addresses, the access check (43_system_csr.md R232), reading and
writing (R239, R240). -/

namespace Sys2Proof.Machine

/-- The CSRs of R25. -/
inductive Csr where
  | sstatus
  | sie
  | stvec
  | sscratch
  | sepc
  | scause
  | stval
  | sip
  | satp
  | mstatus
  | medeleg
  | mideleg
  | mie
  | mtvec
  | mscratch
  | mepc
  | mcause
  | mtval
  | mip
  | pmpcfg (k : Fin 4)
  | pmpaddr (i : Fin 16)
  deriving DecidableEq, Repr

/-- The table of R25, the PMP registers apart. -/
def csrTable : List (Nat × Csr) :=
  [(0x100, .sstatus), (0x104, .sie), (0x105, .stvec), (0x140, .sscratch), (0x141, .sepc), (0x142, .scause), (0x143, .stval),
   (0x144, .sip), (0x180, .satp), (0x300, .mstatus), (0x302, .medeleg), (0x303, .mideleg), (0x304, .mie), (0x305, .mtvec),
   (0x340, .mscratch), (0x341, .mepc), (0x342, .mcause), (0x343, .mtval), (0x344, .mip)]

/-- The CSR at an address, if R25 lists it. -/
def csrAt (a : BitVec 12) : Option Csr :=
  if 0x3A0#12 ≤ a ∧ a ≤ 0x3A3#12 then some (.pmpcfg (Fin.ofNat 4 (a.toNat - 0x3A0)))
  else if 0x3B0#12 ≤ a ∧ a ≤ 0x3BF#12 then some (.pmpaddr (Fin.ofNat 16 (a.toNat - 0x3B0)))
  else (csrTable.find? (fun e => decide (e.1 = a.toNat))).map Prod.snd

/-- The CSR exists in the configuration (R25, column "exists when"). -/
def csrExists (c : Params) : Csr → Bool
  | .sstatus => decide (c.modes = .msu)
  | .sie => decide (c.modes = .msu)
  | .stvec => decide (c.modes = .msu)
  | .sscratch => decide (c.modes = .msu)
  | .sepc => decide (c.modes = .msu)
  | .scause => decide (c.modes = .msu)
  | .stval => decide (c.modes = .msu)
  | .sip => decide (c.modes = .msu)
  | .satp => decide (c.modes = .msu)
  | .mstatus => true
  | .medeleg => decide (c.modes = .msu)
  | .mideleg => decide (c.modes = .msu)
  | .mie => true
  | .mtvec => true
  | .mscratch => true
  | .mepc => true
  | .mcause => true
  | .mtval => true
  | .mip => true
  | .pmpcfg k => decide (0 < c.pmpCount) && (decide (c.xlen = .rv32) || decide (k.val % 2 = 0))
  | .pmpaddr _ => decide (0 < c.pmpCount)

/-- CsrCheck(csr, writes) (R232), for a listed CSR at address `a`: it exists, the mode suffices (address bits 9:8), a write is not to
a read-only address (bits 11:10 = 11), and satp is not trapped by TVM (R36). -/
def csrAllowed (s : State) (a : BitVec 12) (c : Csr) (writes : Bool) : Bool :=
  csrExists s.cfg c &&
    decide ((a.extractLsb' 8 2).toNat ≤ s.priv.code) &&
    !(writes && decide (a.extractLsb' 10 2 = 0b11#2)) &&
    !(decide (c = .satp) && decide (s.priv = .S) && statusBit s.mstatus .TVM)

/-! ## Field masks (R239) -/

/-- The bits of mstatus a write can change, by MODES. -/
def mstatusMask : Modes → Word
  | .m => 0x00000088#64
  | .mu => 0x00021888#64
  | .msu => 0x007E19AA#64

/-- The bits of mstatus a read of sstatus shows: `0x000DE133` and bit XLEN-1 (R39). -/
def sstatusReadMask (x : Xlen) : Word := 0x000DE133#64 ||| (1#64 <<< (x.bits - 1))

/-- The bits of mstatus a write of sstatus changes (R39). -/
def sstatusWriteMask : Word := 0x000C0122#64

/-- The supervisor interrupt bits 9, 5, 1 (R52, R53, R55). -/
def supervisorBits : Word := 0x222#64

/-- The writable bits of mie (R51). -/
def mieMask : Modes → Word
  | .m => 0x888#64
  | .mu => 0x888#64
  | .msu => 0xAAA#64

/-- The software-writable bits of mip (R50). -/
def mipMask : Modes → Word
  | .m => 0#64
  | .mu => 0#64
  | .msu => 0x222#64

/-- The writable bits of medeleg (R54). -/
def medelegMask : Word := 0xB3FF#64

/-- The writable bits of mepc and sepc (R42): all but bit 0, and but bit 1 when C_EXT is false. -/
def epcMask (c : Params) : Word := if c.cExt then ~~~1#64 else ~~~3#64

/-- The writable bits of pmpaddr (R58, R239): PA_BITS-3 down to 0. -/
def pmpaddrMask (c : Params) : Word := BitVec.ofNat 64 (2 ^ (c.paBits - 2) - 1)

/-! ## Reading (R239) -/

/-- The entries a pmpcfg register packs: four from `4k` under RV32, eight from `4k` under RV64 (R56). -/
def pmpcfgEntries (x : Xlen) (k : Nat) : List Nat :=
  match x with
  | .rv32 => [4 * k, 4 * k + 1, 4 * k + 2, 4 * k + 3]
  | .rv64 => [4 * k, 4 * k + 1, 4 * k + 2, 4 * k + 3, 4 * k + 4, 4 * k + 5, 4 * k + 6, 4 * k + 7]

/-- ReadCsr(csr). -/
def csrRead (s : State) : Csr → Word
  | .sstatus => s.mstatus &&& sstatusReadMask s.cfg.xlen
  | .sie => s.mie &&& s.mideleg &&& supervisorBits
  | .stvec => s.stvec
  | .sscratch => s.sscratch
  | .sepc => s.sepc
  | .scause => s.scause
  | .stval => s.stval
  | .sip => s.mip &&& s.mideleg &&& supervisorBits
  | .satp => s.satp
  | .mstatus => s.mstatus
  | .medeleg => s.medeleg
  | .mideleg => s.mideleg
  | .mie => s.mie
  | .mtvec => s.mtvec
  | .mscratch => s.mscratch
  | .mepc => s.mepc
  | .mcause => s.mcause
  | .mtval => s.mtval
  | .mip => s.mip
  | .pmpcfg k => bytesToWord ((pmpcfgEntries s.cfg.xlen k.val).map s.pmpCfg)
  | .pmpaddr i => s.pmpAddr i.val

/-- The value `csrrs` and `csrrc` modify: as read, but SEIP of mip and sip without the external line (R240). -/
def csrReadForModify (s : State) (c : Csr) : Word :=
  match c with
  | .mip => s.mipForModify
  | .sip => s.mipForModify &&& s.mideleg &&& supervisorBits
  | _ => csrRead s c

/-! ## Writing (R239) -/

/-- The mode MPP names after a write of an encoding that names none: an implemented one, drawn (R31, U1, log 13). -/
def State.drawnMpp (s : State) : Priv := if s.cfg.modes.has s.now.mpp then s.now.mpp else .M

/-- What mstatus holds after a write: the writable bits of MODES take the written value, and MPP an implemented mode (R31, R38). -/
def mstatusWritten (s : State) (v : Word) : Word :=
  let m := mergeBits (mstatusMask s.cfg.modes) s.mstatus v
  match s.cfg.modes with
  | .m => m
  | .mu => withMpp m ((mppWritten s.cfg v).getD s.drawnMpp)
  | .msu => withMpp m ((mppWritten s.cfg v).getD s.drawnMpp)

/-- A write of mtvec or stvec (R40): BASE is written; MODE takes 0, and 1 if VECTORED, and otherwise stays. -/
def tvecWritten (c : Params) (old v : Word) : Word :=
  if v &&& 3#64 = 0#64 ∨ (v &&& 3#64 = 1#64 ∧ c.vectored = true) then v
  else (v &&& ~~~3#64) ||| (old &&& 3#64)

/-- The causes of Figure 10.3 (R300, R305). -/
def listedCauses (x : Xlen) : List Word :=
  ([.instructionAddressMisaligned, .instructionAccessFault, .illegalInstruction, .breakpoint, .loadAddressMisaligned,
    .loadAccessFault, .storeAddressMisaligned, .storeAccessFault, .environmentCallFromU, .environmentCallFromS,
    .environmentCallFromM, .instructionPageFault, .loadPageFault, .storePageFault] : List Exc).map (fun e => causeWord x (.exc e)) ++
  Irq.all.map (fun i => causeWord x (.irq i))

/-- A write of mcause or scause (R44): a listed value is held; after another one the content is what the step draws (D47, U2). -/
def causeWritten (s : State) (v : Word) : Word :=
  if v ∈ listedCauses s.cfg.xlen then v else s.cfg.xlen.wrap s.now.cause

/-- The bits of satp the implementation holds: MODE, ASIDLEN bits of ASID, PA_BITS - 12 bits of PPN (R60). -/
def satpMask (c : Params) : Word :=
  match c.xlen with
  | .rv32 => BitVec.ofNat 64 (2 ^ 31 + (2 ^ min c.asidLen 9 - 1) * 2 ^ 22 + (2 ^ min (c.paBits - 12) 22 - 1))
  | .rv64 => BitVec.ofNat 64 (15 * 2 ^ 60 + (2 ^ min c.asidLen 16 - 1) * 2 ^ 44 + (2 ^ min (c.paBits - 12) 44 - 1))

/-- What satp holds after a write (R62): the old value unless the new MODE is supported. -/
def satpWritten (c : Params) (old v : Word) : Word :=
  match satpModeOf c.xlen v with
  | some m => if m ∈ c.satpModes then v &&& satpMask c else old
  | none => old

/-- A write of one configuration byte (R57, R59, R239): nothing to a locked or absent entry; refused where it would leave R = 0, W = 1. -/
def writePmpByte (s : State) (i : Nat) (b : Byte) : Except Refusal State :=
  if i < s.cfg.pmpCount ∧ pmpL (s.pmpCfg i) = false then
    if pmpR b = false ∧ pmpW b = true then .error (.reservedPmpPermission i)
    else .ok { s with pmpcfg := s.pmpcfg.setIfInBounds i (b &&& 0x9F#8) }
  else .ok s

/-- A write of the configuration bytes of consecutive entries from bit 0 of `v` up (R56). -/
def writePmpBytes (s : State) (v : Word) : List Nat → Except Refusal State
  | [] => .ok s
  | i :: rest =>
    match writePmpByte s i (v.extractLsb' 0 8) with
    | .ok s' => writePmpBytes s' (v >>> 8) rest
    | .error r => .error r

/-- pmpaddr`i` is locked: its own entry is, or the next entry is and is top-of-range (R59). -/
def pmpaddrLocked (s : State) (i : Nat) : Bool :=
  pmpL (s.pmpCfg i) || (pmpL (s.pmpCfg (i + 1)) && decide (pmpMatch (s.pmpCfg (i + 1)) = .tor))

/-- A write of pmpaddr`i` (R58, R59, R239). -/
def writePmpaddr (s : State) (i : Nat) (v : Word) : State :=
  if i < s.cfg.pmpCount ∧ pmpaddrLocked s i = false then
    { s with pmpaddr := s.pmpaddr.setIfInBounds i (v &&& pmpaddrMask s.cfg) }
  else s

/-- WriteCsr(csr, v). -/
def csrWrite (s : State) (c : Csr) (v : Word) : Except Refusal State :=
  match c with
  | .sstatus => .ok { s with mstatus := mergeBits sstatusWriteMask s.mstatus v }
  | .sie => .ok { s with mie := mergeBits (s.mideleg &&& supervisorBits) s.mie v }
  | .stvec => .ok { s with stvec := tvecWritten s.cfg s.stvec v }
  | .sscratch => .ok { s with sscratch := v }
  | .sepc => .ok { s with sepc := v &&& epcMask s.cfg }
  | .scause => .ok { s with scause := causeWritten s v }
  | .stval => .ok { s with stval := v }
  | .sip => .ok { s with mipSoft := mergeBits (s.mideleg &&& s.cfg.sipWritable &&& supervisorBits) s.mipSoft v }
  | .satp => .ok { s with satp := satpWritten s.cfg s.satp v }
  | .mstatus => .ok { s with mstatus := mstatusWritten s v }
  | .medeleg => .ok { s with medeleg := v &&& medelegMask }
  | .mideleg => .ok { s with mideleg := v &&& supervisorBits }
  | .mie => .ok { s with mie := mergeBits (mieMask s.cfg.modes) s.mie v }
  | .mtvec => .ok { s with mtvec := tvecWritten s.cfg s.mtvec v }
  | .mscratch => .ok { s with mscratch := v }
  | .mepc => .ok { s with mepc := v &&& epcMask s.cfg }
  | .mcause => .ok { s with mcause := causeWritten s v }
  | .mtval => .ok { s with mtval := v }
  | .mip => .ok { s with mipSoft := mergeBits (mipMask s.cfg.modes) s.mipSoft v }
  | .pmpcfg k => writePmpBytes s v (pmpcfgEntries s.cfg.xlen k.val)
  | .pmpaddr i => .ok (writePmpaddr s i.val v)

/-! ## One CSR instruction (R233 to R241) -/

/-- `rd <- old; CSR <- new`, or only the read, then `pc <- pc + 4`, after the check of R232. `new` is given the value to modify. -/
def csrOp (i : Instr) (csr : BitVec 12) (rd : Reg) (writes : Bool) (new : Word → Word) (s : State) : Result :=
  match csrAt csr with
  | none => .refused (.unlistedCsr csr)
  | some c =>
    if csrAllowed s csr c writes then
      if writes then
        match csrWrite s c (new (csrReadForModify s c)) with
        | .ok s' => writeAdvance rd (csrRead s c) s'
        | .error r => .refused r
      else writeAdvance rd (csrRead s c) s
    else .next (raiseIllegal i s)

end Sys2Proof.Machine
end

