-- ==== Sys2Proof/Machine/SystemCsr.lean ====
section
/-! DEFINITION. `ecall`, `ebreak` and the six CSR instructions (43_system_csr.md R230 to R241). -/

namespace Sys2Proof.Machine

/-- The exception of an `ecall` executed in a mode (R230). -/
def ecallCause : Priv → Exc
  | .U => .environmentCallFromU
  | .S => .environmentCallFromS
  | .M => .environmentCallFromM

/-- `ecall` (R230): trap value 0. -/
def execEcall (s : State) : Result := .next (raise (ecallCause s.priv) 0#64 s)

/-- `ebreak` (R231): trap value 0 (R301, log 11). -/
def execEbreak (s : State) : Result := .next (raise .breakpoint 0#64 s)

/-- `csrrw` (R233): always writes; the new value is read before rd is written. -/
def execCsrrw (rd : Reg) (csr : BitVec 12) (rs1 : Reg) (s : State) : Result :=
  csrOp (.csrrw rd csr rs1) csr rd true (fun _ => s.reg rs1) s

/-- `csrrs` (R234): writes when rs1 is not x0. -/
def execCsrrs (rd : Reg) (csr : BitVec 12) (rs1 : Reg) (s : State) : Result :=
  csrOp (.csrrs rd csr rs1) csr rd (decide (rs1 ≠ 0#5)) (fun old => old ||| s.reg rs1) s

/-- `csrrc` (R235): writes when rs1 is not x0. -/
def execCsrrc (rd : Reg) (csr : BitVec 12) (rs1 : Reg) (s : State) : Result :=
  csrOp (.csrrc rd csr rs1) csr rd (decide (rs1 ≠ 0#5)) (fun old => old &&& ~~~(s.reg rs1)) s

/-- `csrrwi` (R236): always writes. -/
def execCsrrwi (rd : Reg) (csr : BitVec 12) (uimm : BitVec 5) (s : State) : Result :=
  csrOp (.csrrwi rd csr uimm) csr rd true (fun _ => immZ uimm) s

/-- `csrrsi` (R237): writes when uimm is not 0. -/
def execCsrrsi (rd : Reg) (csr : BitVec 12) (uimm : BitVec 5) (s : State) : Result :=
  csrOp (.csrrsi rd csr uimm) csr rd (decide (uimm ≠ 0#5)) (fun old => old ||| immZ uimm) s

/-- `csrrci` (R238): writes when uimm is not 0. -/
def execCsrrci (rd : Reg) (csr : BitVec 12) (uimm : BitVec 5) (s : State) : Result :=
  csrOp (.csrrci rd csr uimm) csr rd (decide (uimm ≠ 0#5)) (fun old => old &&& ~~~(immZ uimm)) s

end Sys2Proof.Machine
end

