-- ==== Sys2Proof/Machine/TrapReturn.lean ====
section
/-! DEFINITION. `mret` and `sret` (40_trap_return.md R200, R201). -/

namespace Sys2Proof.Machine

/-- `mret` (R200): Illegal instruction below M. -/
def execMret (s : State) : Result :=
  if s.priv = .M then .next (returnM s) else .next (raiseIllegal .mret s)

/-- `sret` (R201): Illegal instruction without S mode, in U, and in S while TSR = 1; legal in M. -/
def execSret (s : State) : Result :=
  if s.cfg.modes ≠ .msu ∨ s.priv = .U ∨ (s.priv = .S ∧ statusBit s.mstatus .TSR = true) then .next (raiseIllegal .sret s)
  else .next (returnS s)

end Sys2Proof.Machine
end

