-- ==== Sys2Proof/Machine/Upper.lean ====
section
/-! DEFINITION. Upper immediates: `lui`, `auipc` (44_base_subset.md R250, R251). -/

namespace Sys2Proof.Machine

/-- `lui` (R250). -/
def execLui (rd : Reg) (imm : BitVec 20) (s : State) : Result := writeAdvance rd (s.immU imm) s

/-- `auipc` (R251): the pc is the address of the instruction itself. -/
def execAuipc (rd : Reg) (imm : BitVec 20) (s : State) : Result := writeAdvance rd (s.pc + s.immU imm) s

end Sys2Proof.Machine
end

