-- ==== Sys2Proof/Machine/Wfi.lean ====
section
/-! DEFINITION. `wfi` and the wait state (41_wfi.md R210 to R213). -/

namespace Sys2Proof.Machine

/-- A stalling `wfi`: no wait if an enabled interrupt is already pending (R210). -/
def stallWfi (s : State) : State :=
  if s.wakes then s.advance else { s with waiting := true, waited := 0 }

/-- `wfi` (R210): Illegal instruction in U, and at once in S under TW = 1 with TW_LIMIT = 0; then as WFI_IMPL says. -/
def execWfi (s : State) : Result :=
  if s.priv = .U ∨ (s.priv = .S ∧ statusBit s.mstatus .TW = true ∧ s.cfg.twLimit = 0) then .next (raiseIllegal .wfi s)
  else match s.cfg.wfiImpl with
    | .nop => .next s.advance
    | .stall => .next (stallWfi s)
    | .either => .next (if s.now.wfiStall then stallWfi s else s.advance)

/-- The hart leaves the wait at this step (R211): an enabled interrupt is pending, or, under WFI_IMPL = either, at any moment. -/
def State.leavesWait (s : State) : Bool :=
  s.wakes || (decide (s.cfg.wfiImpl = .either) && s.now.wakeEarly)

/-- The wait has lasted TW_LIMIT steps in S mode under TW = 1 (10_state.md R36, log 22). -/
def State.waitExpired (s : State) : Bool :=
  decide (s.priv = .S) && statusBit s.mstatus .TW && decide (s.cfg.twLimit ≤ s.waited)

/-- The hart stays in the wait state for one more step. -/
def stayWaiting (s : State) : State := { s with waited := s.waited + 1 }

/-- The end of the wait: the `wfi` counts as completed (R211). -/
def endWait (s : State) : State := { s with waiting := false, waited := 0 }.advance

/-- The wait ends in Illegal instruction on the `wfi` (R36, R210). -/
def expireWait (s : State) : State := raiseIllegal .wfi { s with waiting := false, waited := 0 }

end Sys2Proof.Machine
end

