-- ==== Sys2Proof/Machine/Cycle.lean ====
section
/-! DEFINITION. One step of the hart and its platform (60_exceptions.md R362). -/

namespace Sys2Proof.Machine

/-- The choices of the coming step: the next one written down, else the free ones of this tick (log 3). -/
def drawChoices (s : State) : State :=
  match s.script with
  | c :: rest => { s with now := c, script := rest, tick := s.tick + 1 }
  | [] => { s with now := Config.freeChoices s.tick, tick := s.tick + 1 }

/-- The environment step (R362), once before each hart step (log 4): mtime takes any value not below its own (R350), the platform
drives the external lines (R309) and may store to `msip[0]` (R308), the cache gains speculative entries and loses any (R161). -/
def environment (s : State) : State :=
  { s with
    mtime := if s.mtime.toNat ≤ s.now.mtime.toNat then s.now.mtime else s.mtime
    meipLine := s.now.meip
    seipLine := s.now.seip
    msip := if s.cfg.externalMsip then s.now.msip else s.msip
    tlb := (speculateAll s s.now.speculate).tlb.filter (fun e => decide (e ∉ s.now.evict)) }

/-- Decode and execute a fetched word (R362, R190): a SYSTEM pattern that is no instruction raises Illegal instruction with the
word as trap value; any other pattern that is no instruction of the spec is refused. -/
def execWord (w : BitVec 32) (s : State) : Result :=
  match decode s.cfg.xlen w with
  | .ok i => exec i s
  | .error .illegalSystem => .next (raise .illegalInstruction (w.setWidth 64) s)
  | .error .notThirtyTwoBit => .refused (.notThirtyTwoBit w)
  | .error .uncovered => .refused (.uncoveredEncoding w)
  | .error .truncated => .refused (.uncoveredEncoding w)

/-- Fetch, decode, execute; a fetch exception traps with epc = pc (R362). -/
def runInstruction (s : State) : Result := (fetch s).finish execWord

/-- At an instruction boundary: take the selected interrupt if there is one and the hart chooses to, else run the next
instruction (R311 to R314). -/
def atBoundary (s : State) : Result :=
  match s.selectIrq with
  | some i => if s.now.takeInterrupt then .next (takeTrap (.irq i) 0#64 s.pc s) else runInstruction s
  | none => runInstruction s

/-- HartStep (R362): a waiting hart stays, or leaves the wait and stands at an instruction boundary. -/
def hartStep (s : State) : Result :=
  if s.waiting then
    if s.leavesWait then atBoundary (endWait s)
    else if s.waitExpired then .next (expireWait s)
    else .next (stayWaiting s)
  else atBoundary s

/-- Choices under which the platform leaves everything as it is, no interrupt is taken and no cached entry is used: what
`State.withFetchWord` writes down for its one step (log 29). -/
def quietChoices (s : State) : Choices :=
  { (default : Choices) with mtime := s.mtime, meip := s.meipLine, seip := s.seipLine, msip := s.msip, takeInterrupt := false }

/-- The instruction word at physical address `a`, replaced; the location does not count as stored to. -/
def placeWord (s : State) (a : Nat) (w : BitVec 32) : State :=
  let bytes := wordBytes w
  let put (t : State) (k : Nat) : State :=
    { t with mem := memWrite t.mem (a + k) (bytes[k]?.getD 0#8), stored := t.stored.filter (fun b => decide (b ≠ a + k)) }
  [0, 1, 2, 3].foldl put s

/-- The physical address the next step fetches from: the pc, or what it translates to where translation is on. -/
def fetchAddr (s : State) : Nat :=
  let t := environment (drawChoices s)
  match accessAddr t.now.fetchWalk t.pc 4 .fetch t.priv t with
  | .done pa _ => pa
  | .trap _ _ _ => s.pc.toNat
  | .refused _ => s.pc.toNat

end Sys2Proof.Machine
end

