-- ==== Sys2Proof/Machine/Step.lean ====
section
/-! DEFINITION. One step of the machine, and the state whose next step runs a given word. -/

namespace Sys2Proof.Machine

/-- One step: the choices are drawn, the environment moves, the hart steps (R362). -/
def step (s : State) : Host.Outcome State Fault Refusal := hartStep (environment (drawChoices s))

/-- `s` with the instruction whose bits are `w`, numbered as spec/opcode_table.json numbers them, stored where `step` fetches its
next instruction. The location does not count as stored to, since a program is placed by the launch state (R132, log 29); the hart
does not wait, and the coming step is one in which the platform is still and no interrupt is taken. -/
def State.withFetchWord (s : State) (nbits w : Nat) : State :=
  let t : State := { s with waiting := false, script := quietChoices s :: s.script.drop 1 }
  placeWord t (fetchAddr t) (BitVec.ofNat 32 (w % 2 ^ nbits))

end Sys2Proof.Machine
end

