-- ==== Sys2Proof/Safety.lean ====
section
/-! DEFINITION. The terms claims are written in: what one state shares with another, and the invariants of a legal machine. -/

namespace Sys2Proof.Machine

/-! ## Values of a width -/

/-- The value is an XLEN-bit value (00_scope.md R2). -/
def fits (x : Xlen) (v : Word) : Prop := v.toNat < 2 ^ x.bits

/-- The address is a multiple of IALIGN/8 bytes (10_state.md R23). -/
def alignedTo (c : Params) (v : Word) : Prop := v.toNat % c.ialign = 0

/-- An integer modulo 2^XLEN (00_scope.md R6). -/
def modXlen (x : Xlen) (z : Int) : Word := BitVec.ofInt 64 (z % 2 ^ x.bits)

/-- The value of a word as a natural number, as an integer. -/
def unsigned (v : Word) : Int := v.toNat

/-- The value of the low XLEN bits as a two's-complement number. -/
def twos (x : Xlen) (v : Word) : Int :=
  let n : Int := (v.toNat : Int) % 2 ^ x.bits
  if 2 * n < 2 ^ x.bits then n else n - 2 ^ x.bits

/-- The address of the next instruction in sequence: pc + 4 modulo 2^XLEN (R23). -/
def State.following (s : State) : Word := modXlen s.cfg.xlen (unsigned s.pc + 4)

/-- The 32-bit word at a physical address, least significant byte at the lowest address (R104). -/
def wordAt (s : State) (a : Nat) : BitVec 32 :=
  s.byteAt (a + 3) ++ (s.byteAt (a + 2) ++ (s.byteAt (a + 1) ++ s.byteAt a))

/-- Every bit of an immediate's sign extension: bit 11 stands above bit 11 (30_encoding.md R184). -/
def immBit (imm : BitVec 12) (i : Nat) : Bool := imm.getLsbD (min i 11)

/-- The branches with the condition each takes (44_base_subset.md R254 to R259). -/
def branchTable (s : State) (a b : Reg) (off : BitVec 13) : List (Instr × Prop) :=
  [(.beq a b off, s.reg a = s.reg b), (.bne a b off, s.reg a ≠ s.reg b),
   (.blt a b off, twos s.cfg.xlen (s.reg a) < twos s.cfg.xlen (s.reg b)),
   (.bge a b off, twos s.cfg.xlen (s.reg b) ≤ twos s.cfg.xlen (s.reg a)),
   (.bltu a b off, unsigned (s.reg a) < unsigned (s.reg b)),
   (.bgeu a b off, unsigned (s.reg b) ≤ unsigned (s.reg a))]

/-- The CSR instructions with whether each writes, and the value it writes given the value it modifies (43_system_csr.md R241).
`f` is the rs1 field: a register number, or the immediate of the three immediate forms. -/
def csrForms (s : State) (rd : Reg) (csr : BitVec 12) (f : BitVec 5) : List (Instr × Bool × (Word → Word)) :=
  [(.csrrw rd csr f, true, fun _ => s.reg f),
   (.csrrs rd csr f, decide (f ≠ 0#5), fun old => old ||| s.reg f),
   (.csrrc rd csr f, decide (f ≠ 0#5), fun old => old &&& ~~~(s.reg f)),
   (.csrrwi rd csr f, true, fun _ => f.setWidth 64),
   (.csrrsi rd csr f, decide (f ≠ 0#5), fun old => old ||| f.setWidth 64),
   (.csrrci rd csr f, decide (f ≠ 0#5), fun old => old &&& ~~~(f.setWidth 64))]

/-! ## What two states share -/

/-- Every CSR-level register, the privilege mode and the parameters (10_state.md R24 to R62). -/
def sameCsrs (s t : State) : Prop :=
  t.cfg = s.cfg ∧ t.priv = s.priv ∧ t.mstatus = s.mstatus ∧ t.medeleg = s.medeleg ∧ t.mideleg = s.mideleg ∧ t.mie = s.mie ∧
  t.mtvec = s.mtvec ∧ t.mscratch = s.mscratch ∧ t.mepc = s.mepc ∧ t.mcause = s.mcause ∧ t.mtval = s.mtval ∧
  t.mipSoft = s.mipSoft ∧ t.stvec = s.stvec ∧ t.sscratch = s.sscratch ∧ t.sepc = s.sepc ∧ t.scause = s.scause ∧
  t.stval = s.stval ∧ t.satp = s.satp ∧ t.pmpcfg = s.pmpcfg ∧ t.pmpaddr = s.pmpaddr

/-- Every register that no trap entry and no trap return writes, and the parameters (60_exceptions.md R320, R325). -/
def sameUntrapped (s t : State) : Prop :=
  t.cfg = s.cfg ∧ t.medeleg = s.medeleg ∧ t.mideleg = s.mideleg ∧ t.mie = s.mie ∧ t.mtvec = s.mtvec ∧
  t.mscratch = s.mscratch ∧ t.mipSoft = s.mipSoft ∧ t.stvec = s.stvec ∧ t.sscratch = s.sscratch ∧ t.satp = s.satp ∧
  t.pmpcfg = s.pmpcfg ∧ t.pmpaddr = s.pmpaddr

/-- The M-mode trap registers mepc, mcause, mtval (R320). -/
def sameMTrap (s t : State) : Prop := t.mepc = s.mepc ∧ t.mcause = s.mcause ∧ t.mtval = s.mtval

/-- The S-mode trap registers sepc, scause, stval (R325). -/
def sameSTrap (s t : State) : Prop := t.sepc = s.sepc ∧ t.scause = s.scause ∧ t.stval = s.stval

/-- The wait state (R68) and the model's own bookkeeping of choices. -/
def sameWait (s t : State) : Prop :=
  t.waiting = s.waiting ∧ t.waited = s.waited ∧ t.now = s.now ∧ t.script = s.script ∧ t.tick = s.tick

/-- The translation cache (R67). -/
def sameCache (s t : State) : Prop := t.tlb = s.tlb

/-- The registers of the platform and the interrupt lines (R63 to R66). -/
def samePlatform (s t : State) : Prop :=
  t.mtime = s.mtime ∧ t.mtimecmp = s.mtimecmp ∧ t.msip = s.msip ∧ t.meipLine = s.meipLine ∧ t.seipLine = s.seipLine

/-- The external interrupt lines (R66). -/
def sameLines (s t : State) : Prop := t.meipLine = s.meipLine ∧ t.seipLine = s.seipLine

/-- Every byte of the physical address space, and the record of stored-to locations. -/
def sameMemory (s t : State) : Prop := (∀ a, t.byteAt a = s.byteAt a) ∧ t.stored = s.stored

/-- Every integer register but `rd`; x0 reads zero in both. -/
def sameRegsBut (rd : Reg) (s t : State) : Prop := ∀ r, r ≠ rd → t.reg r = s.reg r

/-- Every integer register. -/
def sameRegs (s t : State) : Prop := ∀ r, t.reg r = s.reg r

/-- Everything except the integer registers and the pc. -/
def sameBeyondRegs (s t : State) : Prop :=
  sameCsrs s t ∧ sameWait s t ∧ sameCache s t ∧ samePlatform s t ∧ sameMemory s t

/-- What an instruction that writes `v` to `rd` and goes on at `target` leaves: `rd` holds `v` (x0 stays zero), the pc is `target`,
all else is as it was. -/
def wentTo (rd : Reg) (v target : Word) (s t : State) : Prop :=
  t.reg rd = (if rd = 0#5 then 0#64 else v) ∧ sameRegsBut rd s t ∧ t.pc = target ∧ sameBeyondRegs s t

/-- The same, going on to the next instruction in sequence. -/
def wroteReg (rd : Reg) (v : Word) (s t : State) : Prop := wentTo rd v (s.following) s t

/-- What an instruction that writes no register leaves when it goes on at `target`. -/
def movedTo (target : Word) (s t : State) : Prop := t.pc = target ∧ sameRegs s t ∧ sameBeyondRegs s t

/-- What an exception `e` with trap value `tval` leaves, raised in `s` by the instruction at its pc: the trap entry of R321, with no
integer register and no byte of memory changed. -/
def trapped (e : Exc) (tval : Word) (s t : State) : Prop :=
  t = takeTrap (.exc e) tval s.pc s ∧ sameRegs s t ∧ sameMemory s t ∧ sameUntrapped s t ∧ sameWait s t ∧ sameCache s t ∧
  samePlatform s t

/-- What an access leaves that raises `e` with trap value `tval` after a translation that ended in `u`: the trap entry taken from `u`, which
differs from `s` in no register and no CSR. -/
def trappedAfter (e : Exc) (tval : Word) (s u t : State) : Prop :=
  trapped e tval u t ∧ sameRegs s u ∧ sameCsrs s u ∧ sameWait s u ∧ sameLines s u ∧ u.mtime = s.mtime ∧ u.pc = s.pc

/-! ## Invariants -/

/-- Parameters in the ranges of 00_scope.md R5, with a reset vector the machine can hold and Bare among the satp modes. -/
def Params.wf (c : Params) : Prop :=
  c.pmpCount ≤ 16 ∧ fits c.xlen c.resetVector ∧ alignedTo c c.resetVector ∧ SatpMode.bare ∈ c.satpModes

/-- Memory is in its canonical form, and so is the record of stored-to locations. -/
def memInv (s : State) : Prop := Memory.wf s.mem = true ∧ risingAddrs s.stored = true

/-- The mode is an implemented one (R24), MPP holds an implemented mode's encoding (R31), and the fields of mstatus that the
configuration hardwires read as they are hardwired (R33, R37, R38). -/
def modeInv (s : State) : Prop :=
  s.cfg.modes.has s.priv = true ∧ s.cfg.modes.has (mppOf s.mstatus) = true ∧
  ¬(bit s.mstatus 12 = true ∧ bit s.mstatus 11 = false) ∧
  (∀ i, i < 64 → bit (mstatusMask s.cfg.modes) i = false → bit s.mstatus i = (decide (s.cfg.modes = .m) && (decide (i = 11) || decide (i = 12))))

/-- pc, mepc and sepc are multiples of IALIGN/8 (R23, R42, R43). -/
def alignInv (s : State) : Prop := alignedTo s.cfg s.pc ∧ alignedTo s.cfg s.mepc ∧ alignedTo s.cfg s.sepc

/-- Every XLEN-bit register holds an XLEN-bit value (R2), and x0 is zero (R20). -/
def widthInv (s : State) : Prop :=
  (∀ r, fits s.cfg.xlen (s.reg r)) ∧ fits s.cfg.xlen s.pc ∧ fits s.cfg.xlen s.mstatus ∧ fits s.cfg.xlen s.medeleg ∧
  fits s.cfg.xlen s.mideleg ∧ fits s.cfg.xlen s.mie ∧ fits s.cfg.xlen s.mtvec ∧ fits s.cfg.xlen s.mscratch ∧
  fits s.cfg.xlen s.mepc ∧ fits s.cfg.xlen s.mcause ∧ fits s.cfg.xlen s.mtval ∧ fits s.cfg.xlen s.mipSoft ∧
  fits s.cfg.xlen s.stvec ∧ fits s.cfg.xlen s.sscratch ∧ fits s.cfg.xlen s.sepc ∧ fits s.cfg.xlen s.scause ∧
  fits s.cfg.xlen s.stval ∧ fits s.cfg.xlen s.satp ∧ (∀ i : Fin 16, fits s.cfg.xlen s.pmpaddr[i]) ∧ s.regs[0] = 0#64

/-- A value of mtvec or stvec holds a defined MODE: 0, or 1 where vectoring is implemented (R40, R41). -/
def tvecLegal (c : Params) (v : Word) : Prop := v &&& 3#64 = 0#64 ∨ (v &&& 3#64 = 1#64 ∧ c.vectored = true)

/-- A PMP configuration byte keeps its reserved bits zero and is not R = 0, W = 1 (R57). -/
def pmpByteLegal (b : Byte) : Prop := b &&& 0x60#8 = 0#8 ∧ ¬(pmpR b = false ∧ pmpW b = true)

/-- The CSRs hold only values their field rules allow (R40, R41, R50, R51, R54, R55, R57, R62). -/
def csrInv (s : State) : Prop :=
  s.medeleg &&& ~~~medelegMask = 0#64 ∧ s.mideleg &&& ~~~supervisorBits = 0#64 ∧
  s.mie &&& ~~~(mieMask s.cfg.modes) = 0#64 ∧ s.mipSoft &&& ~~~(mipMask s.cfg.modes) = 0#64 ∧
  tvecLegal s.cfg s.mtvec ∧ tvecLegal s.cfg s.stvec ∧
  (∃ m, satpModeOf s.cfg.xlen s.satp = some m ∧ m ∈ s.cfg.satpModes) ∧
  (∀ i : Fin 16, pmpByteLegal s.pmpcfg[i])

/-! ## The place of a hardware update of A and D -/

/-- The physical address of the page-table entry whose A or D bit the walk sets by hardware, if it sets one: the walk of
25_virtual_memory.md R150 followed to its leaf, where step 7 applies (R157). -/
def adSlot (sch : Scheme) (w : WalkChoice) (va : Word) (kind : AccessKind) (ep : Priv) : Nat → Nat → State → Option Nat
  | 0, _, _ => none
  | i + 1, a, s =>
    let pa := a + vpn sch va i * sch.pteBytes
    match readPte sch w va kind i pa s with
    | .done p s' =>
      if pteInvalid p ∨ pteReserved p ≠ 0 then none
      else if pteLeaf p then
        if pagePermits s' p kind ep ∧ ¬misalignedSuperpage sch i p ∧ pteNeedsAD p kind ∧ s'.setsAD w then some pa else none
      else adSlot sch w va kind ep i (ptePpn sch p * 4096) s'
    | .trap _ _ _ => none
    | .refused _ => none

/-- The byte at `a` lies outside the page-table entry whose A or D bit the walk from the root sets; every byte does where it sets none. -/
def besideSlot (sch : Scheme) (w : WalkChoice) (va : Word) (kind : AccessKind) (ep : Priv) (s : State) (a : Nat) : Prop :=
  ∀ slot, adSlot sch w va kind ep sch.levels (satpPpn s.cfg.xlen s.satp * 4096) s = some slot → a < slot ∨ slot + sch.pteBytes ≤ a

/-! ## Page tables in memory (25_virtual_memory.md R150 to R152) -/

/-- The value of `n` bytes of physical memory from address `a` up, least significant byte first (20_memory.md R104). -/
def littleEndian (s : State) : Nat → Nat → Nat
  | 0, _ => 0
  | n + 1, a => (s.byteAt a).toNat + 256 * littleEndian s n (a + 1)

/-- The address of the entry that a walk for `va` reads at level `i` of the table at `a` (R150 step 2). -/
def entryAt (sch : Scheme) (va : Word) (i a : Nat) : Nat := a + vpn sch va i * sch.pteBytes

/-- `p` is the entry a walk for `va` reads at level `i` of the table at `a`, from memory that an S-mode load may read (R151). -/
def holdsEntry (s : State) (sch : Scheme) (va : Word) (i a : Nat) (p : Word) : Prop :=
  physAllowed s (entryAt sch va i a) sch.pteBytes .load .S = true ∧ deviceIn s.cfg (entryAt sch va i a) sch.pteBytes = none ∧
  p.toNat = littleEndian s sch.pteBytes (entryAt sch va i a)

/-- From the table at `a` with `i` levels left, pointers in memory lead for `va` to the table at `b` with `j` levels left (R152). -/
inductive PointerPath (s : State) (sch : Scheme) (va : Word) : Nat → Nat → Nat → Nat → Prop
  | here (i a : Nat) : PointerPath s sch va i a i a
  | down (i a j b : Nat) (p : Word) : holdsEntry s sch va i a p → bit p 0 = true → bit p 1 = false → bit p 2 = false →
      bit p 3 = false → p.toNat < 2 ^ 54 → PointerPath s sch va i (ptePpn sch p * 4096) j b → PointerPath s sch va (i + 1) a j b

/-! ## PMP regions byte by byte (20_memory.md R121, R122) -/

/-- Byte `a` lies in the region of entry `i`: A = 1, from the previous address register to this one, times 4; A = 2, the four bytes at the
address register times 4; A = 3, the aligned 2^(k+3) bytes that an address register with k trailing ones names. -/
def pmpCovers (s : State) (i a : Nat) : Prop :=
  ((s.pmpCfg i).extractLsb' 3 2 = 1#2 ∧ (i ≠ 0 → 4 * (s.pmpAddr (i - 1)).toNat ≤ a) ∧ a < 4 * (s.pmpAddr i).toNat) ∨
  ((s.pmpCfg i).extractLsb' 3 2 = 2#2 ∧ a / 4 = (s.pmpAddr i).toNat) ∨
  ((s.pmpCfg i).extractLsb' 3 2 = 3#2 ∧ ∃ k q, (s.pmpAddr i).toNat = q * 2 ^ (k + 1) + (2 ^ k - 1) ∧ a / 2 ^ (k + 3) = q)

/-- The permission bit of a configuration byte for an access kind: R bit 0, W bit 1, X bit 2 (R120). -/
def pmpBitFor (b : Byte) : AccessKind → Bool
  | .load => b.getLsbD 0
  | .store => b.getLsbD 1
  | .fetch => b.getLsbD 2

/-! ## Interrupt order (60_exceptions.md R313) -/

/-- The rank of an interrupt's class: external before software before timer. -/
def irqRank : Irq → Nat
  | .mei => 0
  | .sei => 0
  | .msi => 1
  | .ssi => 1
  | .mti => 2
  | .sti => 2

/-- The interrupt is a machine-level one. -/
def machineLevel : Irq → Bool
  | .mei => true
  | .msi => true
  | .mti => true
  | .sei => false
  | .ssi => false
  | .sti => false

/-- The access at mode `ep` is not translated (25_virtual_memory.md R141). -/
def untranslated (s : State) (ep : Priv) : Prop := ep = .M ∨ schemeOf s.satpMode = none

end Sys2Proof.Machine
end

