-- ==== Sys2Proof/Certificates/Slice0/Obligations.lean ====
section
/-! DEFINITION. The statements for the provers. -/

section Claims
open Sys2Proof Sys2Proof.Machine

/-! ## Encoding (30_encoding.md) -/

/-- Decoding the encoding of a well-formed instruction gives it back, with every operand value its encoding admits (R181 to R189). -/
def Obligations.RoundTrip : Prop :=
  ∀ (x : Xlen) (i : Instr), i.wf x = true → decode x (encode i) = .ok i

/-- A word the decoder reads as an instruction is that instruction's encoding, bit for bit, and the instruction is well formed:
no bit of a word is ignored, and no word stands for two instructions (R181 to R190). -/
def Obligations.DecodeReadsEveryBit : Prop :=
  ∀ (x : Xlen) (w : BitVec 32) (i : Instr), decode x w = .ok i → i.wf x = true ∧ encode i = w

/-- Words written out from the spec's encodings and worked examples decode to the instructions they stand for, one or more of each
family; the RV64 shift is no instruction under RV32. -/
def Obligations.WrittenWordsDecode : Prop :=
  decode .rv32 0x10200073#32 = .ok .sret ∧ decode .rv32 0x30200073#32 = .ok .mret ∧ decode .rv64 0x10500073#32 = .ok .wfi ∧
  decode .rv32 0x12B50073#32 = .ok (.sfenceVma 10#5 11#5) ∧ decode .rv32 0x00000073#32 = .ok .ecall ∧
  decode .rv32 0x00100073#32 = .ok .ebreak ∧ decode .rv32 0x34051573#32 = .ok (.csrrw 10#5 0x340#12 10#5) ∧
  decode .rv32 0x3042B373#32 = .ok (.csrrc 6#5 0x304#12 5#5) ∧ decode .rv32 0x3402D2F3#32 = .ok (.csrrwi 5#5 0x340#12 5#5) ∧
  decode .rv32 0x800012B7#32 = .ok (.lui 5#5 0x80001#20) ∧ decode .rv32 0x010000EF#32 = .ok (.jal 1#5 16#21) ∧
  decode .rv32 0x005280E7#32 = .ok (.jalr 1#5 5#5 5#12) ∧ decode .rv32 0xFEC5EEE3#32 = .ok (.bltu 11#5 12#5 (-4#13)) ∧
  decode .rv32 0x0045A683#32 = .ok (.lw 13#5 11#5 4#12) ∧ decode .rv32 0x00E52623#32 = .ok (.sw 14#5 10#5 12#12) ∧
  decode .rv32 0x3E860713#32 = .ok (.addi 14#5 12#5 1000#12) ∧ decode .rv32 0x407302B3#32 = .ok (.sub 5#5 6#5 7#5) ∧
  decode .rv64 0x02029293#32 = .ok (.slli 5#5 5#5 32#6) ∧ decode .rv32 0x02029293#32 = .error .uncovered

/-- Within the SYSTEM opcode, with funct3 = 000 or 100, every word other than the six of R186 and R187 raises Illegal instruction
with the word as trap value, and changes nothing else (R190 (a)). -/
def Obligations.SystemGapsAreIllegal : Prop :=
  ∀ (s : State) (w : BitVec 32), w.extractLsb' 0 7 = 0b1110011#7 →
    (w.extractLsb' 12 3 = 0b000#3 ∨ w.extractLsb' 12 3 = 0b100#3) →
    w ≠ 0x10200073#32 → w ≠ 0x30200073#32 → w ≠ 0x10500073#32 → w ≠ 0x00000073#32 → w ≠ 0x00100073#32 →
    ¬(w.extractLsb' 25 7 = 0b0001001#7 ∧ w.extractLsb' 12 3 = 0b000#3 ∧ w.extractLsb' 7 5 = 0#5) →
    ∃ t, execWord w s = .next t ∧ trapped .illegalInstruction (w.setWidth 64) s t

/-- Outside the SYSTEM opcode, a word that encodes no instruction of the spec is refused, never Illegal instruction (R180, R190 (c)). -/
def Obligations.OutsideTableRefused : Prop :=
  ∀ (s : State) (w : BitVec 32), w.extractLsb' 0 7 ≠ 0b1110011#7 → (∀ i : Instr, i.wf s.cfg.xlen = true → encode i ≠ w) →
    execWord w s = .refused (if w.extractLsb' 0 2 = 0b11#2 then .uncoveredEncoding w else .notThirtyTwoBit w)

/-! ## One step (60_exceptions.md R362) -/

/-- With `u` the state in which the hart stands after the choices are drawn and the environment has moved: a hart that does not wait and
takes no interrupt runs the instruction its fetch reads. Where the fetch address is allowed, nothing has stored to the four bytes
there, and they decode to `i`, the step is `exec i` in the state `v` the fetch leaves, which differs from `u` in no register. And a
hart that takes the interrupt selected at the boundary enters its handler with the next instruction's pc saved and trap value 0. -/
def Obligations.StepRunsInstruction : Prop :=
  ∀ s u : State, u = environment (drawChoices s) → u.waiting = false →
    ((u.selectIrq = none ∨ u.now.takeInterrupt = false) →
      ∀ (pa : Nat) (v : State) (i : Instr), accessAddr u.now.fetchWalk u.pc 4 .fetch u.priv u = .done pa v →
        storedIn v pa 4 = none → deviceIn v.cfg pa 4 = none →
        decodeBytes v.cfg.xlen [v.byteAt pa, v.byteAt (pa + 1), v.byteAt (pa + 2), v.byteAt (pa + 3)] = .ok (i, []) →
        step s = exec i v ∧ sameRegs u v ∧ sameCsrs u v ∧ sameWait u v ∧ v.pc = u.pc) ∧
    (∀ j, u.selectIrq = some j → u.now.takeInterrupt = true → step s = .next (takeTrap (.irq j) 0#64 u.pc u))

/-! ## Base instructions (44_base_subset.md) -/

/-- `lui` and `auipc` complete in every state: the register gets the 20-bit immediate shifted left by 12, sign-extended from bit 31,
and for `auipc` added to the pc; x0 stays zero; nothing else changes but the pc (R250, R251). -/
def Obligations.UpperImmediateResult : Prop :=
  ∀ (s : State) (rd : Reg) (imm : BitVec 20),
    (∃ t, exec (.lui rd imm) s = .next t ∧ wroteReg rd (modXlen s.cfg.xlen (imm.toInt * 4096)) s t) ∧
    (∃ t, exec (.auipc rd imm) s = .next t ∧ wroteReg rd (modXlen s.cfg.xlen (unsigned s.pc + imm.toInt * 4096)) s t)

/-- `addi`, `add`, `sub` complete in every state with the sum or difference modulo 2^XLEN; there is no overflow exception (R262, R266,
R267, R271). -/
def Obligations.AddSubResult : Prop :=
  ∀ (s : State) (rd rs1 rs2 : Reg) (imm : BitVec 12),
    (∃ t, exec (.addi rd rs1 imm) s = .next t ∧ wroteReg rd (modXlen s.cfg.xlen (unsigned (s.reg rs1) + imm.toInt)) s t) ∧
    (∃ t, exec (.add rd rs1 rs2) s = .next t ∧ wroteReg rd (modXlen s.cfg.xlen (unsigned (s.reg rs1) + unsigned (s.reg rs2))) s t) ∧
    (∃ t, exec (.sub rd rs1 rs2) s = .next t ∧ wroteReg rd (modXlen s.cfg.xlen (unsigned (s.reg rs1) - unsigned (s.reg rs2))) s t)

/-- `ori`, `andi`, `or`, `and` complete in every state; each of the XLEN bits of the result is that operation on the operands' bits,
the immediate sign-extended first (R263, R264, R269, R270). -/
def Obligations.LogicResult : Prop :=
  ∀ (s : State) (rd rs1 rs2 : Reg) (imm : BitVec 12),
    (∃ t v, exec (.ori rd rs1 imm) s = .next t ∧ wroteReg rd v s t ∧ fits s.cfg.xlen v ∧
      ∀ i, i < s.cfg.xlen.bits → bit v i = (bit (s.reg rs1) i || immBit imm i)) ∧
    (∃ t v, exec (.andi rd rs1 imm) s = .next t ∧ wroteReg rd v s t ∧ fits s.cfg.xlen v ∧
      ∀ i, i < s.cfg.xlen.bits → bit v i = (bit (s.reg rs1) i && immBit imm i)) ∧
    (∃ t v, exec (.or rd rs1 rs2) s = .next t ∧ wroteReg rd v s t ∧ fits s.cfg.xlen v ∧
      ∀ i, i < s.cfg.xlen.bits → bit v i = (bit (s.reg rs1) i || bit (s.reg rs2) i)) ∧
    (∃ t v, exec (.and rd rs1 rs2) s = .next t ∧ wroteReg rd v s t ∧ fits s.cfg.xlen v ∧
      ∀ i, i < s.cfg.xlen.bits → bit v i = (bit (s.reg rs1) i && bit (s.reg rs2) i))

/-- `slli` and `sltu` complete in every state: the product with 2^shamt modulo 2^XLEN, and 1 or 0 by the unsigned comparison of the old
register values (R265, R268). -/
def Obligations.ShiftAndCompareResult : Prop :=
  ∀ (s : State) (rd rs1 rs2 : Reg) (shamt : BitVec 6),
    (∃ t, exec (.slli rd rs1 shamt) s = .next t ∧ wroteReg rd (modXlen s.cfg.xlen (unsigned (s.reg rs1) * 2 ^ shamt.toNat)) s t) ∧
    (∃ t, exec (.sltu rd rs1 rs2) s = .next t ∧
      wroteReg rd (if unsigned (s.reg rs1) < unsigned (s.reg rs2) then 1#64 else 0#64) s t)

/-- `jal` and `jalr` to an aligned target complete: the link register gets pc + 4, the pc the target (for `jalr` taken from the old
register value, its low bit dropped), and nothing else changes (R252, R253). -/
def Obligations.JumpResult : Prop :=
  ∀ (s : State) (rd rs1 : Reg) (off : BitVec 21) (imm : BitVec 12) (j r : Word),
    j = modXlen s.cfg.xlen (unsigned s.pc + off.toInt) →
    r = BitVec.ofNat 64 (2 * ((modXlen s.cfg.xlen (unsigned (s.reg rs1) + imm.toInt)).toNat / 2)) →
    (alignedTo s.cfg j → ∃ t, exec (.jal rd off) s = .next t ∧ wentTo rd s.following j s t) ∧
    (alignedTo s.cfg r → ∃ t, exec (.jalr rd rs1 imm) s = .next t ∧ wentTo rd s.following r s t)

/-- A jump to a target that is not a multiple of IALIGN/8 raises Instruction address misaligned on the jump, with the target as trap
value, and writes no register; with the C extension `jalr` never does, and `jal` never does from an even pc (R107, R252, R253). -/
def Obligations.JumpMisaligned : Prop :=
  ∀ (s : State) (rd rs1 : Reg) (off : BitVec 21) (imm : BitVec 12) (j r : Word),
    j = modXlen s.cfg.xlen (unsigned s.pc + off.toInt) →
    r = BitVec.ofNat 64 (2 * ((modXlen s.cfg.xlen (unsigned (s.reg rs1) + imm.toInt)).toNat / 2)) →
    (¬alignedTo s.cfg j → ∃ t, exec (.jal rd off) s = .next t ∧ trapped .instructionAddressMisaligned j s t) ∧
    (¬alignedTo s.cfg r → ∃ t, exec (.jalr rd rs1 imm) s = .next t ∧ trapped .instructionAddressMisaligned r s t) ∧
    (s.cfg.cExt = true → alignedTo s.cfg r ∧ (s.pc.toNat % 2 = 0 → evenOffset off = true → alignedTo s.cfg j))

/-- A branch whose condition holds goes to its target if that is aligned, a branch whose condition fails to the next instruction
whatever its target; no register and nothing else changes. Signed comparisons read the registers as two's complement (R254 to R259). -/
def Obligations.BranchResult : Prop :=
  ∀ (s : State) (a b : Reg) (off : BitVec 13) (i : Instr) (cond : Prop), (i, cond) ∈ branchTable s a b off →
    (cond → alignedTo s.cfg (modXlen s.cfg.xlen (unsigned s.pc + off.toInt)) →
      ∃ t, exec i s = .next t ∧ movedTo (modXlen s.cfg.xlen (unsigned s.pc + off.toInt)) s t) ∧
    (¬cond → ∃ t, exec i s = .next t ∧ movedTo s.following s t)

/-- A taken branch to a misaligned target raises Instruction address misaligned on the branch with the target as trap value; with the C
extension none does from an even pc (R107, R254). -/
def Obligations.BranchMisaligned : Prop :=
  ∀ (s : State) (a b : Reg) (off : BitVec 13) (i : Instr) (cond : Prop), (i, cond) ∈ branchTable s a b off →
    (cond → ¬alignedTo s.cfg (modXlen s.cfg.xlen (unsigned s.pc + off.toInt)) →
      ∃ t, exec i s = .next t ∧ trapped .instructionAddressMisaligned (modXlen s.cfg.xlen (unsigned s.pc + off.toInt)) s t) ∧
    (s.cfg.cExt = true → s.pc.toNat % 2 = 0 → evenOffset off = true →
      alignedTo s.cfg (modXlen s.cfg.xlen (unsigned s.pc + off.toInt)))

/-! ## Loads and stores (44_base_subset.md R260, R261; 20_memory.md) -/

/-- `lw` from an aligned, untranslated address that PMP and PMA allow and that is no device completes: the register gets the word at the
address, least significant byte lowest, sign-extended to XLEN; nothing else changes but the pc (R104, R112, R260). -/
def Obligations.LoadWordResult : Prop :=
  ∀ (s : State) (rd rs1 : Reg) (imm : BitVec 12) (va : Word),
    va = modXlen s.cfg.xlen (unsigned (s.reg rs1) + imm.toInt) → va.toNat % 4 = 0 → untranslated s s.effPriv →
    physAllowed s va.toNat 4 .load s.effPriv = true → deviceIn s.cfg va.toNat 4 = none →
    ∃ t, exec (.lw rd rs1 imm) s = .next t ∧ wroteReg rd (modXlen s.cfg.xlen (wordAt s va.toNat).toInt) s t

/-- `sw` to an aligned, untranslated address of memory that PMP and PMA allow completes: the four bytes at the address become the low
word of the register, they count as stored to, and every other byte and every register but the pc is as before (R104, R112, R261). -/
def Obligations.StoreWordResult : Prop :=
  ∀ (s : State) (rs1 rs2 : Reg) (imm : BitVec 12) (va : Word),
    va = modXlen s.cfg.xlen (unsigned (s.reg rs1) + imm.toInt) → va.toNat % 4 = 0 → untranslated s s.effPriv →
    physAllowed s va.toNat 4 .store s.effPriv = true → deviceIn s.cfg va.toNat 4 = none →
    (∀ k, k < 4 → platformAt s.cfg (va.toNat + k) = none) →
    ∃ t, exec (.sw rs2 rs1 imm) s = .next t ∧ wordAt t va.toNat = (s.reg rs2).setWidth 32 ∧
      (∀ a, a < va.toNat ∨ va.toNat + 4 ≤ a → t.byteAt a = s.byteAt a) ∧
      (∀ a, a ∈ t.stored ↔ a ∈ s.stored ∨ (va.toNat ≤ a ∧ a < va.toNat + 4)) ∧
      t.pc = s.following ∧ sameRegs s t ∧ sameCsrs s t ∧ sameWait s t ∧ sameCache s t ∧ samePlatform s t

/-- `sw` to a memory-mapped register: a store to a half of mtimecmp replaces that half, a store to msip its one significant bit, and
nothing else changes but the pc, neither memory nor the lines nor any register (10_state.md R64, R65, 60_exceptions.md R353). A store to
mtime is refused by name (log 21), and so is a load or store in a device region without behaviour (20_memory.md R110, log 10). -/
def Obligations.StoreToPlatform : Prop :=
  ∀ (s : State) (rd rs1 rs2 : Reg) (imm : BitVec 12) (va : Word),
    va = modXlen s.cfg.xlen (unsigned (s.reg rs1) + imm.toInt) → va.toNat % 4 = 0 → untranslated s s.effPriv →
    (physAllowed s va.toNat 4 .store s.effPriv = true →
      (deviceIn s.cfg va.toNat 4 = none →
        ((∀ k, k < 4 → platformAt s.cfg (va.toNat + k) = some (.mtimecmp, k)) →
          ∃ t, exec (.sw rs2 rs1 imm) s = .next t ∧ t.mtimecmp = s.mtimecmp.extractLsb' 32 32 ++ (s.reg rs2).setWidth 32 ∧
            t.msip = s.msip ∧ t.mtime = s.mtime ∧ sameLines s t ∧ t.mem = s.mem ∧ t.stored = s.stored ∧ t.pc = s.following ∧
            sameRegs s t ∧ sameCsrs s t ∧ sameWait s t ∧ sameCache s t) ∧
        ((∀ k, k < 4 → platformAt s.cfg (va.toNat + k) = some (.mtimecmp, 4 + k)) →
          ∃ t, exec (.sw rs2 rs1 imm) s = .next t ∧ t.mtimecmp = (s.reg rs2).setWidth 32 ++ s.mtimecmp.extractLsb' 0 32 ∧
            t.msip = s.msip ∧ t.mtime = s.mtime ∧ sameLines s t ∧ t.mem = s.mem ∧ t.stored = s.stored ∧ t.pc = s.following ∧
            sameRegs s t ∧ sameCsrs s t ∧ sameWait s t ∧ sameCache s t) ∧
        ((∀ k, k < 4 → platformAt s.cfg (va.toNat + k) = some (.msip, k)) →
          ∃ t, exec (.sw rs2 rs1 imm) s = .next t ∧ t.msip = bit (s.reg rs2) 0 ∧
            t.mtimecmp = s.mtimecmp ∧ t.mtime = s.mtime ∧ sameLines s t ∧ t.mem = s.mem ∧ t.stored = s.stored ∧ t.pc = s.following ∧
            sameRegs s t ∧ sameCsrs s t ∧ sameWait s t ∧ sameCache s t) ∧
        (∀ k, platformAt s.cfg va.toNat = some (.mtime, k) → exec (.sw rs2 rs1 imm) s = .refused (.mtimeStore va.toNat))) ∧
      (∀ a, deviceIn s.cfg va.toNat 4 = some a → exec (.sw rs2 rs1 imm) s = .refused (.deviceRegion a))) ∧
    (physAllowed s va.toNat 4 .load s.effPriv = true →
      ∀ a, deviceIn s.cfg va.toNat 4 = some a → exec (.lw rd rs1 imm) s = .refused (.deviceRegion a))

/-- A load or store whose address is translated completes where the translation succeeds and PMP and PMA allow the physical address it
gives. The data lie at that physical address; besides the stored word, no byte changes outside the page-table entry whose A or D bit
the walk sets, and none at all where it sets none (R112, 25_virtual_memory.md R150, R157). It is refused where the translation is, and
where the physical address lies in a device region (log 10). Where it traps is `LoadStoreTraps`. -/
def Obligations.TranslatedAccess : Prop :=
  ∀ (s : State) (rd rs1 rs2 : Reg) (imm : BitVec 12) (va : Word) (sch : Scheme),
    va = modXlen s.cfg.xlen (unsigned (s.reg rs1) + imm.toInt) → va.toNat % 4 = 0 → s.effPriv ≠ .M → schemeOf s.satpMode = some sch →
    (∀ pa u, translate sch (s.dataWalk 0) va .load s.effPriv s = .done pa u → physAllowed u pa 4 .load s.effPriv = true →
      (deviceIn s.cfg pa 4 = none →
        ∃ t, exec (.lw rd rs1 imm) s = .next t ∧ t.reg rd = (if rd = 0#5 then 0#64 else modXlen s.cfg.xlen (wordAt u pa).toInt) ∧
          sameRegsBut rd s t ∧ t.pc = s.following ∧ sameCsrs s t ∧ sameWait s t ∧
          (∀ a, besideSlot sch (s.dataWalk 0) va .load s.effPriv s a → t.byteAt a = s.byteAt a)) ∧
      (∀ d, deviceIn s.cfg pa 4 = some d → exec (.lw rd rs1 imm) s = .refused (.deviceRegion d))) ∧
    (∀ pa u, translate sch (s.dataWalk 0) va .store s.effPriv s = .done pa u → physAllowed u pa 4 .store s.effPriv = true →
      (deviceIn s.cfg pa 4 = none → (∀ k, k < 4 → platformAt s.cfg (pa + k) = none) →
        ∃ t, exec (.sw rs2 rs1 imm) s = .next t ∧ wordAt t pa = (s.reg rs2).setWidth 32 ∧ sameRegs s t ∧ t.pc = s.following ∧
          sameCsrs s t ∧ sameWait s t ∧
          (∀ a, a < pa ∨ pa + 4 ≤ a → besideSlot sch (s.dataWalk 0) va .store s.effPriv s a → t.byteAt a = s.byteAt a)) ∧
      (∀ d, deviceIn s.cfg pa 4 = some d → exec (.sw rs2 rs1 imm) s = .refused (.deviceRegion d))) ∧
    (∀ r, translate sch (s.dataWalk 0) va .load s.effPriv s = .refused r → exec (.lw rd rs1 imm) s = .refused r) ∧
    (∀ r, translate sch (s.dataWalk 0) va .store s.effPriv s = .refused r → exec (.sw rs2 rs1 imm) s = .refused r)

/-- Where `lw` and `sw` trap, each with the effective address as trap value and no register changed: a misaligned one that hardware does
not perform raises the misaligned exception; an aligned untranslated one that PMP or PMA denies raises the access fault, and no memory
changes; an aligned translated one raises the page fault or access fault its translation ends in, and no memory changes, or the access
fault where PMP or PMA denies the translated address, and no byte changes outside the page-table entry whose A or D bit the walk set
(R105, R112, R113, R301, R303, 25_virtual_memory.md R159). -/
def Obligations.LoadStoreTraps : Prop :=
  ∀ (s : State) (rd rs1 rs2 : Reg) (imm : BitVec 12) (va : Word), va = modXlen s.cfg.xlen (unsigned (s.reg rs1) + imm.toInt) →
    (va.toNat % 4 ≠ 0 → s.cfg.misalignedHw = false →
      (∃ t, exec (.lw rd rs1 imm) s = .next t ∧ trapped .loadAddressMisaligned va s t) ∧
      (∃ t, exec (.sw rs2 rs1 imm) s = .next t ∧ trapped .storeAddressMisaligned va s t)) ∧
    (va.toNat % 4 = 0 → untranslated s s.effPriv →
      (physAllowed s va.toNat 4 .load s.effPriv = false → ∃ t, exec (.lw rd rs1 imm) s = .next t ∧ trapped .loadAccessFault va s t) ∧
      (physAllowed s va.toNat 4 .store s.effPriv = false → ∃ t, exec (.sw rs2 rs1 imm) s = .next t ∧ trapped .storeAccessFault va s t)) ∧
    (va.toNat % 4 = 0 → s.effPriv ≠ .M → ∀ sch, schemeOf s.satpMode = some sch →
      (∀ e v u, translate sch (s.dataWalk 0) va .load s.effPriv s = .trap e v u →
        (e = .loadPageFault ∨ e = .loadAccessFault) ∧ sameMemory s u ∧
        ∃ t, exec (.lw rd rs1 imm) s = .next t ∧ trappedAfter e va s u t) ∧
      (∀ e v u, translate sch (s.dataWalk 0) va .store s.effPriv s = .trap e v u →
        (e = .storePageFault ∨ e = .storeAccessFault) ∧ sameMemory s u ∧
        ∃ t, exec (.sw rs2 rs1 imm) s = .next t ∧ trappedAfter e va s u t) ∧
      (∀ pa u, translate sch (s.dataWalk 0) va .load s.effPriv s = .done pa u → physAllowed u pa 4 .load s.effPriv = false →
        ∃ t, exec (.lw rd rs1 imm) s = .next t ∧ trappedAfter .loadAccessFault va s u t ∧
          ∀ a, besideSlot sch (s.dataWalk 0) va .load s.effPriv s a → t.byteAt a = s.byteAt a) ∧
      (∀ pa u, translate sch (s.dataWalk 0) va .store s.effPriv s = .done pa u → physAllowed u pa 4 .store s.effPriv = false →
        ∃ t, exec (.sw rs2 rs1 imm) s = .next t ∧ trappedAfter .storeAccessFault va s u t ∧
          ∀ a, besideSlot sch (s.dataWalk 0) va .store s.effPriv s a → t.byteAt a = s.byteAt a))

/-- A misaligned, untranslated `lw` or `sw` that hardware performs loads or stores the four bytes at va to va + 3 (modulo 2^XLEN), in
whatever order it takes them, where each byte is allowed (R106). -/
def Obligations.MisalignedByHardware : Prop :=
  ∀ (s : State) (rd rs1 rs2 : Reg) (imm : BitVec 12) (va : Word) (p : Nat → Nat),
    va = modXlen s.cfg.xlen (unsigned (s.reg rs1) + imm.toInt) → va.toNat % 4 ≠ 0 → s.cfg.misalignedHw = true → untranslated s s.effPriv →
    (∀ k, p k = (modXlen s.cfg.xlen (unsigned va + k)).toNat) →
    (∀ k, k < 4 → deviceIn s.cfg (p k) 1 = none) →
    ((∀ k, k < 4 → physAllowed s (p k) 1 .load s.effPriv = true) →
      ∃ t, exec (.lw rd rs1 imm) s = .next t ∧
        wroteReg rd (modXlen s.cfg.xlen (s.byteAt (p 3) ++ (s.byteAt (p 2) ++ (s.byteAt (p 1) ++ s.byteAt (p 0)))).toInt) s t) ∧
    ((∀ k, k < 4 → physAllowed s (p k) 1 .store s.effPriv = true) → (∀ k, k < 4 → platformAt s.cfg (p k) = none) →
      ∃ t, exec (.sw rs2 rs1 imm) s = .next t ∧
        (t.byteAt (p 3) ++ (t.byteAt (p 2) ++ (t.byteAt (p 1) ++ t.byteAt (p 0)))) = (s.reg rs2).setWidth 32 ∧
        (∀ a, (∀ k, k < 4 → a ≠ p k) → t.byteAt a = s.byteAt a) ∧ t.pc = s.following ∧ sameRegs s t ∧ sameCsrs s t ∧ sameWait s t)

/-- A load or store that ends in a next state either completes, with no CSR changed and the pc at the next instruction, or raises one of
its three exceptions with the address of a byte of the access as trap value and no register changed (R301, R303, R317). -/
def Obligations.LoadStoreExceptions : Prop :=
  ∀ (s t : State) (rd rs1 rs2 : Reg) (imm : BitVec 12) (va : Word), va = modXlen s.cfg.xlen (unsigned (s.reg rs1) + imm.toInt) →
    (exec (.lw rd rs1 imm) s = .next t →
      (t.pc = s.following ∧ sameCsrs s t ∧ sameRegsBut rd s t) ∨
      (∃ e u k, (e = .loadAddressMisaligned ∨ e = .loadPageFault ∨ e = .loadAccessFault) ∧ k < 4 ∧ sameRegs s u ∧ sameCsrs s u ∧ u.pc = s.pc ∧
        trapped e (modXlen s.cfg.xlen (unsigned va + (k : Nat))) u t)) ∧
    (exec (.sw rs2 rs1 imm) s = .next t →
      (t.pc = s.following ∧ sameCsrs s t ∧ sameRegs s t) ∨
      (∃ e u k, (e = .storeAddressMisaligned ∨ e = .storePageFault ∨ e = .storeAccessFault) ∧ k < 4 ∧ sameRegs s u ∧ sameCsrs s u ∧ u.pc = s.pc ∧
        trapped e (modXlen s.cfg.xlen (unsigned va + (k : Nat))) u t))

/-- Where a fetch traps or is refused: one at an untranslated pc that PMP or PMA denies raises Instruction access fault; one at a
translated pc raises the page fault or access fault its translation ends in, or Instruction access fault where PMP or PMA denies the
translated address; the trap value is the pc, and no register changes. A fetch from a location stored to since reset is refused, and so
is one from a device region (log 10) or whose translation is refused (R112, R132, R301). -/
def Obligations.FetchFaults : Prop :=
  ∀ (s : State),
    (untranslated s s.priv →
      (physAllowed s s.pc.toNat 4 .fetch s.priv = false → ∃ t, runInstruction s = .next t ∧ trapped .instructionAccessFault s.pc s t) ∧
      (physAllowed s s.pc.toNat 4 .fetch s.priv = true →
        (∀ a, storedIn s s.pc.toNat 4 = some a → runInstruction s = .refused (.fetchOfStoredLocation a)) ∧
        (storedIn s s.pc.toNat 4 = none → ∀ d, deviceIn s.cfg s.pc.toNat 4 = some d → runInstruction s = .refused (.deviceRegion d)))) ∧
    (s.priv ≠ .M → ∀ sch, schemeOf s.satpMode = some sch →
      (∀ e v u, translate sch s.now.fetchWalk s.pc .fetch s.priv s = .trap e v u →
        (e = .instructionPageFault ∨ e = .instructionAccessFault) ∧ sameMemory s u ∧
        ∃ t, runInstruction s = .next t ∧ trappedAfter e s.pc s u t) ∧
      (∀ r, translate sch s.now.fetchWalk s.pc .fetch s.priv s = .refused r → runInstruction s = .refused r) ∧
      (∀ pa u, translate sch s.now.fetchWalk s.pc .fetch s.priv s = .done pa u →
        (physAllowed u pa 4 .fetch s.priv = false → ∃ t, runInstruction s = .next t ∧ trappedAfter .instructionAccessFault s.pc s u t ∧
          ∀ a, besideSlot sch s.now.fetchWalk s.pc .fetch s.priv s a → t.byteAt a = s.byteAt a) ∧
        (physAllowed u pa 4 .fetch s.priv = true →
          (∀ a, storedIn u pa 4 = some a → runInstruction s = .refused (.fetchOfStoredLocation a)) ∧
          (storedIn u pa 4 = none → ∀ d, deviceIn s.cfg pa 4 = some d → runInstruction s = .refused (.deviceRegion d)))))

/-! ## CSR instructions (43_system_csr.md R232 to R241, 10_state.md) -/

/-- A CSR instruction that meets every condition of R232 completes: the register gets the old value, and where the form writes (R241) the
CSR takes the value the form computes from it, under the field rules of the write (`u` is the state that write leaves); only CSRs
differ between `s` and `u`. A write of a PMP configuration register completes where no byte written to an unlocked entry has R = 0 and
W = 1 (R232 to R241). -/
def Obligations.CsrResult : Prop :=
  ∀ (s : State) (rd : Reg) (csr : BitVec 12) (f : BitVec 5) (c : Csr) (i : Instr) (writes : Bool) (new : Word → Word),
    (i, writes, new) ∈ csrForms s rd csr f → widthInv s → csrAt csr = some c → csrExists s.cfg c = true →
    (csr.extractLsb' 8 2).toNat ≤ s.priv.code → ¬(c = .satp ∧ s.priv = .S ∧ statusBit s.mstatus .TVM = true) →
    (writes = false → ∃ t, exec i s = .next t ∧ wroteReg rd (csrRead s c) s t) ∧
    (writes = true →
      (∀ k, c = .pmpcfg k → ∀ n e, (pmpcfgEntries s.cfg.xlen k.val)[n]? = some e → e < s.cfg.pmpCount → pmpL (s.pmpCfg e) = false →
        ¬(bit (new (csrRead s c)) (8 * n) = false ∧ bit (new (csrRead s c)) (8 * n + 1) = true)) →
      ∃ u t, csrWrite s c (new (csrReadForModify s c)) = .ok u ∧ exec i s = .next t ∧ wroteReg rd (csrRead s c) u t ∧
        u.pc = s.pc ∧ u.cfg = s.cfg ∧ u.priv = s.priv ∧ sameRegs s u ∧ sameWait s u ∧ sameCache s u ∧ samePlatform s u ∧ sameMemory s u)

/-- Where a condition of R232 fails, each CSR form raises Illegal instruction with its own word as trap value, and neither `rd` nor any CSR
is written but by the trap entry; so in U mode every one of them does, and in S mode every one on a machine CSR. -/
def Obligations.CsrIllegal : Prop :=
  ∀ (s : State) (rd : Reg) (csr : BitVec 12) (f : BitVec 5) (c : Csr) (i : Instr) (writes : Bool) (new : Word → Word),
    (i, writes, new) ∈ csrForms s rd csr f → csrAt csr = some c →
    (csrExists s.cfg c = false ∨ s.priv.code < (csr.extractLsb' 8 2).toNat ∨
      (c = .satp ∧ s.priv = .S ∧ statusBit s.mstatus .TVM = true) ∨ s.priv = .U ∨ (s.priv = .S ∧ 0x300 ≤ csr.toNat)) →
    ∃ t, exec i s = .next t ∧ trapped .illegalInstruction ((encode i).setWidth 64) s t

/-- A CSR instruction on an address the spec does not list is refused by name, in every mode and whatever else holds (R232). -/
def Obligations.CsrUnlistedRefused : Prop :=
  ∀ (s : State) (rd : Reg) (csr : BitVec 12) (f : BitVec 5) (i : Instr) (writes : Bool) (new : Word → Word),
    (i, writes, new) ∈ csrForms s rd csr f →
    (csr ∉ [0x100#12, 0x104#12, 0x105#12, 0x140#12, 0x141#12, 0x142#12, 0x143#12, 0x144#12, 0x180#12, 0x300#12, 0x302#12, 0x303#12,
      0x304#12, 0x305#12, 0x340#12, 0x341#12, 0x342#12, 0x343#12, 0x344#12]) →
    ¬(0x3A0 ≤ csr.toNat ∧ csr.toNat ≤ 0x3A3) → ¬(0x3B0 ≤ csr.toNat ∧ csr.toNat ≤ 0x3BF) →
    exec i s = .refused (.unlistedCsr csr)

/-- A write of one CSR changes the storage of that CSR only: sstatus is storage of mstatus, sie of mie, sip of mip (R28, R39, R52, R53). -/
def Obligations.CsrWriteFrame : Prop :=
  ∀ (s u : State) (c : Csr) (v : Word), csrWrite s c v = .ok u →
    (c ≠ .mstatus → c ≠ .sstatus → u.mstatus = s.mstatus) ∧ (c ≠ .mie → c ≠ .sie → u.mie = s.mie) ∧
    (c ≠ .mip → c ≠ .sip → u.mipSoft = s.mipSoft) ∧ (c ≠ .medeleg → u.medeleg = s.medeleg) ∧ (c ≠ .mideleg → u.mideleg = s.mideleg) ∧
    (c ≠ .mtvec → u.mtvec = s.mtvec) ∧ (c ≠ .mscratch → u.mscratch = s.mscratch) ∧ (c ≠ .mepc → u.mepc = s.mepc) ∧
    (c ≠ .mcause → u.mcause = s.mcause) ∧ (c ≠ .mtval → u.mtval = s.mtval) ∧ (c ≠ .stvec → u.stvec = s.stvec) ∧
    (c ≠ .sscratch → u.sscratch = s.sscratch) ∧ (c ≠ .sepc → u.sepc = s.sepc) ∧ (c ≠ .scause → u.scause = s.scause) ∧
    (c ≠ .stval → u.stval = s.stval) ∧ (c ≠ .satp → u.satp = s.satp) ∧
    (∀ e : Fin 16, (∀ k, c = .pmpcfg k → e.val ∉ pmpcfgEntries s.cfg.xlen k.val) → u.pmpcfg[e] = s.pmpcfg[e]) ∧
    (∀ e : Fin 16, c ≠ .pmpaddr e → u.pmpaddr[e] = s.pmpaddr[e])

/-- A write of mstatus: each one-bit field that the configured modes have takes the written bit, MPP takes the written mode if it is an
implemented one and holds some implemented mode after any other encoding, and every other bit stays as it was (R30 to R38, R239). -/
def Obligations.MstatusWrite : Prop :=
  ∀ (s u : State) (v : Word), csrWrite s .mstatus v = .ok u →
    (s.cfg.modes = .msu →
      (∀ f, statusBit u.mstatus f = statusBit v f) ∧
      (∀ i, i < 64 → i ≠ 11 → i ≠ 12 → (∀ f : StatusField, f.pos ≠ i) → bit u.mstatus i = bit s.mstatus i)) ∧
    (s.cfg.modes = .mu →
      statusBit u.mstatus .MIE = statusBit v .MIE ∧ statusBit u.mstatus .MPIE = statusBit v .MPIE ∧
      statusBit u.mstatus .MPRV = statusBit v .MPRV ∧
      (∀ i, i < 64 → i ∉ [3, 7, 11, 12, 17] → bit u.mstatus i = bit s.mstatus i)) ∧
    (s.cfg.modes = .m →
      statusBit u.mstatus .MIE = statusBit v .MIE ∧ statusBit u.mstatus .MPIE = statusBit v .MPIE ∧
      (∀ i, i < 64 → i ∉ [3, 7] → bit u.mstatus i = bit s.mstatus i)) ∧
    (s.cfg.modes ≠ .m →
      s.cfg.modes.has (mppOf u.mstatus) = true ∧ ¬(bit u.mstatus 12 = true ∧ bit u.mstatus 11 = false) ∧
      (¬(bit v 12 = true ∧ bit v 11 = false) → s.cfg.modes.has (mppOf v) = true → mppOf u.mstatus = mppOf v))

/-- sstatus is a window on mstatus: a read shows the bits of the mask 0x000DE133 and bit XLEN-1, a write changes SIE, SPIE, SPP, SUM and
MXR to the written bits and no other bit of mstatus (R39). -/
def Obligations.SstatusWindow : Prop :=
  ∀ (s u : State) (v : Word), csrWrite s .sstatus v = .ok u →
    (∀ i, i < 64 → bit (csrRead s .sstatus) i =
      (bit s.mstatus i && decide (i ∈ [0, 1, 4, 5, 8, 13, 14, 15, 16, 18, 19] ∨ i = s.cfg.xlen.bits - 1))) ∧
    (∀ i, i < 64 → bit u.mstatus i = if i ∈ [1, 5, 8, 18, 19] then bit v i else bit s.mstatus i)

/-- The interrupt registers bit by bit, in every configuration. mip shows the timer comparison, the lines and the software bits; sip and
sie show the delegated supervisor bits of mip and mie. Writes reach only the writable bits: of mie the machine-level bits, of sie the
delegated ones, of mip the software bits, of sip the delegated ones that SIP_WRITABLE names; mideleg and medeleg hold only delegable bits.
The supervisor bits of mip and mie exist only under MODES = MSU: elsewhere mip shows none, mie takes only bits 3, 7 and 11 (the mask
0x888) and no bit of mip is writable (R50 to R55, R239). -/
def Obligations.InterruptViews : Prop :=
  ∀ (s : State) (v : Word),
    (∀ i, i < 64 → bit (csrRead s .mip) i =
      ((decide (i = 3) && s.msip) || (decide (i = 7) && decide (s.mtimecmp.toNat ≤ s.mtime.toNat)) || (decide (i = 11) && s.meipLine) ||
       (decide (s.cfg.modes = .msu) &&
         ((decide (i = 1) && bit s.mipSoft 1) || (decide (i = 5) && bit s.mipSoft 5) ||
          (decide (i = 9) && (bit s.mipSoft 9 || s.seipLine)))))) ∧
    (∀ i, i < 64 → bit (csrRead s .sip) i = (bit (csrRead s .mip) i && bit s.mideleg i && decide (i ∈ [1, 5, 9]))) ∧
    (∀ i, i < 64 → bit (csrRead s .sie) i = (bit s.mie i && bit s.mideleg i && decide (i ∈ [1, 5, 9]))) ∧
    (∃ u, csrWrite s .mie v = .ok u ∧
      ∀ i, i < 64 → bit u.mie i = if i ∈ [3, 7, 11] ∨ (i ∈ [1, 5, 9] ∧ s.cfg.modes = .msu) then bit v i else bit s.mie i) ∧
    (∃ u, csrWrite s .sie v = .ok u ∧
      ∀ i, i < 64 → bit u.mie i = if i ∈ [1, 5, 9] ∧ bit s.mideleg i = true then bit v i else bit s.mie i) ∧
    (∃ u, csrWrite s .mip v = .ok u ∧
      ∀ i, i < 64 → bit u.mipSoft i = if i ∈ [1, 5, 9] ∧ s.cfg.modes = .msu then bit v i else bit s.mipSoft i) ∧
    (∃ u, csrWrite s .sip v = .ok u ∧ ∀ i, i < 64 → bit u.mipSoft i =
      if i ∈ [1, 5, 9] ∧ bit s.mideleg i = true ∧ bit s.cfg.sipWritable i = true then bit v i else bit s.mipSoft i) ∧
    (∃ u, csrWrite s .mideleg v = .ok u ∧ ∀ i, i < 64 → bit u.mideleg i = (bit v i && decide (i ∈ [1, 5, 9]))) ∧
    (∃ u, csrWrite s .medeleg v = .ok u ∧
      ∀ i, i < 64 → bit u.medeleg i = (bit v i && decide (i ∈ [0, 1, 2, 3, 4, 5, 6, 7, 8, 9, 12, 13, 15])))

/-- Under MODES = MSU, `csrrs` on mip reads the external line into `rd` but does not latch it: the software SEIP bit becomes 1 only where it was 1 or the
instruction sets it; and where the line is high and the software bit low, the value read has bit 9 set (R240). -/
def Obligations.SeipLineNotLatched : Prop :=
  ∀ (s : State) (rd rs1 : Reg), s.priv = .M → s.cfg.modes = .msu → rs1 ≠ 0#5 → rd ≠ 0#5 →
    ∃ t, exec (.csrrs rd 0x344#12 rs1) s = .next t ∧ bit t.mipSoft 9 = (bit s.mipSoft 9 || bit (s.reg rs1) 9) ∧
      bit (t.reg rd) 9 = (bit s.mipSoft 9 || s.seipLine) ∧ t.seipLine = s.seipLine

/-- The trap registers after a write: tvec takes BASE always and MODE where the value is a supported one; epc drops bit 0, and bit 1
without the C extension; the scratch and value registers take every bit; satp takes a supported mode whole and nothing else; a listed
cause is held (R40 to R49, R60 to R62, R239). -/
def Obligations.TrapRegisterWrites : Prop :=
  ∀ (s : State) (v : Word),
    (∃ u w, csrWrite s .mtvec v = .ok u ∧ csrWrite s .stvec v = .ok w ∧
      u.mtvec.toNat / 4 = v.toNat / 4 ∧ w.stvec.toNat / 4 = v.toNat / 4 ∧
      u.mtvec.toNat % 4 = (if v.toNat % 4 = 0 ∨ (v.toNat % 4 = 1 ∧ s.cfg.vectored = true) then v.toNat % 4 else s.mtvec.toNat % 4) ∧
      w.stvec.toNat % 4 = (if v.toNat % 4 = 0 ∨ (v.toNat % 4 = 1 ∧ s.cfg.vectored = true) then v.toNat % 4 else s.stvec.toNat % 4)) ∧
    (∃ u w, csrWrite s .mepc v = .ok u ∧ csrWrite s .sepc v = .ok w ∧ u.mepc.toNat = v.toNat / s.cfg.ialign * s.cfg.ialign ∧
      w.sepc = u.mepc) ∧
    (∃ u w x y, csrWrite s .mscratch v = .ok u ∧ csrWrite s .sscratch v = .ok w ∧ csrWrite s .mtval v = .ok x ∧ csrWrite s .stval v = .ok y ∧
      u.mscratch = v ∧ w.sscratch = v ∧ x.mtval = v ∧ y.stval = v) ∧
    (∃ u w, csrWrite s .mcause v = .ok u ∧ csrWrite s .scause v = .ok w ∧
      ((∃ e : Exc, v.toNat = e.code) ∨ (∃ q : Irq, v.toNat = 2 ^ (s.cfg.xlen.bits - 1) + q.code) → u.mcause = v ∧ w.scause = v)) ∧
    (∃ u, csrWrite s .satp v = .ok u ∧
      (∀ m, satpModeOf s.cfg.xlen v = some m → m ∈ s.cfg.satpModes →
        satpModeOf s.cfg.xlen u.satp = some m ∧
        (satpAsid s.cfg.xlen u.satp).toNat = (satpAsid s.cfg.xlen v).toNat % 2 ^ s.cfg.asidLen ∧
        satpPpn s.cfg.xlen u.satp = satpPpn s.cfg.xlen v % 2 ^ (s.cfg.paBits - 12)) ∧
      ((∀ m, satpModeOf s.cfg.xlen v = some m → m ∉ s.cfg.satpModes) → u.satp = s.satp))

/-- The PMP registers: a pmpcfg register reads as its entries' bytes, lowest entry lowest; a write that is taken leaves each unlocked,
implemented entry's byte as written but for its two reserved bits, and each locked one as it was. A write of pmpaddr stores the bits
below PA_BITS - 2 unless the entry is locked, or the next one is locked and top-of-range (R56 to R59, R239). A write that would give an
unlocked, implemented entry R = 0 and W = 1 is refused (log 14). -/
def Obligations.PmpRegisters : Prop :=
  ∀ (s : State) (k : Fin 4) (n e : Nat) (i : Fin 16) (v : Word), s.cfg.pmpCount ≤ 16 →
    (pmpcfgEntries s.cfg.xlen k.val)[n]? = some e → csrExists s.cfg (.pmpcfg k) = true →
    (csrRead s (.pmpcfg k)).extractLsb' (8 * n) 8 = s.pmpCfg e ∧
    (∀ u, csrWrite s (.pmpcfg k) v = .ok u →
      u.pmpCfg e = if e < s.cfg.pmpCount ∧ (s.pmpCfg e).getLsbD 7 = false then v.extractLsb' (8 * n) 8 &&& 0x9F#8 else s.pmpCfg e) ∧
    (e < s.cfg.pmpCount → (s.pmpCfg e).getLsbD 7 = false → bit v (8 * n) = false → bit v (8 * n + 1) = true →
      ∃ q, csrWrite s (.pmpcfg k) v = .error (.reservedPmpPermission q)) ∧
    (∃ u, csrWrite s (.pmpaddr i) v = .ok u ∧
      u.pmpAddr i.val =
        if i.val < s.cfg.pmpCount ∧ (s.pmpCfg i.val).getLsbD 7 = false ∧
          ¬((s.pmpCfg (i.val + 1)).getLsbD 7 = true ∧ (s.pmpCfg (i.val + 1)).extractLsb' 3 2 = 1#2)
        then BitVec.ofNat 64 (v.toNat % 2 ^ (s.cfg.paBits - 2)) else s.pmpAddr i.val)

/-! ## Traps (60_exceptions.md R300 to R346) -/

/-- Trap entry into M mode, for every cause, trap value and saved pc of a trap that is not delegated: mepc, mcause, mtval, MPIE, MIE, MPP,
the mode and the pc as R320 assigns them; no other bit of mstatus and nothing else changes. -/
def Obligations.TrapEntryM : Prop :=
  ∀ (s t : State) (c : Cause) (tval epc : Word), t = takeTrap c tval epc s →
    ¬(s.cfg.modes = .msu ∧ s.priv ≠ .M ∧ bit (if c.isIrq then s.mideleg else s.medeleg) c.code = true) →
    t.mepc = epc ∧ t.mcause.toNat = (if c.isIrq then 2 ^ (s.cfg.xlen.bits - 1) else 0) + c.code ∧ t.mtval = tval ∧
    statusBit t.mstatus .MPIE = statusBit s.mstatus .MIE ∧ statusBit t.mstatus .MIE = false ∧
    (s.cfg.modes ≠ .m → bit t.mstatus 11 = decide (s.priv ≠ .U) ∧ bit t.mstatus 12 = decide (s.priv = .M)) ∧
    (s.cfg.modes = .m → bit t.mstatus 11 = bit s.mstatus 11 ∧ bit t.mstatus 12 = bit s.mstatus 12) ∧
    (∀ i, i ∉ [3, 7, 11, 12] → bit t.mstatus i = bit s.mstatus i) ∧
    t.priv = .M ∧ t.pc = trapVector s.cfg.xlen s.mtvec c ∧
    sameSTrap s t ∧ sameUntrapped s t ∧ sameRegs s t ∧ sameMemory s t ∧ sameWait s t ∧ sameCache s t ∧ samePlatform s t

/-- Trap entry into S mode, for every cause, trap value and saved pc of a delegated trap: sepc, scause, stval, SPIE, SIE, SPP, the mode and
the pc as R325 assigns them; no other bit of mstatus, no M-mode trap register and nothing else changes. -/
def Obligations.TrapEntryS : Prop :=
  ∀ (s t : State) (c : Cause) (tval epc : Word), t = takeTrap c tval epc s →
    s.cfg.modes = .msu → s.priv ≠ .M → bit (if c.isIrq then s.mideleg else s.medeleg) c.code = true →
    t.sepc = epc ∧ t.scause.toNat = (if c.isIrq then 2 ^ (s.cfg.xlen.bits - 1) else 0) + c.code ∧ t.stval = tval ∧
    statusBit t.mstatus .SPIE = statusBit s.mstatus .SIE ∧ statusBit t.mstatus .SIE = false ∧
    statusBit t.mstatus .SPP = decide (s.priv = .S) ∧
    (∀ i, i ∉ [1, 5, 8] → bit t.mstatus i = bit s.mstatus i) ∧
    t.priv = .S ∧ t.pc = trapVector s.cfg.xlen s.stvec c ∧
    sameMTrap s t ∧ sameUntrapped s t ∧ sameRegs s t ∧ sameMemory s t ∧ sameWait s t ∧ sameCache s t ∧ samePlatform s t

/-- Which mode takes a trap: S mode exactly where S mode exists, the trap arises below M and its delegation bit is set; M mode otherwise.
The trap enters that mode and no other way, and the mode after it is never below the mode before (R321, R346). -/
def Obligations.TrapRouting : Prop :=
  ∀ (s : State) (c : Cause) (tval epc : Word),
    takeTrap c tval epc s =
      (if s.cfg.modes = .msu ∧ s.priv ≠ .M ∧ bit (if c.isIrq then s.mideleg else s.medeleg) c.code = true
       then enterS c tval epc s else enterM c tval epc s) ∧
    s.priv.code ≤ (takeTrap c tval epc s).priv.code ∧ (takeTrap c tval epc s).priv ≠ .U

/-- The handler's address: the base, the vector register with its low two bits cleared; with MODE = 1 an interrupt enters 4 times its code
above the base, modulo 2^XLEN, and a synchronous exception at the base (R322). -/
def Obligations.TrapVector : Prop :=
  ∀ (x : Xlen) (tvec : Word) (c : Cause), fits x tvec →
    trapVector x tvec c = modXlen x (unsigned tvec / 4 * 4 + if tvec.toNat % 4 = 1 ∧ c.isIrq = true then 4 * c.code else 0)

/-- `ecall` and `ebreak` complete in every state by taking their exception: an environment call from the mode it is made in, and a
breakpoint, each with its own pc saved (R230, R231). The trap value of both is 0: for `ecall` by R230, for `ebreak` by the model's reading
of R231 (log 11; 93_implementation_defined.md U3 lets an implementation write the pc). An environment call from M is never delegated. -/
def Obligations.CallAndBreak : Prop :=
  ∀ (s : State),
    (∃ t e, exec .ecall s = .next t ∧ trapped e 0#64 s t ∧
      (s.priv = .U → e = .environmentCallFromU) ∧ (s.priv = .S → e = .environmentCallFromS) ∧
      (s.priv = .M → e = .environmentCallFromM ∧ t.priv = .M ∧ t.mepc = s.pc)) ∧
    (∃ t, exec .ebreak s = .next t ∧ trapped .breakpoint 0#64 s t)

/-- `mret` in M mode completes: MIE takes MPIE, MPIE is 1, MPP is U (stays M under MODES = M), the mode is the old MPP, the pc is mepc; no
other bit of mstatus and nothing else changes (R200). -/
def Obligations.MachineReturn : Prop :=
  ∀ (s : State), s.priv = .M →
    ∃ t, exec .mret s = .next t ∧ statusBit t.mstatus .MIE = statusBit s.mstatus .MPIE ∧ statusBit t.mstatus .MPIE = true ∧
      (s.cfg.modes ≠ .m → bit t.mstatus 11 = false ∧ bit t.mstatus 12 = false ∧ t.priv = mppOf s.mstatus) ∧
      (s.cfg.modes = .m → bit t.mstatus 11 = bit s.mstatus 11 ∧ bit t.mstatus 12 = bit s.mstatus 12 ∧ t.priv = .M) ∧
      (∀ i, i ∉ [3, 7, 11, 12] → bit t.mstatus i = bit s.mstatus i) ∧ t.pc = s.mepc ∧
      sameMTrap s t ∧ sameSTrap s t ∧ sameUntrapped s t ∧ sameRegs s t ∧ sameMemory s t ∧ sameWait s t ∧ sameCache s t ∧ samePlatform s t

/-- `sret` in M mode, and in S mode unless TSR = 1, completes where S mode exists: SIE takes SPIE, SPIE is 1, SPP is 0, the mode is S or U
as SPP was, the pc is sepc; no other bit of mstatus and nothing else changes (R201). -/
def Obligations.SupervisorReturn : Prop :=
  ∀ (s : State), s.cfg.modes = .msu → s.priv ≠ .U → ¬(s.priv = .S ∧ statusBit s.mstatus .TSR = true) →
    ∃ t, exec .sret s = .next t ∧ statusBit t.mstatus .SIE = statusBit s.mstatus .SPIE ∧ statusBit t.mstatus .SPIE = true ∧
      statusBit t.mstatus .SPP = false ∧ t.priv = (if statusBit s.mstatus .SPP then .S else .U) ∧
      (∀ i, i ∉ [1, 5, 8] → bit t.mstatus i = bit s.mstatus i) ∧ t.pc = s.sepc ∧
      sameMTrap s t ∧ sameSTrap s t ∧ sameUntrapped s t ∧ sameRegs s t ∧ sameMemory s t ∧ sameWait s t ∧ sameCache s t ∧ samePlatform s t

/-- A return undoes the entry: after a trap into M mode, `mret` restores the saved pc, the mode and MIE, and after a trap into S mode
`sret` restores the saved pc, the mode and SIE, where TSR = 0; neither touches the cause and value registers of the trap (R202). -/
def Obligations.ReturnUndoesEntry : Prop :=
  ∀ (s t : State) (c : Cause) (tval epc : Word), s.cfg.modes.has s.priv = true → t = takeTrap c tval epc s →
    (t.priv = .M → ∃ u, exec .mret t = .next u ∧ u.pc = epc ∧ u.priv = s.priv ∧ statusBit u.mstatus .MIE = statusBit s.mstatus .MIE ∧
      sameMTrap t u ∧ sameSTrap t u ∧ sameRegs s u) ∧
    (t.priv = .S → statusBit s.mstatus .TSR = false → ∃ u, exec .sret t = .next u ∧ u.pc = epc ∧ u.priv = s.priv ∧
      statusBit u.mstatus .SIE = statusBit s.mstatus .SIE ∧ sameMTrap t u ∧ sameSTrap t u ∧ sameRegs s u)

/-- A privileged instruction in a mode that may not run it raises Illegal instruction with its own word as trap value: `mret` below M;
`sret` and `sfence.vma` in U, without S mode, and in S under TSR or TVM; `wfi` in U, and in S under TW with no wait allowed
(30_encoding.md R191, R200, R201, R210, R220). -/
def Obligations.PrivilegedInstructionsTrap : Prop :=
  ∀ (s : State) (rs1 rs2 : Reg),
    (s.priv ≠ .M → ∃ t, exec .mret s = .next t ∧ trapped .illegalInstruction 0x30200073#64 s t) ∧
    (s.cfg.modes ≠ .msu ∨ s.priv = .U ∨ (s.priv = .S ∧ statusBit s.mstatus .TSR = true) →
      ∃ t, exec .sret s = .next t ∧ trapped .illegalInstruction 0x10200073#64 s t) ∧
    (s.priv = .U ∨ (s.priv = .S ∧ statusBit s.mstatus .TW = true ∧ s.cfg.twLimit = 0) →
      ∃ t, exec .wfi s = .next t ∧ trapped .illegalInstruction 0x10500073#64 s t) ∧
    (s.cfg.modes ≠ .msu ∨ s.priv = .U ∨ (s.priv = .S ∧ statusBit s.mstatus .TVM = true) →
      ∃ t, exec (.sfenceVma rs1 rs2) s = .next t ∧
        trapped .illegalInstruction (BitVec.ofNat 64 (0x12000073 + rs2.toNat * 2 ^ 20 + rs1.toNat * 2 ^ 15)) s t)

/-- `wfi` in M mode, and in S mode where TW allows a wait, completes: with no stall, or with an enabled interrupt pending, as a no-operation;
otherwise the hart waits, its pc at the `wfi`, and nothing else changes (R210). -/
def Obligations.WfiResult : Prop :=
  ∀ (s : State), s.priv ≠ .U → ¬(s.priv = .S ∧ statusBit s.mstatus .TW = true ∧ s.cfg.twLimit = 0) →
    (s.cfg.wfiImpl = .nop ∨ (s.cfg.wfiImpl = .either ∧ s.now.wfiStall = false) ∨ csrRead s .mie &&& csrRead s .mip ≠ 0#64 →
      ∃ t, exec .wfi s = .next t ∧ movedTo s.following s t) ∧
    (s.cfg.wfiImpl = .stall ∨ (s.cfg.wfiImpl = .either ∧ s.now.wfiStall = true) → csrRead s .mie &&& csrRead s .mip = 0#64 →
      ∃ t, exec .wfi s = .next t ∧ t.waiting = true ∧ t.waited = 0 ∧ t.pc = s.pc ∧ t.now = s.now ∧ t.script = s.script ∧ t.tick = s.tick ∧
        sameRegs s t ∧ sameCsrs s t ∧ sameCache s t ∧ samePlatform s t ∧ sameMemory s t)

/-- A waiting hart runs no instruction. With an enabled interrupt pending it leaves the wait at the boundary after the `wfi`; else, unless
it wakes early by its own choice, it raises Illegal instruction on the `wfi` when the wait has lasted its limit in S mode under TW = 1,
and otherwise stays, nothing changing but the count of the wait (R211, 10_state.md R36). That the limit counts steps is the model's choice
(log 22). -/
def Obligations.WaitState : Prop :=
  ∀ (s : State), s.waiting = true →
    (csrRead s .mie &&& csrRead s .mip ≠ 0#64 → hartStep s = atBoundary { s with waiting := false, waited := 0, pc := s.following }) ∧
    (csrRead s .mie &&& csrRead s .mip = 0#64 → (s.cfg.wfiImpl = .either → s.now.wakeEarly = false) →
      (s.priv = .S ∧ statusBit s.mstatus .TW = true ∧ s.cfg.twLimit ≤ s.waited →
        ∃ t, hartStep s = .next t ∧ trapped .illegalInstruction 0x10500073#64 { s with waiting := false, waited := 0 } t) ∧
      (¬(s.priv = .S ∧ statusBit s.mstatus .TW = true ∧ s.cfg.twLimit ≤ s.waited) →
        hartStep s = .next { s with waited := s.waited + 1 }))

/-- `sfence.vma` in M mode, and in S mode unless TVM = 1, completes where S mode exists: exactly the entries of R221's table leave the cache,
"all" chosen by register number 0, and nothing else changes but the pc. Which entries an address covers while satp.MODE is Bare is not in R221:
there the model removes by every scheme of the register width (log 16, a DESIGN CHOICE). After the form with both operands x0 the cache is empty, and
the next read of a page-table entry, whatever choices it draws, reads memory (R220 to R222). -/
def Obligations.FenceResult : Prop :=
  ∀ (s : State) (rs1 rs2 : Reg), s.cfg.modes = .msu → s.priv ≠ .U → ¬(s.priv = .S ∧ statusBit s.mstatus .TVM = true) →
    ∃ t, exec (.sfenceVma rs1 rs2) s = .next t ∧
      (∀ e, e ∈ t.tlb ↔ e ∈ s.tlb ∧
        ¬((rs2 ≠ 0#5 → e.asid = BitVec.ofNat 16 ((s.reg rs2).toNat % 2 ^ s.cfg.asidLen) ∧ pteG e.pte = false) ∧
          (rs1 ≠ 0#5 → ∃ sch ∈ coverSchemes s, e.prefixVpn = vpnPrefix sch (s.reg rs1) e.level))) ∧
      (rs1 = 0#5 → rs2 = 0#5 → t.tlb = [] ∧ ∀ sch w va kind i pa, readPte sch w va kind i pa t = readPteMem sch va kind i pa t) ∧
      t.pc = s.following ∧ sameRegs s t ∧ sameCsrs s t ∧ sameWait s t ∧ samePlatform s t ∧ sameMemory s t

/-! ## Interrupts (60_exceptions.md R305 to R314) -/

/-- Which interrupts are takeable: with pend = mip and mie, those of `pend` outside mideleg when M-mode interrupts are enabled, and those of
`pend` in mideleg when S-mode interrupts are; mideleg counts as 0 unless S mode exists (R311). -/
def Obligations.TakeableInterrupts : Prop :=
  ∀ (s : State) (q : Irq) (pend deleg mSet sSet : Word), pend = csrRead s .mip &&& csrRead s .mie →
    deleg = (if s.cfg.modes = .msu then s.mideleg else 0#64) → mSet = pend &&& ~~~deleg → sSet = pend &&& deleg →
    (s.takeable q = true ↔
      bit ((if (s.priv = .M ∧ statusBit s.mstatus .MIE = true) ∨ s.priv ≠ .M then mSet else 0#64) |||
        (if (s.priv = .S ∧ statusBit s.mstatus .SIE = true) ∨ s.priv = .U then sSet else 0#64)) q.code = true)

/-- Which interrupt a boundary selects: a takeable one if there is any; one bound for M before any bound for S; within one destination
and one level, external before software before timer (R313). -/
def Obligations.InterruptChoice : Prop :=
  ∀ (s : State), s.mideleg &&& ~~~supervisorBits = 0#64 →
    (s.selectIrq = none → ∀ q, s.takeable q = false) ∧
    (∀ i, s.selectIrq = some i → s.takeable i = true ∧ ∀ j, s.takeable j = true →
      (s.delegatedIrq i = true → s.delegatedIrq j = true) ∧
      (s.delegatedIrq i = s.delegatedIrq j → machineLevel i = machineLevel j → irqRank i ≤ irqRank j))

/-! ## Physical memory protection (20_memory.md R120 to R125) -/

/-- The first entry that covers any byte of an access decides it: the access must lie wholly inside, and then passes in M mode under an
unlocked entry, and otherwise where the entry's bit for its kind is 1. Where no entry covers any byte, only M mode passes; with no PMP at
all everything does (R120 to R125). -/
def Obligations.PmpDecision : Prop :=
  ∀ (s : State) (pa n : Nat) (kind : AccessKind) (ep : Priv), 0 < n → s.cfg.pmpCount ≤ 16 →
    (s.cfg.pmpCount = 0 → pmpCheck s pa n kind ep = true) ∧
    (0 < s.cfg.pmpCount → (∀ i a, i < s.cfg.pmpCount → pa ≤ a → a < pa + n → ¬pmpCovers s i a) →
      pmpCheck s pa n kind ep = decide (ep = .M)) ∧
    (∀ i, i < s.cfg.pmpCount → (∃ a, pa ≤ a ∧ a < pa + n ∧ pmpCovers s i a) →
      (∀ j a, j < i → pa ≤ a → a < pa + n → ¬pmpCovers s j a) →
      (pmpCheck s pa n kind ep = true ↔
        (∀ a, pa ≤ a → a < pa + n → pmpCovers s i a) ∧
        ((ep = .M ∧ (s.pmpCfg i).getLsbD 7 = false) ∨ pmpBitFor (s.pmpCfg i) kind = true)))

/-! ## Paging (25_virtual_memory.md) -/

/-- The permission check of step 5: U mode needs U = 1; S mode on a page with U = 1 never fetches and needs SUM = 1 to load or store; then
a fetch needs X, a load R, or X with MXR = 1, and a store W (R155). -/
def Obligations.PagePermissions : Prop :=
  ∀ (s : State) (p : Word) (kind : AccessKind) (ep : Priv),
    pagePermits s p kind ep = true ↔
      (ep = .U → bit p 4 = true) ∧
      (ep = .S → bit p 4 = true → kind ≠ .fetch ∧ statusBit s.mstatus .SUM = true) ∧
      (kind = .fetch → bit p 3 = true) ∧
      (kind = .load → bit p 1 = true ∨ (statusBit s.mstatus .MXR = true ∧ bit p 3 = true)) ∧
      (kind = .store → bit p 2 = true)

/-- The page-table walk, read from memory (it draws no cached entry), for every scheme: the pointers in memory lead from the root to a
table with `n` levels left. With none left it is a page fault; an unreadable entry is the access fault of the access; V = 0, or R = 0 and
W = 1, is a page fault; a leaf that does not permit the access, or a misaligned superpage, is a page fault; a leaf with A = 1, and D = 1
for a store, gives the address whose page number takes the low `n` - 1 fields from the address and the others from the entry; one with
A = 0, or D = 0 on a store, is a page fault where the hardware does not set them; where it sets them, the entry in memory takes the bits,
or, where PMP or PMA denies an S-mode store to the entry, the walk is the access fault of the access, and where the entry lies in mtime it
is refused (log 21). A valid entry with a non-zero Reserved field is refused (R146, log 15). All faults carry `va` and change no byte
(R148 to R159, 20_memory.md R126). -/
def Obligations.PageWalk : Prop :=
  ∀ (s : State) (sch : Scheme) (w : WalkChoice) (va : Word) (kind : AccessKind) (ep : Priv) (n b : Nat),
    schemeOf s.satpMode = some sch → w.useCached = [] →
    PointerPath s sch va sch.levels (satpPpn s.cfg.xlen s.satp * 4096) n b →
    (s.cfg.xlen = .rv64 → (va.toInt < -(2 : Int) ^ (sch.vaBits - 1) ∨ (2 : Int) ^ (sch.vaBits - 1) ≤ va.toInt) →
      ∃ u, Machine.translate sch w va kind ep s = .trap (pageFault kind) va u ∧ sameMemory s u) ∧
    ((s.cfg.xlen = .rv64 → -(2 : Int) ^ (sch.vaBits - 1) ≤ va.toInt ∧ va.toInt < (2 : Int) ^ (sch.vaBits - 1)) →
      (n = 0 → ∃ u, Machine.translate sch w va kind ep s = .trap (pageFault kind) va u ∧ sameMemory s u) ∧
      (∀ i, n = i + 1 →
        (physAllowed s (entryAt sch va i b) sch.pteBytes .load .S = false →
          ∃ u, Machine.translate sch w va kind ep s = .trap (accessFault kind) va u ∧ sameMemory s u) ∧
        (∀ p, holdsEntry s sch va i b p →
          (bit p 0 = false ∨ (bit p 1 = false ∧ bit p 2 = true) →
            ∃ u, Machine.translate sch w va kind ep s = .trap (pageFault kind) va u ∧ sameMemory s u) ∧
          (bit p 0 = true → ¬(bit p 1 = false ∧ bit p 2 = true) → 2 ^ 54 ≤ p.toNat →
            Machine.translate sch w va kind ep s = .refused (.reservedPteBits p)) ∧
          (bit p 0 = true → ¬(bit p 1 = false ∧ bit p 2 = true) → p.toNat < 2 ^ 54 → (bit p 1 = true ∨ bit p 3 = true) →
            (pagePermits s p kind ep = false ∨ ptePpn sch p % 2 ^ (sch.vpnBits * i) ≠ 0 →
              ∃ u, Machine.translate sch w va kind ep s = .trap (pageFault kind) va u ∧ sameMemory s u) ∧
            (pagePermits s p kind ep = true → ptePpn sch p % 2 ^ (sch.vpnBits * i) = 0 →
              (bit p 6 = true ∧ (kind = .store → bit p 7 = true) →
                ∃ u, Machine.translate sch w va kind ep s =
                    .done (ptePpn sch p * 4096 + va.toNat % 2 ^ (12 + sch.vpnBits * i)) u ∧
                  sameMemory s u ∧ sameCsrs s u ∧ sameRegs s u) ∧
              (¬(bit p 6 = true ∧ (kind = .store → bit p 7 = true)) → s.setsAD w = false →
                ∃ u, Machine.translate sch w va kind ep s = .trap (pageFault kind) va u ∧ sameMemory s u) ∧
              (¬(bit p 6 = true ∧ (kind = .store → bit p 7 = true)) → s.setsAD w = true →
                physAllowed s (entryAt sch va i b) sch.pteBytes .store .S = false →
                ∃ u, Machine.translate sch w va kind ep s = .trap (accessFault kind) va u ∧ sameMemory s u) ∧
              (¬(bit p 6 = true ∧ (kind = .store → bit p 7 = true)) → s.setsAD w = true →
                physAllowed s (entryAt sch va i b) sch.pteBytes .store .S = true →
                ∀ a, mtimeIn s.cfg (entryAt sch va i b) sch.pteBytes = some a →
                Machine.translate sch w va kind ep s = .refused (.mtimeStore a)) ∧
              (¬(bit p 6 = true ∧ (kind = .store → bit p 7 = true)) → s.setsAD w = true →
                physAllowed s (entryAt sch va i b) sch.pteBytes .store .S = true →
                (∀ k, k < sch.pteBytes → platformAt s.cfg (entryAt sch va i b + k) = none) →
                ∃ u, Machine.translate sch w va kind ep s =
                    .done (ptePpn sch p * 4096 + va.toNat % 2 ^ (12 + sch.vpnBits * i)) u ∧
                  littleEndian u sch.pteBytes (entryAt sch va i b) =
                    p.toNat + (if bit p 6 then 0 else 64) + (if kind = .store ∧ bit p 7 = false then 128 else 0) ∧
                  (∀ a, a < entryAt sch va i b ∨ entryAt sch va i b + sch.pteBytes ≤ a → u.byteAt a = s.byteAt a) ∧
                  sameCsrs s u ∧ sameRegs s u))))))

/-- Where a walk's entry comes from: a cached entry of the current address space (or a global one) for this level and these page numbers
that the step draws, which is used as it stands without reading memory, and is no leaf whose A or D bit the access would set; or memory,
when the value read also enters the cache (R161 (a) says it may; that it always does is the model's choice, log 16: it may vanish before any
later step). A drawn entry that is cached and matches is used, stale or not (R161, R162, R165). -/
def Obligations.EntrySource : Prop :=
  ∀ (s : State) (sch : Scheme) (w : WalkChoice) (va : Word) (kind : AccessKind) (i pa : Nat), sch.pteBytes ≤ 8 →
    (∀ p u, readPte sch w va kind i pa s = .done p u →
      (u = s ∧ ∃ e ∈ s.tlb, e ∈ w.useCached ∧ e.pte = p ∧ e.level = i ∧ e.prefixVpn = vpnPrefix sch va i ∧
        (e.asid = satpAsid s.cfg.xlen s.satp ∨ pteG p = true) ∧ ¬(pteV p = true ∧ pteLeaf p = true ∧ pteNeedsAD p kind = true)) ∨
      (physAllowed s pa sch.pteBytes .load .S = true ∧ p.toNat = littleEndian s sch.pteBytes pa ∧ sameMemory s u ∧ sameCsrs s u ∧
        ∀ e, e ∈ u.tlb ↔ e ∈ s.tlb ∨
          e = { asid := satpAsid s.cfg.xlen s.satp, level := i, prefixVpn := vpnPrefix sch va i, pte := p })) ∧
    (∀ e, e ∈ s.tlb → w.useCached = [e] → e.level = i → e.prefixVpn = vpnPrefix sch va i →
      (e.asid = satpAsid s.cfg.xlen s.satp ∨ pteG e.pte = true) → ¬(pteV e.pte = true ∧ pteLeaf e.pte = true ∧ pteNeedsAD e.pte kind = true) →
      readPte sch w va kind i pa s = .done e.pte s)

/-! ## Whole-machine rules -/

/-- No step leaves the canonical form of memory, or of the record of stored-to locations; a location once stored to stays recorded, so no
later step fetches an instruction from it; mtime never goes back; and no step changes a parameter (R100, R132, R350). -/
def Obligations.MemoryInvariantStep : Prop :=
  ∀ (s t : State), Machine.step s = .next t →
    (memInv s → memInv t) ∧ (∀ a, a ∈ s.stored → a ∈ t.stored) ∧ s.mtime.toNat ≤ t.mtime.toNat ∧ t.cfg = s.cfg

/-- Every step from a state of a legal mode gives one: the mode and MPP name implemented modes and the hardwired fields of mstatus read as
they are hardwired (R24, R31, R33, R37, R38, R203). -/
def Obligations.ModeInvariantStep : Prop :=
  ∀ (s t : State), modeInv s → Machine.step s = .next t → modeInv t

/-- Every step keeps pc, mepc and sepc multiples of IALIGN/8, and every XLEN-bit register within XLEN bits with x0 zero (R2, R20, R23, R42,
R43). -/
def Obligations.RegisterInvariantStep : Prop :=
  ∀ (s t : State), Machine.step s = .next t → (alignInv s → alignInv t) ∧ (widthInv s → widthInv t)

/-- Every step keeps the CSRs within the values their fields allow: delegation and interrupt bits that exist, a defined vector mode, a
supported satp mode, legal PMP bytes (R40, R41, R50, R51, R54, R55, R57, R62). -/
def Obligations.CsrInvariantStep : Prop :=
  ∀ (s t : State), csrInv s → Machine.step s = .next t → csrInv t

/-- The state after reset meets every invariant, under every well-formed choice of the parameters; the values the spec leaves open there
are the model's (log 6, log 8). -/
def Obligations.InvariantsAtReset : Prop :=
  ∀ (c : Params), Params.wf c →
    memInv (State.resetOf c) ∧ modeInv (State.resetOf c) ∧ alignInv (State.resetOf c) ∧ widthInv (State.resetOf c) ∧ csrInv (State.resetOf c)

/-- What the spec fixes of the state after reset: M mode, the reset vector, MIE = 0, MPRV = 0, mcause = 0, no PMP entry locked, no wait;
the launch premise that every PMP entry is off (R75, R380). The mcause value is log 7's, the A fields are log 8's, and the zero in every integer
register is the model's choice (log 6), not the spec's. -/
def Obligations.ResetValues : Prop :=
  ∀ (c : Params),
    (State.resetOf c).priv = .M ∧ (State.resetOf c).pc = c.resetVector ∧ statusBit (State.resetOf c).mstatus .MIE = false ∧
    statusBit (State.resetOf c).mstatus .MPRV = false ∧ (State.resetOf c).mcause = 0#64 ∧ (State.resetOf c).waiting = false ∧
    (∀ i, pmpL ((State.resetOf c).pmpCfg i) = false ∧ pmpMatch ((State.resetOf c).pmpCfg i) = .off) ∧ (∀ r, (State.resetOf c).reg r = 0#64)

/-- A PMP lock lasts: whatever a step does, in any mode, a locked entry keeps its configuration byte and its address register, and a locked
top-of-range entry keeps the address register below it (R59). -/
def Obligations.PmpLockHolds : Prop :=
  ∀ (s t : State) (i : Nat), s.cfg.pmpCount ≤ 16 → i < s.cfg.pmpCount → (s.pmpCfg i).getLsbD 7 = true → Machine.step s = .next t →
    t.pmpCfg i = s.pmpCfg i ∧ t.pmpAddr i = s.pmpAddr i ∧
    ((s.pmpCfg i).extractLsb' 3 2 = 1#2 → 0 < i → t.pmpAddr (i - 1) = s.pmpAddr (i - 1))

/-- The mode changes only by a trap, or by `mret` executed in M mode, or by `sret` executed in S or M mode: any other instruction, and any
CSR write, leaves it as it is (R344). -/
def Obligations.ModeChanges : Prop :=
  ∀ (s t : State) (i : Instr), exec i s = .next t → t.priv ≠ s.priv →
    (i = .mret ∧ s.priv = .M ∧ (t.priv = mppOf s.mstatus ∨ s.cfg.modes = .m)) ∨
    (i = .sret ∧ s.priv ≠ .U ∧ s.cfg.modes = .msu ∧ t.priv = (if statusBit s.mstatus .SPP then .S else .U)) ∨
    (∃ e v u, u.priv = s.priv ∧ u.cfg = s.cfg ∧ trapped e v u t)

/-- Code in U mode is contained: every instruction of the table that it executes either leaves every CSR and the mode as they were, with the
hart not waiting, or ends in the trap entry of an exception, taken from a state with the same CSRs and mode, at this instruction's pc (R342). -/
def Obligations.UserModeContained : Prop :=
  ∀ (s t : State) (i : Instr), s.priv = .U → s.waiting = false → exec i s = .next t →
    (sameCsrs s t ∧ t.waiting = false) ∨ (∃ e v u, sameCsrs s u ∧ u.pc = s.pc ∧ sameRegs s u ∧ trapped e v u t)

/-- Between two steps of the hart the platform may only let mtime advance, drive the two external lines, store to msip where the
configuration admits it, and add to or drop from the translation cache; the hart's own registers and every byte of memory stay (R308, R309,
R350, R362). While satp.MODE is Bare the cache only loses entries. Otherwise an entry it gains has the current ASID, a level of the scheme,
the page numbers of some address, and the bytes, which an S-mode load may read, of the entry a walk for that address reads at that level of
some table (R161 (a), (b)). And a drawn speculative walk that uses a cached pointer at the root level, stale or not, brings in the entry of
the table that pointer names. R161 (a), (b), (d) say only that this may be: that the drawn walk reads through ReadPte and goes on from the
pointer is the model's reading (log 36, DEDUCED), and that an entry read always enters the cache is the model's choice (log 16, DESIGN
CHOICE). -/
def Obligations.PlatformMoves : Prop :=
  ∀ (s : State),
    s.mtime.toNat ≤ (environment s).mtime.toNat ∧ (environment s).mtimecmp = s.mtimecmp ∧
    (s.cfg.externalMsip = false → (environment s).msip = s.msip) ∧
    (environment s).mem = s.mem ∧ (environment s).stored = s.stored ∧ (environment s).pc = s.pc ∧
    sameRegs s (environment s) ∧ sameCsrs s (environment s) ∧ sameWait s (environment s) ∧
    (schemeOf s.satpMode = none → ∀ e, e ∈ (environment s).tlb → e ∈ s.tlb) ∧
    (∀ sch, schemeOf s.satpMode = some sch →
      (∀ e, e ∈ (environment s).tlb → e ∈ s.tlb ∨
        (e.asid = satpAsid s.cfg.xlen s.satp ∧ e.level < sch.levels ∧
          ∃ va a, e.prefixVpn = vpnPrefix sch va e.level ∧ holdsEntry s sch va e.level a e.pte)) ∧
      (∀ va c i p f, s.now.speculate = [{ va := va, useCached := [c] }] → fits s.cfg.xlen va → c ∈ s.tlb → sch.levels = i + 2 →
        c.level = i + 1 → c.prefixVpn = vpnPrefix sch va (i + 1) → c.asid = satpAsid s.cfg.xlen s.satp →
        bit c.pte 0 = true → bit c.pte 1 = false → bit c.pte 2 = false → bit c.pte 3 = false → c.pte.toNat < 2 ^ 54 →
        holdsEntry s sch va i (ptePpn sch c.pte * 4096) p →
        f = { asid := satpAsid s.cfg.xlen s.satp, level := i, prefixVpn := vpnPrefix sch va i, pte := p } → f ∉ s.now.evict →
        f ∈ (environment s).tlb))

end Claims
end

