-- ==== Sys2Proof/Laws/Bits.lean ====
section
/-! SUPPORT. Bit-fields, widths and bytes: one lemma per helper of Machine/Bits.lean and Machine/Flags.lean. -/

namespace Sys2Proof.Machine

/-! ### Single bits -/

theorem bit_and (a b : Word) (i : Nat) : bit (a &&& b) i = (bit a i && bit b i) := by simp [bit]
theorem bit_or (a b : Word) (i : Nat) : bit (a ||| b) i = (bit a i || bit b i) := by simp [bit]
theorem bit_not (a : Word) (i : Nat) (h : i < 64) : bit (~~~a) i = !bit a i := by simp [bit, h]

theorem word_ext {a b : Word} (h : ∀ i, i < 64 → bit a i = bit b i) : a = b :=
  BitVec.eq_of_getLsbD_eq h

theorem bit_withBit (v : Word) (i : Nat) (b : Bool) (j : Nat) (hi : i < 64) :
    bit (withBit v i b) j = if j = i then b else bit v j := by
  unfold bit withBit
  cases b with
  | true =>
    by_cases h : j = i
    · subst h; simp [hi]
    · by_cases hj : j < 64
      · have : ¬ (i ≤ j ∧ j - i = 0) := by omega
        rcases Nat.lt_or_ge j i with hlt | hge
        · simp [h, hlt]
        · have h1 : j - i ≠ 0 := by omega
          simp [h, h1]
      · simp [h, hj]
  | false =>
    by_cases h : j = i
    · subst h; simp [hi]
    · by_cases hj : j < 64
      · rcases Nat.lt_or_ge j i with hlt | hge
        · simp [h, hlt, hj]
        · have h1 : j - i ≠ 0 := by omega
          simp [h, h1, hj]
      · simp [h, hj, BitVec.getLsbD_of_ge v j (by omega)]

theorem bit_mergeBits (mask old v : Word) (i : Nat) :
    bit (mergeBits mask old v) i = if bit mask i then bit v i else bit old i := by
  by_cases h : i < 64
  · unfold mergeBits; rw [bit_or, bit_and, bit_and, bit_not _ _ h]
    cases bit mask i <;> simp
  · have e : ∀ w : Word, bit w i = false := fun w => BitVec.getLsbD_of_ge _ _ (by omega)
    simp [e]

/-! ### The fields of mstatus -/

theorem StatusField.pos_lt (f : StatusField) : f.pos < 64 := by cases f <;> decide
theorem StatusField.pos_inj {f g : StatusField} (h : f.pos = g.pos) : f = g := by revert h; cases f <;> cases g <;> decide
theorem StatusField.pos_ne_mpp (f : StatusField) : f.pos ≠ 11 ∧ f.pos ≠ 12 := by cases f <;> decide

theorem bit_withStatusBit (m : Word) (f : StatusField) (b : Bool) (j : Nat) :
    bit (withStatusBit m f b) j = if j = f.pos then b else bit m j := bit_withBit _ _ _ _ f.pos_lt

@[simp] theorem statusBit_withStatusBit (m : Word) (f g : StatusField) (b : Bool) :
    statusBit (withStatusBit m f b) g = if g = f then b else statusBit m g := by
  unfold statusBit; rw [bit_withStatusBit]
  by_cases h : g = f
  · simp [h]
  · have h2 : g.pos ≠ f.pos := fun e => h (StatusField.pos_inj e)
    simp [h, h2]

theorem bit_withMpp (m : Word) (p : Priv) (j : Nat) :
    bit (withMpp m p) j = if j = 12 then decide (p = .M) else if j = 11 then decide (p ≠ .U) else bit m j := by
  unfold withMpp; rw [bit_withBit _ _ _ _ (by decide), bit_withBit _ _ _ _ (by decide)]

@[simp] theorem statusBit_withMpp (m : Word) (p : Priv) (f : StatusField) : statusBit (withMpp m p) f = statusBit m f := by
  unfold statusBit; rw [bit_withMpp]; simp [f.pos_ne_mpp]

@[simp] theorem mppOf_withMpp (m : Word) (p : Priv) : mppOf (withMpp m p) = p := by
  unfold mppOf; simp only [bit_withMpp]; cases p <;> simp

@[simp] theorem mppOf_withStatusBit (m : Word) (f : StatusField) (b : Bool) : mppOf (withStatusBit m f b) = mppOf m := by
  have h := f.pos_ne_mpp
  unfold mppOf; simp only [bit_withStatusBit]; simp [Ne.symm h.1, Ne.symm h.2]

/-! ### Widths -/

theorem Xlen.bits_pos (x : Xlen) : 0 < x.bits := by cases x <;> decide

theorem wrap_toNat (x : Xlen) (v : Word) : (x.wrap v).toNat = v.toNat % 2 ^ x.bits := by
  cases x
  · simp [Xlen.wrap, Xlen.bits]; omega
  · simp [Xlen.wrap, Xlen.bits]; omega

theorem fits_wrap (x : Xlen) (v : Word) : fits x (x.wrap v) := by
  unfold fits; rw [wrap_toNat]; exact Nat.mod_lt _ (Nat.two_pow_pos _)

theorem wrap_of_fits {x : Xlen} {v : Word} (h : fits x v) : x.wrap v = v := by
  apply BitVec.eq_of_toNat_eq; rw [wrap_toNat, Nat.mod_eq_of_lt h]

@[simp] theorem wrap_wrap (x : Xlen) (v : Word) : x.wrap (x.wrap v) = x.wrap v := wrap_of_fits (fits_wrap x v)

theorem fits_zero (x : Xlen) : fits x 0#64 := by unfold fits; cases x <;> decide

theorem fits_rv64 (v : Word) : fits .rv64 v := v.isLt

theorem fits_and_left {x : Xlen} {a : Word} (b : Word) (h : fits x a) : fits x (a &&& b) := by
  unfold fits at *; rw [BitVec.toNat_and]; exact lt_of_le_of_lt Nat.and_le_left h

theorem fits_and_right {x : Xlen} (a : Word) {b : Word} (h : fits x b) : fits x (a &&& b) := by
  unfold fits at *; rw [BitVec.toNat_and]; exact lt_of_le_of_lt Nat.and_le_right h

theorem fits_or {x : Xlen} {a b : Word} (ha : fits x a) (hb : fits x b) : fits x (a ||| b) := by
  unfold fits at *; rw [BitVec.toNat_or]; exact Nat.or_lt_two_pow ha hb

theorem fits_of_lt {x : Xlen} {v : Word} (h : v.toNat < 2 ^ 32) : fits x v := by
  cases x
  · exact h
  · exact v.isLt

theorem fits_withBit {x : Xlen} {v : Word} (i : Nat) (b : Bool) (hi : i < 32) (h : fits x v) : fits x (withBit v i b) := by
  unfold withBit
  split
  · refine fits_or h (fits_of_lt ?_)
    have h1 : (2 : Nat) ^ i < 2 ^ 32 := Nat.pow_lt_pow_right (by decide) hi
    have h2 : (1#64 <<< i).toNat = 2 ^ i % 2 ^ 64 := by simp [BitVec.toNat_shiftLeft, Nat.shiftLeft_eq]
    rw [h2]; exact lt_of_le_of_lt (Nat.mod_le _ _) h1
  · exact fits_and_left _ h

theorem StatusField.pos_lt32 (f : StatusField) : f.pos < 32 := by cases f <;> decide

theorem fits_withStatusBit {x : Xlen} {m : Word} (f : StatusField) (b : Bool) (h : fits x m) : fits x (withStatusBit m f b) :=
  fits_withBit _ _ f.pos_lt32 h

theorem fits_withMpp {x : Xlen} {m : Word} (p : Priv) (h : fits x m) : fits x (withMpp m p) :=
  fits_withBit _ _ (by decide) (fits_withBit _ _ (by decide) h)

theorem fits_mergeBits {x : Xlen} (mask : Word) {old v : Word} (ho : fits x old) (hv : fits x v) : fits x (mergeBits mask old v) :=
  fits_or (fits_and_left _ ho) (fits_and_left _ hv)

theorem fits_sext (x : Xlen) {n : Nat} (v : BitVec n) : fits x (sext x v) := fits_wrap _ _

/-! ### Alignment of addresses -/

theorem ialign_cases (c : Params) : c.ialign = 2 ∨ c.ialign = 4 := by unfold Params.ialign; split <;> simp

theorem alignedTo_of_four {c : Params} {v : Word} (h : v.toNat % 4 = 0) : alignedTo c v := by
  unfold alignedTo; rcases ialign_cases c with e | e <;> rw [e] <;> omega

theorem alignedTo_wrap {c : Params} {v : Word} (h : alignedTo c v) : alignedTo c (c.xlen.wrap v) := by
  unfold alignedTo at *; rw [wrap_toNat]
  rcases ialign_cases c with e | e <;> rw [e] at h ⊢ <;> cases c.xlen <;> norm_num only [Xlen.bits] <;> omega

theorem alignedTo_add_four {c : Params} {v : Word} (h : alignedTo c v) : alignedTo c (v + 4#64) := by
  unfold alignedTo at *; rw [BitVec.toNat_add, show (4#64).toNat = 4 from rfl]
  rcases ialign_cases c with e | e <;> rw [e] at h ⊢ <;> norm_num only <;> omega

theorem toNat_clear_low (v : Word) : (v &&& ~~~3#64).toNat = v.toNat - v.toNat % 4 := by
  have h : v &&& ~~~3#64 = (v >>> 2) <<< 2 := by
    apply word_ext; intro i hi
    unfold bit
    by_cases h2 : i < 2
    · have : i = 0 ∨ i = 1 := by omega
      rcases this with rfl | rfl <;> simp
    · have h3 : 2 + (i - 2) = i := by omega
      have h4 : (3#64).getLsbD i = false :=
        Nat.testBit_lt_two_pow (lt_of_lt_of_le (by decide : 3 < 2 ^ 2) (Nat.pow_le_pow_right (by decide) (by omega)))
      rw [BitVec.getLsbD_and, BitVec.getLsbD_not, h4]
      simp [hi, h2, h3]
  rw [h]
  simp [BitVec.toNat_shiftLeft, BitVec.toNat_ushiftRight, Nat.shiftLeft_eq, Nat.shiftRight_eq_div_pow]
  omega

theorem toNat_clear_low1 (v : Word) : (v &&& ~~~1#64).toNat = v.toNat - v.toNat % 2 := by
  have h : v &&& ~~~1#64 = (v >>> 1) <<< 1 := by
    apply word_ext; intro i hi
    unfold bit
    by_cases h2 : i < 1
    · have : i = 0 := by omega
      subst this; simp
    · have h3 : 1 + (i - 1) = i := by omega
      have h4 : (1#64).getLsbD i = false :=
        Nat.testBit_lt_two_pow (lt_of_lt_of_le (by decide : 1 < 2 ^ 1) (Nat.pow_le_pow_right (by decide) (by omega)))
      have h5 : i ≠ 0 := by omega
      rw [BitVec.getLsbD_and, BitVec.getLsbD_not, h4]
      simp [hi, h3, h5]
  rw [h]
  simp [BitVec.toNat_shiftLeft, BitVec.toNat_ushiftRight, Nat.shiftLeft_eq, Nat.shiftRight_eq_div_pow]
  omega

end Sys2Proof.Machine
end

