-- ==== Sys2Proof/Laws/State.lean ====
section
/-! SUPPORT. One lemma per field per named update: what the update leaves as it was, and what it sets. -/

namespace Sys2Proof.Machine

/-! ### `setReg` -/

@[simp] theorem State.setReg_cfg (s : State) (r : Reg) (v : Word) : (s.setReg r v).cfg = s.cfg := by unfold State.setReg; split <;> rfl
@[simp] theorem State.setReg_pc (s : State) (r : Reg) (v : Word) : (s.setReg r v).pc = s.pc := by unfold State.setReg; split <;> rfl
@[simp] theorem State.setReg_priv (s : State) (r : Reg) (v : Word) : (s.setReg r v).priv = s.priv := by unfold State.setReg; split <;> rfl
@[simp] theorem State.setReg_mstatus (s : State) (r : Reg) (v : Word) : (s.setReg r v).mstatus = s.mstatus := by unfold State.setReg; split <;> rfl
@[simp] theorem State.setReg_medeleg (s : State) (r : Reg) (v : Word) : (s.setReg r v).medeleg = s.medeleg := by unfold State.setReg; split <;> rfl
@[simp] theorem State.setReg_mideleg (s : State) (r : Reg) (v : Word) : (s.setReg r v).mideleg = s.mideleg := by unfold State.setReg; split <;> rfl
@[simp] theorem State.setReg_mie (s : State) (r : Reg) (v : Word) : (s.setReg r v).mie = s.mie := by unfold State.setReg; split <;> rfl
@[simp] theorem State.setReg_mtvec (s : State) (r : Reg) (v : Word) : (s.setReg r v).mtvec = s.mtvec := by unfold State.setReg; split <;> rfl
@[simp] theorem State.setReg_mscratch (s : State) (r : Reg) (v : Word) : (s.setReg r v).mscratch = s.mscratch := by unfold State.setReg; split <;> rfl
@[simp] theorem State.setReg_mepc (s : State) (r : Reg) (v : Word) : (s.setReg r v).mepc = s.mepc := by unfold State.setReg; split <;> rfl
@[simp] theorem State.setReg_mcause (s : State) (r : Reg) (v : Word) : (s.setReg r v).mcause = s.mcause := by unfold State.setReg; split <;> rfl
@[simp] theorem State.setReg_mtval (s : State) (r : Reg) (v : Word) : (s.setReg r v).mtval = s.mtval := by unfold State.setReg; split <;> rfl
@[simp] theorem State.setReg_mipSoft (s : State) (r : Reg) (v : Word) : (s.setReg r v).mipSoft = s.mipSoft := by unfold State.setReg; split <;> rfl
@[simp] theorem State.setReg_stvec (s : State) (r : Reg) (v : Word) : (s.setReg r v).stvec = s.stvec := by unfold State.setReg; split <;> rfl
@[simp] theorem State.setReg_sscratch (s : State) (r : Reg) (v : Word) : (s.setReg r v).sscratch = s.sscratch := by unfold State.setReg; split <;> rfl
@[simp] theorem State.setReg_sepc (s : State) (r : Reg) (v : Word) : (s.setReg r v).sepc = s.sepc := by unfold State.setReg; split <;> rfl
@[simp] theorem State.setReg_scause (s : State) (r : Reg) (v : Word) : (s.setReg r v).scause = s.scause := by unfold State.setReg; split <;> rfl
@[simp] theorem State.setReg_stval (s : State) (r : Reg) (v : Word) : (s.setReg r v).stval = s.stval := by unfold State.setReg; split <;> rfl
@[simp] theorem State.setReg_satp (s : State) (r : Reg) (v : Word) : (s.setReg r v).satp = s.satp := by unfold State.setReg; split <;> rfl
@[simp] theorem State.setReg_pmpcfg (s : State) (r : Reg) (v : Word) : (s.setReg r v).pmpcfg = s.pmpcfg := by unfold State.setReg; split <;> rfl
@[simp] theorem State.setReg_pmpaddr (s : State) (r : Reg) (v : Word) : (s.setReg r v).pmpaddr = s.pmpaddr := by unfold State.setReg; split <;> rfl
@[simp] theorem State.setReg_tlb (s : State) (r : Reg) (v : Word) : (s.setReg r v).tlb = s.tlb := by unfold State.setReg; split <;> rfl
@[simp] theorem State.setReg_waiting (s : State) (r : Reg) (v : Word) : (s.setReg r v).waiting = s.waiting := by unfold State.setReg; split <;> rfl
@[simp] theorem State.setReg_waited (s : State) (r : Reg) (v : Word) : (s.setReg r v).waited = s.waited := by unfold State.setReg; split <;> rfl
@[simp] theorem State.setReg_mem (s : State) (r : Reg) (v : Word) : (s.setReg r v).mem = s.mem := by unfold State.setReg; split <;> rfl
@[simp] theorem State.setReg_stored (s : State) (r : Reg) (v : Word) : (s.setReg r v).stored = s.stored := by unfold State.setReg; split <;> rfl
@[simp] theorem State.setReg_mtime (s : State) (r : Reg) (v : Word) : (s.setReg r v).mtime = s.mtime := by unfold State.setReg; split <;> rfl
@[simp] theorem State.setReg_mtimecmp (s : State) (r : Reg) (v : Word) : (s.setReg r v).mtimecmp = s.mtimecmp := by unfold State.setReg; split <;> rfl
@[simp] theorem State.setReg_msip (s : State) (r : Reg) (v : Word) : (s.setReg r v).msip = s.msip := by unfold State.setReg; split <;> rfl
@[simp] theorem State.setReg_meipLine (s : State) (r : Reg) (v : Word) : (s.setReg r v).meipLine = s.meipLine := by unfold State.setReg; split <;> rfl
@[simp] theorem State.setReg_seipLine (s : State) (r : Reg) (v : Word) : (s.setReg r v).seipLine = s.seipLine := by unfold State.setReg; split <;> rfl
@[simp] theorem State.setReg_now (s : State) (r : Reg) (v : Word) : (s.setReg r v).now = s.now := by unfold State.setReg; split <;> rfl
@[simp] theorem State.setReg_script (s : State) (r : Reg) (v : Word) : (s.setReg r v).script = s.script := by unfold State.setReg; split <;> rfl
@[simp] theorem State.setReg_tick (s : State) (r : Reg) (v : Word) : (s.setReg r v).tick = s.tick := by unfold State.setReg; split <;> rfl

/-! ### `setPc` -/

@[simp] theorem State.setPc_cfg (s : State) (v : Word) : (s.setPc v).cfg = s.cfg := rfl
@[simp] theorem State.setPc_regs (s : State) (v : Word) : (s.setPc v).regs = s.regs := rfl
@[simp] theorem State.setPc_priv (s : State) (v : Word) : (s.setPc v).priv = s.priv := rfl
@[simp] theorem State.setPc_mstatus (s : State) (v : Word) : (s.setPc v).mstatus = s.mstatus := rfl
@[simp] theorem State.setPc_medeleg (s : State) (v : Word) : (s.setPc v).medeleg = s.medeleg := rfl
@[simp] theorem State.setPc_mideleg (s : State) (v : Word) : (s.setPc v).mideleg = s.mideleg := rfl
@[simp] theorem State.setPc_mie (s : State) (v : Word) : (s.setPc v).mie = s.mie := rfl
@[simp] theorem State.setPc_mtvec (s : State) (v : Word) : (s.setPc v).mtvec = s.mtvec := rfl
@[simp] theorem State.setPc_mscratch (s : State) (v : Word) : (s.setPc v).mscratch = s.mscratch := rfl
@[simp] theorem State.setPc_mepc (s : State) (v : Word) : (s.setPc v).mepc = s.mepc := rfl
@[simp] theorem State.setPc_mcause (s : State) (v : Word) : (s.setPc v).mcause = s.mcause := rfl
@[simp] theorem State.setPc_mtval (s : State) (v : Word) : (s.setPc v).mtval = s.mtval := rfl
@[simp] theorem State.setPc_mipSoft (s : State) (v : Word) : (s.setPc v).mipSoft = s.mipSoft := rfl
@[simp] theorem State.setPc_stvec (s : State) (v : Word) : (s.setPc v).stvec = s.stvec := rfl
@[simp] theorem State.setPc_sscratch (s : State) (v : Word) : (s.setPc v).sscratch = s.sscratch := rfl
@[simp] theorem State.setPc_sepc (s : State) (v : Word) : (s.setPc v).sepc = s.sepc := rfl
@[simp] theorem State.setPc_scause (s : State) (v : Word) : (s.setPc v).scause = s.scause := rfl
@[simp] theorem State.setPc_stval (s : State) (v : Word) : (s.setPc v).stval = s.stval := rfl
@[simp] theorem State.setPc_satp (s : State) (v : Word) : (s.setPc v).satp = s.satp := rfl
@[simp] theorem State.setPc_pmpcfg (s : State) (v : Word) : (s.setPc v).pmpcfg = s.pmpcfg := rfl
@[simp] theorem State.setPc_pmpaddr (s : State) (v : Word) : (s.setPc v).pmpaddr = s.pmpaddr := rfl
@[simp] theorem State.setPc_tlb (s : State) (v : Word) : (s.setPc v).tlb = s.tlb := rfl
@[simp] theorem State.setPc_waiting (s : State) (v : Word) : (s.setPc v).waiting = s.waiting := rfl
@[simp] theorem State.setPc_waited (s : State) (v : Word) : (s.setPc v).waited = s.waited := rfl
@[simp] theorem State.setPc_mem (s : State) (v : Word) : (s.setPc v).mem = s.mem := rfl
@[simp] theorem State.setPc_stored (s : State) (v : Word) : (s.setPc v).stored = s.stored := rfl
@[simp] theorem State.setPc_mtime (s : State) (v : Word) : (s.setPc v).mtime = s.mtime := rfl
@[simp] theorem State.setPc_mtimecmp (s : State) (v : Word) : (s.setPc v).mtimecmp = s.mtimecmp := rfl
@[simp] theorem State.setPc_msip (s : State) (v : Word) : (s.setPc v).msip = s.msip := rfl
@[simp] theorem State.setPc_meipLine (s : State) (v : Word) : (s.setPc v).meipLine = s.meipLine := rfl
@[simp] theorem State.setPc_seipLine (s : State) (v : Word) : (s.setPc v).seipLine = s.seipLine := rfl
@[simp] theorem State.setPc_now (s : State) (v : Word) : (s.setPc v).now = s.now := rfl
@[simp] theorem State.setPc_script (s : State) (v : Word) : (s.setPc v).script = s.script := rfl
@[simp] theorem State.setPc_tick (s : State) (v : Word) : (s.setPc v).tick = s.tick := rfl

@[simp] theorem State.setPc_pc (s : State) (v : Word) : (s.setPc v).pc = v := rfl

/-! ### `advance` -/

@[simp] theorem State.advance_cfg (s : State) : (s.advance).cfg = s.cfg := rfl
@[simp] theorem State.advance_regs (s : State) : (s.advance).regs = s.regs := rfl
@[simp] theorem State.advance_priv (s : State) : (s.advance).priv = s.priv := rfl
@[simp] theorem State.advance_mstatus (s : State) : (s.advance).mstatus = s.mstatus := rfl
@[simp] theorem State.advance_medeleg (s : State) : (s.advance).medeleg = s.medeleg := rfl
@[simp] theorem State.advance_mideleg (s : State) : (s.advance).mideleg = s.mideleg := rfl
@[simp] theorem State.advance_mie (s : State) : (s.advance).mie = s.mie := rfl
@[simp] theorem State.advance_mtvec (s : State) : (s.advance).mtvec = s.mtvec := rfl
@[simp] theorem State.advance_mscratch (s : State) : (s.advance).mscratch = s.mscratch := rfl
@[simp] theorem State.advance_mepc (s : State) : (s.advance).mepc = s.mepc := rfl
@[simp] theorem State.advance_mcause (s : State) : (s.advance).mcause = s.mcause := rfl
@[simp] theorem State.advance_mtval (s : State) : (s.advance).mtval = s.mtval := rfl
@[simp] theorem State.advance_mipSoft (s : State) : (s.advance).mipSoft = s.mipSoft := rfl
@[simp] theorem State.advance_stvec (s : State) : (s.advance).stvec = s.stvec := rfl
@[simp] theorem State.advance_sscratch (s : State) : (s.advance).sscratch = s.sscratch := rfl
@[simp] theorem State.advance_sepc (s : State) : (s.advance).sepc = s.sepc := rfl
@[simp] theorem State.advance_scause (s : State) : (s.advance).scause = s.scause := rfl
@[simp] theorem State.advance_stval (s : State) : (s.advance).stval = s.stval := rfl
@[simp] theorem State.advance_satp (s : State) : (s.advance).satp = s.satp := rfl
@[simp] theorem State.advance_pmpcfg (s : State) : (s.advance).pmpcfg = s.pmpcfg := rfl
@[simp] theorem State.advance_pmpaddr (s : State) : (s.advance).pmpaddr = s.pmpaddr := rfl
@[simp] theorem State.advance_tlb (s : State) : (s.advance).tlb = s.tlb := rfl
@[simp] theorem State.advance_waiting (s : State) : (s.advance).waiting = s.waiting := rfl
@[simp] theorem State.advance_waited (s : State) : (s.advance).waited = s.waited := rfl
@[simp] theorem State.advance_mem (s : State) : (s.advance).mem = s.mem := rfl
@[simp] theorem State.advance_stored (s : State) : (s.advance).stored = s.stored := rfl
@[simp] theorem State.advance_mtime (s : State) : (s.advance).mtime = s.mtime := rfl
@[simp] theorem State.advance_mtimecmp (s : State) : (s.advance).mtimecmp = s.mtimecmp := rfl
@[simp] theorem State.advance_msip (s : State) : (s.advance).msip = s.msip := rfl
@[simp] theorem State.advance_meipLine (s : State) : (s.advance).meipLine = s.meipLine := rfl
@[simp] theorem State.advance_seipLine (s : State) : (s.advance).seipLine = s.seipLine := rfl
@[simp] theorem State.advance_now (s : State) : (s.advance).now = s.now := rfl
@[simp] theorem State.advance_script (s : State) : (s.advance).script = s.script := rfl
@[simp] theorem State.advance_tick (s : State) : (s.advance).tick = s.tick := rfl

@[simp] theorem State.advance_pc (s : State) : s.advance.pc = s.nextPc := rfl

/-! ### `enterM` -/

@[simp] theorem State.enterM_cfg (c : Cause) (tval epc : Word) (s : State) : (enterM c tval epc s).cfg = s.cfg := rfl
@[simp] theorem State.enterM_regs (c : Cause) (tval epc : Word) (s : State) : (enterM c tval epc s).regs = s.regs := rfl
@[simp] theorem State.enterM_medeleg (c : Cause) (tval epc : Word) (s : State) : (enterM c tval epc s).medeleg = s.medeleg := rfl
@[simp] theorem State.enterM_mideleg (c : Cause) (tval epc : Word) (s : State) : (enterM c tval epc s).mideleg = s.mideleg := rfl
@[simp] theorem State.enterM_mie (c : Cause) (tval epc : Word) (s : State) : (enterM c tval epc s).mie = s.mie := rfl
@[simp] theorem State.enterM_mtvec (c : Cause) (tval epc : Word) (s : State) : (enterM c tval epc s).mtvec = s.mtvec := rfl
@[simp] theorem State.enterM_mscratch (c : Cause) (tval epc : Word) (s : State) : (enterM c tval epc s).mscratch = s.mscratch := rfl
@[simp] theorem State.enterM_mipSoft (c : Cause) (tval epc : Word) (s : State) : (enterM c tval epc s).mipSoft = s.mipSoft := rfl
@[simp] theorem State.enterM_stvec (c : Cause) (tval epc : Word) (s : State) : (enterM c tval epc s).stvec = s.stvec := rfl
@[simp] theorem State.enterM_sscratch (c : Cause) (tval epc : Word) (s : State) : (enterM c tval epc s).sscratch = s.sscratch := rfl
@[simp] theorem State.enterM_sepc (c : Cause) (tval epc : Word) (s : State) : (enterM c tval epc s).sepc = s.sepc := rfl
@[simp] theorem State.enterM_scause (c : Cause) (tval epc : Word) (s : State) : (enterM c tval epc s).scause = s.scause := rfl
@[simp] theorem State.enterM_stval (c : Cause) (tval epc : Word) (s : State) : (enterM c tval epc s).stval = s.stval := rfl
@[simp] theorem State.enterM_satp (c : Cause) (tval epc : Word) (s : State) : (enterM c tval epc s).satp = s.satp := rfl
@[simp] theorem State.enterM_pmpcfg (c : Cause) (tval epc : Word) (s : State) : (enterM c tval epc s).pmpcfg = s.pmpcfg := rfl
@[simp] theorem State.enterM_pmpaddr (c : Cause) (tval epc : Word) (s : State) : (enterM c tval epc s).pmpaddr = s.pmpaddr := rfl
@[simp] theorem State.enterM_tlb (c : Cause) (tval epc : Word) (s : State) : (enterM c tval epc s).tlb = s.tlb := rfl
@[simp] theorem State.enterM_waiting (c : Cause) (tval epc : Word) (s : State) : (enterM c tval epc s).waiting = s.waiting := rfl
@[simp] theorem State.enterM_waited (c : Cause) (tval epc : Word) (s : State) : (enterM c tval epc s).waited = s.waited := rfl
@[simp] theorem State.enterM_mem (c : Cause) (tval epc : Word) (s : State) : (enterM c tval epc s).mem = s.mem := rfl
@[simp] theorem State.enterM_stored (c : Cause) (tval epc : Word) (s : State) : (enterM c tval epc s).stored = s.stored := rfl
@[simp] theorem State.enterM_mtime (c : Cause) (tval epc : Word) (s : State) : (enterM c tval epc s).mtime = s.mtime := rfl
@[simp] theorem State.enterM_mtimecmp (c : Cause) (tval epc : Word) (s : State) : (enterM c tval epc s).mtimecmp = s.mtimecmp := rfl
@[simp] theorem State.enterM_msip (c : Cause) (tval epc : Word) (s : State) : (enterM c tval epc s).msip = s.msip := rfl
@[simp] theorem State.enterM_meipLine (c : Cause) (tval epc : Word) (s : State) : (enterM c tval epc s).meipLine = s.meipLine := rfl
@[simp] theorem State.enterM_seipLine (c : Cause) (tval epc : Word) (s : State) : (enterM c tval epc s).seipLine = s.seipLine := rfl
@[simp] theorem State.enterM_now (c : Cause) (tval epc : Word) (s : State) : (enterM c tval epc s).now = s.now := rfl
@[simp] theorem State.enterM_script (c : Cause) (tval epc : Word) (s : State) : (enterM c tval epc s).script = s.script := rfl
@[simp] theorem State.enterM_tick (c : Cause) (tval epc : Word) (s : State) : (enterM c tval epc s).tick = s.tick := rfl

/-! ### `enterS` -/

@[simp] theorem State.enterS_cfg (c : Cause) (tval epc : Word) (s : State) : (enterS c tval epc s).cfg = s.cfg := rfl
@[simp] theorem State.enterS_regs (c : Cause) (tval epc : Word) (s : State) : (enterS c tval epc s).regs = s.regs := rfl
@[simp] theorem State.enterS_medeleg (c : Cause) (tval epc : Word) (s : State) : (enterS c tval epc s).medeleg = s.medeleg := rfl
@[simp] theorem State.enterS_mideleg (c : Cause) (tval epc : Word) (s : State) : (enterS c tval epc s).mideleg = s.mideleg := rfl
@[simp] theorem State.enterS_mie (c : Cause) (tval epc : Word) (s : State) : (enterS c tval epc s).mie = s.mie := rfl
@[simp] theorem State.enterS_mtvec (c : Cause) (tval epc : Word) (s : State) : (enterS c tval epc s).mtvec = s.mtvec := rfl
@[simp] theorem State.enterS_mscratch (c : Cause) (tval epc : Word) (s : State) : (enterS c tval epc s).mscratch = s.mscratch := rfl
@[simp] theorem State.enterS_mepc (c : Cause) (tval epc : Word) (s : State) : (enterS c tval epc s).mepc = s.mepc := rfl
@[simp] theorem State.enterS_mcause (c : Cause) (tval epc : Word) (s : State) : (enterS c tval epc s).mcause = s.mcause := rfl
@[simp] theorem State.enterS_mtval (c : Cause) (tval epc : Word) (s : State) : (enterS c tval epc s).mtval = s.mtval := rfl
@[simp] theorem State.enterS_mipSoft (c : Cause) (tval epc : Word) (s : State) : (enterS c tval epc s).mipSoft = s.mipSoft := rfl
@[simp] theorem State.enterS_stvec (c : Cause) (tval epc : Word) (s : State) : (enterS c tval epc s).stvec = s.stvec := rfl
@[simp] theorem State.enterS_sscratch (c : Cause) (tval epc : Word) (s : State) : (enterS c tval epc s).sscratch = s.sscratch := rfl
@[simp] theorem State.enterS_satp (c : Cause) (tval epc : Word) (s : State) : (enterS c tval epc s).satp = s.satp := rfl
@[simp] theorem State.enterS_pmpcfg (c : Cause) (tval epc : Word) (s : State) : (enterS c tval epc s).pmpcfg = s.pmpcfg := rfl
@[simp] theorem State.enterS_pmpaddr (c : Cause) (tval epc : Word) (s : State) : (enterS c tval epc s).pmpaddr = s.pmpaddr := rfl
@[simp] theorem State.enterS_tlb (c : Cause) (tval epc : Word) (s : State) : (enterS c tval epc s).tlb = s.tlb := rfl
@[simp] theorem State.enterS_waiting (c : Cause) (tval epc : Word) (s : State) : (enterS c tval epc s).waiting = s.waiting := rfl
@[simp] theorem State.enterS_waited (c : Cause) (tval epc : Word) (s : State) : (enterS c tval epc s).waited = s.waited := rfl
@[simp] theorem State.enterS_mem (c : Cause) (tval epc : Word) (s : State) : (enterS c tval epc s).mem = s.mem := rfl
@[simp] theorem State.enterS_stored (c : Cause) (tval epc : Word) (s : State) : (enterS c tval epc s).stored = s.stored := rfl
@[simp] theorem State.enterS_mtime (c : Cause) (tval epc : Word) (s : State) : (enterS c tval epc s).mtime = s.mtime := rfl
@[simp] theorem State.enterS_mtimecmp (c : Cause) (tval epc : Word) (s : State) : (enterS c tval epc s).mtimecmp = s.mtimecmp := rfl
@[simp] theorem State.enterS_msip (c : Cause) (tval epc : Word) (s : State) : (enterS c tval epc s).msip = s.msip := rfl
@[simp] theorem State.enterS_meipLine (c : Cause) (tval epc : Word) (s : State) : (enterS c tval epc s).meipLine = s.meipLine := rfl
@[simp] theorem State.enterS_seipLine (c : Cause) (tval epc : Word) (s : State) : (enterS c tval epc s).seipLine = s.seipLine := rfl
@[simp] theorem State.enterS_now (c : Cause) (tval epc : Word) (s : State) : (enterS c tval epc s).now = s.now := rfl
@[simp] theorem State.enterS_script (c : Cause) (tval epc : Word) (s : State) : (enterS c tval epc s).script = s.script := rfl
@[simp] theorem State.enterS_tick (c : Cause) (tval epc : Word) (s : State) : (enterS c tval epc s).tick = s.tick := rfl

@[simp] theorem State.enterM_mepc (c : Cause) (tval epc : Word) (s : State) : (enterM c tval epc s).mepc = epc := rfl
@[simp] theorem State.enterM_mcause (c : Cause) (tval epc : Word) (s : State) : (enterM c tval epc s).mcause = causeWord s.cfg.xlen c := rfl
@[simp] theorem State.enterM_mtval (c : Cause) (tval epc : Word) (s : State) : (enterM c tval epc s).mtval = tval := rfl
@[simp] theorem State.enterM_priv (c : Cause) (tval epc : Word) (s : State) : (enterM c tval epc s).priv = .M := rfl
@[simp] theorem State.enterM_pc (c : Cause) (tval epc : Word) (s : State) : (enterM c tval epc s).pc = trapVector s.cfg.xlen s.mtvec c := rfl

@[simp] theorem State.enterS_sepc (c : Cause) (tval epc : Word) (s : State) : (enterS c tval epc s).sepc = epc := rfl
@[simp] theorem State.enterS_scause (c : Cause) (tval epc : Word) (s : State) : (enterS c tval epc s).scause = causeWord s.cfg.xlen c := rfl
@[simp] theorem State.enterS_stval (c : Cause) (tval epc : Word) (s : State) : (enterS c tval epc s).stval = tval := rfl
@[simp] theorem State.enterS_priv (c : Cause) (tval epc : Word) (s : State) : (enterS c tval epc s).priv = .S := rfl
@[simp] theorem State.enterS_pc (c : Cause) (tval epc : Word) (s : State) : (enterS c tval epc s).pc = trapVector s.cfg.xlen s.stvec c := rfl

/-! ### `takeTrap` -/

@[simp] theorem State.takeTrap_cfg (c : Cause) (tval epc : Word) (s : State) : (takeTrap c tval epc s).cfg = s.cfg := by unfold takeTrap; split <;> rfl
@[simp] theorem State.takeTrap_regs (c : Cause) (tval epc : Word) (s : State) : (takeTrap c tval epc s).regs = s.regs := by unfold takeTrap; split <;> rfl
@[simp] theorem State.takeTrap_medeleg (c : Cause) (tval epc : Word) (s : State) : (takeTrap c tval epc s).medeleg = s.medeleg := by unfold takeTrap; split <;> rfl
@[simp] theorem State.takeTrap_mideleg (c : Cause) (tval epc : Word) (s : State) : (takeTrap c tval epc s).mideleg = s.mideleg := by unfold takeTrap; split <;> rfl
@[simp] theorem State.takeTrap_mie (c : Cause) (tval epc : Word) (s : State) : (takeTrap c tval epc s).mie = s.mie := by unfold takeTrap; split <;> rfl
@[simp] theorem State.takeTrap_mtvec (c : Cause) (tval epc : Word) (s : State) : (takeTrap c tval epc s).mtvec = s.mtvec := by unfold takeTrap; split <;> rfl
@[simp] theorem State.takeTrap_mscratch (c : Cause) (tval epc : Word) (s : State) : (takeTrap c tval epc s).mscratch = s.mscratch := by unfold takeTrap; split <;> rfl
@[simp] theorem State.takeTrap_mipSoft (c : Cause) (tval epc : Word) (s : State) : (takeTrap c tval epc s).mipSoft = s.mipSoft := by unfold takeTrap; split <;> rfl
@[simp] theorem State.takeTrap_stvec (c : Cause) (tval epc : Word) (s : State) : (takeTrap c tval epc s).stvec = s.stvec := by unfold takeTrap; split <;> rfl
@[simp] theorem State.takeTrap_sscratch (c : Cause) (tval epc : Word) (s : State) : (takeTrap c tval epc s).sscratch = s.sscratch := by unfold takeTrap; split <;> rfl
@[simp] theorem State.takeTrap_satp (c : Cause) (tval epc : Word) (s : State) : (takeTrap c tval epc s).satp = s.satp := by unfold takeTrap; split <;> rfl
@[simp] theorem State.takeTrap_pmpcfg (c : Cause) (tval epc : Word) (s : State) : (takeTrap c tval epc s).pmpcfg = s.pmpcfg := by unfold takeTrap; split <;> rfl
@[simp] theorem State.takeTrap_pmpaddr (c : Cause) (tval epc : Word) (s : State) : (takeTrap c tval epc s).pmpaddr = s.pmpaddr := by unfold takeTrap; split <;> rfl
@[simp] theorem State.takeTrap_tlb (c : Cause) (tval epc : Word) (s : State) : (takeTrap c tval epc s).tlb = s.tlb := by unfold takeTrap; split <;> rfl
@[simp] theorem State.takeTrap_waiting (c : Cause) (tval epc : Word) (s : State) : (takeTrap c tval epc s).waiting = s.waiting := by unfold takeTrap; split <;> rfl
@[simp] theorem State.takeTrap_waited (c : Cause) (tval epc : Word) (s : State) : (takeTrap c tval epc s).waited = s.waited := by unfold takeTrap; split <;> rfl
@[simp] theorem State.takeTrap_mem (c : Cause) (tval epc : Word) (s : State) : (takeTrap c tval epc s).mem = s.mem := by unfold takeTrap; split <;> rfl
@[simp] theorem State.takeTrap_stored (c : Cause) (tval epc : Word) (s : State) : (takeTrap c tval epc s).stored = s.stored := by unfold takeTrap; split <;> rfl
@[simp] theorem State.takeTrap_mtime (c : Cause) (tval epc : Word) (s : State) : (takeTrap c tval epc s).mtime = s.mtime := by unfold takeTrap; split <;> rfl
@[simp] theorem State.takeTrap_mtimecmp (c : Cause) (tval epc : Word) (s : State) : (takeTrap c tval epc s).mtimecmp = s.mtimecmp := by unfold takeTrap; split <;> rfl
@[simp] theorem State.takeTrap_msip (c : Cause) (tval epc : Word) (s : State) : (takeTrap c tval epc s).msip = s.msip := by unfold takeTrap; split <;> rfl
@[simp] theorem State.takeTrap_meipLine (c : Cause) (tval epc : Word) (s : State) : (takeTrap c tval epc s).meipLine = s.meipLine := by unfold takeTrap; split <;> rfl
@[simp] theorem State.takeTrap_seipLine (c : Cause) (tval epc : Word) (s : State) : (takeTrap c tval epc s).seipLine = s.seipLine := by unfold takeTrap; split <;> rfl
@[simp] theorem State.takeTrap_now (c : Cause) (tval epc : Word) (s : State) : (takeTrap c tval epc s).now = s.now := by unfold takeTrap; split <;> rfl
@[simp] theorem State.takeTrap_script (c : Cause) (tval epc : Word) (s : State) : (takeTrap c tval epc s).script = s.script := by unfold takeTrap; split <;> rfl
@[simp] theorem State.takeTrap_tick (c : Cause) (tval epc : Word) (s : State) : (takeTrap c tval epc s).tick = s.tick := by unfold takeTrap; split <;> rfl

/-! ### `raise` -/

@[simp] theorem State.raise_cfg (e : Exc) (tval : Word) (s : State) : (raise e tval s).cfg = s.cfg := by unfold raise; simp
@[simp] theorem State.raise_regs (e : Exc) (tval : Word) (s : State) : (raise e tval s).regs = s.regs := by unfold raise; simp
@[simp] theorem State.raise_medeleg (e : Exc) (tval : Word) (s : State) : (raise e tval s).medeleg = s.medeleg := by unfold raise; simp
@[simp] theorem State.raise_mideleg (e : Exc) (tval : Word) (s : State) : (raise e tval s).mideleg = s.mideleg := by unfold raise; simp
@[simp] theorem State.raise_mie (e : Exc) (tval : Word) (s : State) : (raise e tval s).mie = s.mie := by unfold raise; simp
@[simp] theorem State.raise_mtvec (e : Exc) (tval : Word) (s : State) : (raise e tval s).mtvec = s.mtvec := by unfold raise; simp
@[simp] theorem State.raise_mscratch (e : Exc) (tval : Word) (s : State) : (raise e tval s).mscratch = s.mscratch := by unfold raise; simp
@[simp] theorem State.raise_mipSoft (e : Exc) (tval : Word) (s : State) : (raise e tval s).mipSoft = s.mipSoft := by unfold raise; simp
@[simp] theorem State.raise_stvec (e : Exc) (tval : Word) (s : State) : (raise e tval s).stvec = s.stvec := by unfold raise; simp
@[simp] theorem State.raise_sscratch (e : Exc) (tval : Word) (s : State) : (raise e tval s).sscratch = s.sscratch := by unfold raise; simp
@[simp] theorem State.raise_satp (e : Exc) (tval : Word) (s : State) : (raise e tval s).satp = s.satp := by unfold raise; simp
@[simp] theorem State.raise_pmpcfg (e : Exc) (tval : Word) (s : State) : (raise e tval s).pmpcfg = s.pmpcfg := by unfold raise; simp
@[simp] theorem State.raise_pmpaddr (e : Exc) (tval : Word) (s : State) : (raise e tval s).pmpaddr = s.pmpaddr := by unfold raise; simp
@[simp] theorem State.raise_tlb (e : Exc) (tval : Word) (s : State) : (raise e tval s).tlb = s.tlb := by unfold raise; simp
@[simp] theorem State.raise_waiting (e : Exc) (tval : Word) (s : State) : (raise e tval s).waiting = s.waiting := by unfold raise; simp
@[simp] theorem State.raise_waited (e : Exc) (tval : Word) (s : State) : (raise e tval s).waited = s.waited := by unfold raise; simp
@[simp] theorem State.raise_mem (e : Exc) (tval : Word) (s : State) : (raise e tval s).mem = s.mem := by unfold raise; simp
@[simp] theorem State.raise_stored (e : Exc) (tval : Word) (s : State) : (raise e tval s).stored = s.stored := by unfold raise; simp
@[simp] theorem State.raise_mtime (e : Exc) (tval : Word) (s : State) : (raise e tval s).mtime = s.mtime := by unfold raise; simp
@[simp] theorem State.raise_mtimecmp (e : Exc) (tval : Word) (s : State) : (raise e tval s).mtimecmp = s.mtimecmp := by unfold raise; simp
@[simp] theorem State.raise_msip (e : Exc) (tval : Word) (s : State) : (raise e tval s).msip = s.msip := by unfold raise; simp
@[simp] theorem State.raise_meipLine (e : Exc) (tval : Word) (s : State) : (raise e tval s).meipLine = s.meipLine := by unfold raise; simp
@[simp] theorem State.raise_seipLine (e : Exc) (tval : Word) (s : State) : (raise e tval s).seipLine = s.seipLine := by unfold raise; simp
@[simp] theorem State.raise_now (e : Exc) (tval : Word) (s : State) : (raise e tval s).now = s.now := by unfold raise; simp
@[simp] theorem State.raise_script (e : Exc) (tval : Word) (s : State) : (raise e tval s).script = s.script := by unfold raise; simp
@[simp] theorem State.raise_tick (e : Exc) (tval : Word) (s : State) : (raise e tval s).tick = s.tick := by unfold raise; simp

/-! ### `returnM` -/

@[simp] theorem State.returnM_cfg (s : State) : (returnM s).cfg = s.cfg := rfl
@[simp] theorem State.returnM_regs (s : State) : (returnM s).regs = s.regs := rfl
@[simp] theorem State.returnM_medeleg (s : State) : (returnM s).medeleg = s.medeleg := rfl
@[simp] theorem State.returnM_mideleg (s : State) : (returnM s).mideleg = s.mideleg := rfl
@[simp] theorem State.returnM_mie (s : State) : (returnM s).mie = s.mie := rfl
@[simp] theorem State.returnM_mtvec (s : State) : (returnM s).mtvec = s.mtvec := rfl
@[simp] theorem State.returnM_mscratch (s : State) : (returnM s).mscratch = s.mscratch := rfl
@[simp] theorem State.returnM_mepc (s : State) : (returnM s).mepc = s.mepc := rfl
@[simp] theorem State.returnM_mcause (s : State) : (returnM s).mcause = s.mcause := rfl
@[simp] theorem State.returnM_mtval (s : State) : (returnM s).mtval = s.mtval := rfl
@[simp] theorem State.returnM_mipSoft (s : State) : (returnM s).mipSoft = s.mipSoft := rfl
@[simp] theorem State.returnM_stvec (s : State) : (returnM s).stvec = s.stvec := rfl
@[simp] theorem State.returnM_sscratch (s : State) : (returnM s).sscratch = s.sscratch := rfl
@[simp] theorem State.returnM_sepc (s : State) : (returnM s).sepc = s.sepc := rfl
@[simp] theorem State.returnM_scause (s : State) : (returnM s).scause = s.scause := rfl
@[simp] theorem State.returnM_stval (s : State) : (returnM s).stval = s.stval := rfl
@[simp] theorem State.returnM_satp (s : State) : (returnM s).satp = s.satp := rfl
@[simp] theorem State.returnM_pmpcfg (s : State) : (returnM s).pmpcfg = s.pmpcfg := rfl
@[simp] theorem State.returnM_pmpaddr (s : State) : (returnM s).pmpaddr = s.pmpaddr := rfl
@[simp] theorem State.returnM_tlb (s : State) : (returnM s).tlb = s.tlb := rfl
@[simp] theorem State.returnM_waiting (s : State) : (returnM s).waiting = s.waiting := rfl
@[simp] theorem State.returnM_waited (s : State) : (returnM s).waited = s.waited := rfl
@[simp] theorem State.returnM_mem (s : State) : (returnM s).mem = s.mem := rfl
@[simp] theorem State.returnM_stored (s : State) : (returnM s).stored = s.stored := rfl
@[simp] theorem State.returnM_mtime (s : State) : (returnM s).mtime = s.mtime := rfl
@[simp] theorem State.returnM_mtimecmp (s : State) : (returnM s).mtimecmp = s.mtimecmp := rfl
@[simp] theorem State.returnM_msip (s : State) : (returnM s).msip = s.msip := rfl
@[simp] theorem State.returnM_meipLine (s : State) : (returnM s).meipLine = s.meipLine := rfl
@[simp] theorem State.returnM_seipLine (s : State) : (returnM s).seipLine = s.seipLine := rfl
@[simp] theorem State.returnM_now (s : State) : (returnM s).now = s.now := rfl
@[simp] theorem State.returnM_script (s : State) : (returnM s).script = s.script := rfl
@[simp] theorem State.returnM_tick (s : State) : (returnM s).tick = s.tick := rfl

/-! ### `returnS` -/

@[simp] theorem State.returnS_cfg (s : State) : (returnS s).cfg = s.cfg := rfl
@[simp] theorem State.returnS_regs (s : State) : (returnS s).regs = s.regs := rfl
@[simp] theorem State.returnS_medeleg (s : State) : (returnS s).medeleg = s.medeleg := rfl
@[simp] theorem State.returnS_mideleg (s : State) : (returnS s).mideleg = s.mideleg := rfl
@[simp] theorem State.returnS_mie (s : State) : (returnS s).mie = s.mie := rfl
@[simp] theorem State.returnS_mtvec (s : State) : (returnS s).mtvec = s.mtvec := rfl
@[simp] theorem State.returnS_mscratch (s : State) : (returnS s).mscratch = s.mscratch := rfl
@[simp] theorem State.returnS_mepc (s : State) : (returnS s).mepc = s.mepc := rfl
@[simp] theorem State.returnS_mcause (s : State) : (returnS s).mcause = s.mcause := rfl
@[simp] theorem State.returnS_mtval (s : State) : (returnS s).mtval = s.mtval := rfl
@[simp] theorem State.returnS_mipSoft (s : State) : (returnS s).mipSoft = s.mipSoft := rfl
@[simp] theorem State.returnS_stvec (s : State) : (returnS s).stvec = s.stvec := rfl
@[simp] theorem State.returnS_sscratch (s : State) : (returnS s).sscratch = s.sscratch := rfl
@[simp] theorem State.returnS_sepc (s : State) : (returnS s).sepc = s.sepc := rfl
@[simp] theorem State.returnS_scause (s : State) : (returnS s).scause = s.scause := rfl
@[simp] theorem State.returnS_stval (s : State) : (returnS s).stval = s.stval := rfl
@[simp] theorem State.returnS_satp (s : State) : (returnS s).satp = s.satp := rfl
@[simp] theorem State.returnS_pmpcfg (s : State) : (returnS s).pmpcfg = s.pmpcfg := rfl
@[simp] theorem State.returnS_pmpaddr (s : State) : (returnS s).pmpaddr = s.pmpaddr := rfl
@[simp] theorem State.returnS_tlb (s : State) : (returnS s).tlb = s.tlb := rfl
@[simp] theorem State.returnS_waiting (s : State) : (returnS s).waiting = s.waiting := rfl
@[simp] theorem State.returnS_waited (s : State) : (returnS s).waited = s.waited := rfl
@[simp] theorem State.returnS_mem (s : State) : (returnS s).mem = s.mem := rfl
@[simp] theorem State.returnS_stored (s : State) : (returnS s).stored = s.stored := rfl
@[simp] theorem State.returnS_mtime (s : State) : (returnS s).mtime = s.mtime := rfl
@[simp] theorem State.returnS_mtimecmp (s : State) : (returnS s).mtimecmp = s.mtimecmp := rfl
@[simp] theorem State.returnS_msip (s : State) : (returnS s).msip = s.msip := rfl
@[simp] theorem State.returnS_meipLine (s : State) : (returnS s).meipLine = s.meipLine := rfl
@[simp] theorem State.returnS_seipLine (s : State) : (returnS s).seipLine = s.seipLine := rfl
@[simp] theorem State.returnS_now (s : State) : (returnS s).now = s.now := rfl
@[simp] theorem State.returnS_script (s : State) : (returnS s).script = s.script := rfl
@[simp] theorem State.returnS_tick (s : State) : (returnS s).tick = s.tick := rfl

@[simp] theorem State.returnM_pc (s : State) : (returnM s).pc = s.mepc := rfl
@[simp] theorem State.returnS_pc (s : State) : (returnS s).pc = s.sepc := rfl
@[simp] theorem State.returnS_priv (s : State) : (returnS s).priv = sppOf s.mstatus := rfl

/-! ### `drawChoices` -/

@[simp] theorem State.drawChoices_cfg (s : State) : (drawChoices s).cfg = s.cfg := by unfold drawChoices; split <;> rfl
@[simp] theorem State.drawChoices_regs (s : State) : (drawChoices s).regs = s.regs := by unfold drawChoices; split <;> rfl
@[simp] theorem State.drawChoices_pc (s : State) : (drawChoices s).pc = s.pc := by unfold drawChoices; split <;> rfl
@[simp] theorem State.drawChoices_priv (s : State) : (drawChoices s).priv = s.priv := by unfold drawChoices; split <;> rfl
@[simp] theorem State.drawChoices_mstatus (s : State) : (drawChoices s).mstatus = s.mstatus := by unfold drawChoices; split <;> rfl
@[simp] theorem State.drawChoices_medeleg (s : State) : (drawChoices s).medeleg = s.medeleg := by unfold drawChoices; split <;> rfl
@[simp] theorem State.drawChoices_mideleg (s : State) : (drawChoices s).mideleg = s.mideleg := by unfold drawChoices; split <;> rfl
@[simp] theorem State.drawChoices_mie (s : State) : (drawChoices s).mie = s.mie := by unfold drawChoices; split <;> rfl
@[simp] theorem State.drawChoices_mtvec (s : State) : (drawChoices s).mtvec = s.mtvec := by unfold drawChoices; split <;> rfl
@[simp] theorem State.drawChoices_mscratch (s : State) : (drawChoices s).mscratch = s.mscratch := by unfold drawChoices; split <;> rfl
@[simp] theorem State.drawChoices_mepc (s : State) : (drawChoices s).mepc = s.mepc := by unfold drawChoices; split <;> rfl
@[simp] theorem State.drawChoices_mcause (s : State) : (drawChoices s).mcause = s.mcause := by unfold drawChoices; split <;> rfl
@[simp] theorem State.drawChoices_mtval (s : State) : (drawChoices s).mtval = s.mtval := by unfold drawChoices; split <;> rfl
@[simp] theorem State.drawChoices_mipSoft (s : State) : (drawChoices s).mipSoft = s.mipSoft := by unfold drawChoices; split <;> rfl
@[simp] theorem State.drawChoices_stvec (s : State) : (drawChoices s).stvec = s.stvec := by unfold drawChoices; split <;> rfl
@[simp] theorem State.drawChoices_sscratch (s : State) : (drawChoices s).sscratch = s.sscratch := by unfold drawChoices; split <;> rfl
@[simp] theorem State.drawChoices_sepc (s : State) : (drawChoices s).sepc = s.sepc := by unfold drawChoices; split <;> rfl
@[simp] theorem State.drawChoices_scause (s : State) : (drawChoices s).scause = s.scause := by unfold drawChoices; split <;> rfl
@[simp] theorem State.drawChoices_stval (s : State) : (drawChoices s).stval = s.stval := by unfold drawChoices; split <;> rfl
@[simp] theorem State.drawChoices_satp (s : State) : (drawChoices s).satp = s.satp := by unfold drawChoices; split <;> rfl
@[simp] theorem State.drawChoices_pmpcfg (s : State) : (drawChoices s).pmpcfg = s.pmpcfg := by unfold drawChoices; split <;> rfl
@[simp] theorem State.drawChoices_pmpaddr (s : State) : (drawChoices s).pmpaddr = s.pmpaddr := by unfold drawChoices; split <;> rfl
@[simp] theorem State.drawChoices_tlb (s : State) : (drawChoices s).tlb = s.tlb := by unfold drawChoices; split <;> rfl
@[simp] theorem State.drawChoices_waiting (s : State) : (drawChoices s).waiting = s.waiting := by unfold drawChoices; split <;> rfl
@[simp] theorem State.drawChoices_waited (s : State) : (drawChoices s).waited = s.waited := by unfold drawChoices; split <;> rfl
@[simp] theorem State.drawChoices_mem (s : State) : (drawChoices s).mem = s.mem := by unfold drawChoices; split <;> rfl
@[simp] theorem State.drawChoices_stored (s : State) : (drawChoices s).stored = s.stored := by unfold drawChoices; split <;> rfl
@[simp] theorem State.drawChoices_mtime (s : State) : (drawChoices s).mtime = s.mtime := by unfold drawChoices; split <;> rfl
@[simp] theorem State.drawChoices_mtimecmp (s : State) : (drawChoices s).mtimecmp = s.mtimecmp := by unfold drawChoices; split <;> rfl
@[simp] theorem State.drawChoices_msip (s : State) : (drawChoices s).msip = s.msip := by unfold drawChoices; split <;> rfl
@[simp] theorem State.drawChoices_meipLine (s : State) : (drawChoices s).meipLine = s.meipLine := by unfold drawChoices; split <;> rfl
@[simp] theorem State.drawChoices_seipLine (s : State) : (drawChoices s).seipLine = s.seipLine := by unfold drawChoices; split <;> rfl

/-! ### `environment` -/

@[simp] theorem State.environment_cfg (s : State) : (environment s).cfg = s.cfg := rfl
@[simp] theorem State.environment_regs (s : State) : (environment s).regs = s.regs := rfl
@[simp] theorem State.environment_pc (s : State) : (environment s).pc = s.pc := rfl
@[simp] theorem State.environment_priv (s : State) : (environment s).priv = s.priv := rfl
@[simp] theorem State.environment_mstatus (s : State) : (environment s).mstatus = s.mstatus := rfl
@[simp] theorem State.environment_medeleg (s : State) : (environment s).medeleg = s.medeleg := rfl
@[simp] theorem State.environment_mideleg (s : State) : (environment s).mideleg = s.mideleg := rfl
@[simp] theorem State.environment_mie (s : State) : (environment s).mie = s.mie := rfl
@[simp] theorem State.environment_mtvec (s : State) : (environment s).mtvec = s.mtvec := rfl
@[simp] theorem State.environment_mscratch (s : State) : (environment s).mscratch = s.mscratch := rfl
@[simp] theorem State.environment_mepc (s : State) : (environment s).mepc = s.mepc := rfl
@[simp] theorem State.environment_mcause (s : State) : (environment s).mcause = s.mcause := rfl
@[simp] theorem State.environment_mtval (s : State) : (environment s).mtval = s.mtval := rfl
@[simp] theorem State.environment_mipSoft (s : State) : (environment s).mipSoft = s.mipSoft := rfl
@[simp] theorem State.environment_stvec (s : State) : (environment s).stvec = s.stvec := rfl
@[simp] theorem State.environment_sscratch (s : State) : (environment s).sscratch = s.sscratch := rfl
@[simp] theorem State.environment_sepc (s : State) : (environment s).sepc = s.sepc := rfl
@[simp] theorem State.environment_scause (s : State) : (environment s).scause = s.scause := rfl
@[simp] theorem State.environment_stval (s : State) : (environment s).stval = s.stval := rfl
@[simp] theorem State.environment_satp (s : State) : (environment s).satp = s.satp := rfl
@[simp] theorem State.environment_pmpcfg (s : State) : (environment s).pmpcfg = s.pmpcfg := rfl
@[simp] theorem State.environment_pmpaddr (s : State) : (environment s).pmpaddr = s.pmpaddr := rfl
@[simp] theorem State.environment_waiting (s : State) : (environment s).waiting = s.waiting := rfl
@[simp] theorem State.environment_waited (s : State) : (environment s).waited = s.waited := rfl
@[simp] theorem State.environment_mem (s : State) : (environment s).mem = s.mem := rfl
@[simp] theorem State.environment_stored (s : State) : (environment s).stored = s.stored := rfl
@[simp] theorem State.environment_mtimecmp (s : State) : (environment s).mtimecmp = s.mtimecmp := rfl
@[simp] theorem State.environment_now (s : State) : (environment s).now = s.now := rfl
@[simp] theorem State.environment_script (s : State) : (environment s).script = s.script := rfl
@[simp] theorem State.environment_tick (s : State) : (environment s).tick = s.tick := rfl

/-! ### `endWait` -/

@[simp] theorem State.endWait_cfg (s : State) : (endWait s).cfg = s.cfg := rfl
@[simp] theorem State.endWait_regs (s : State) : (endWait s).regs = s.regs := rfl
@[simp] theorem State.endWait_priv (s : State) : (endWait s).priv = s.priv := rfl
@[simp] theorem State.endWait_mstatus (s : State) : (endWait s).mstatus = s.mstatus := rfl
@[simp] theorem State.endWait_medeleg (s : State) : (endWait s).medeleg = s.medeleg := rfl
@[simp] theorem State.endWait_mideleg (s : State) : (endWait s).mideleg = s.mideleg := rfl
@[simp] theorem State.endWait_mie (s : State) : (endWait s).mie = s.mie := rfl
@[simp] theorem State.endWait_mtvec (s : State) : (endWait s).mtvec = s.mtvec := rfl
@[simp] theorem State.endWait_mscratch (s : State) : (endWait s).mscratch = s.mscratch := rfl
@[simp] theorem State.endWait_mepc (s : State) : (endWait s).mepc = s.mepc := rfl
@[simp] theorem State.endWait_mcause (s : State) : (endWait s).mcause = s.mcause := rfl
@[simp] theorem State.endWait_mtval (s : State) : (endWait s).mtval = s.mtval := rfl
@[simp] theorem State.endWait_mipSoft (s : State) : (endWait s).mipSoft = s.mipSoft := rfl
@[simp] theorem State.endWait_stvec (s : State) : (endWait s).stvec = s.stvec := rfl
@[simp] theorem State.endWait_sscratch (s : State) : (endWait s).sscratch = s.sscratch := rfl
@[simp] theorem State.endWait_sepc (s : State) : (endWait s).sepc = s.sepc := rfl
@[simp] theorem State.endWait_scause (s : State) : (endWait s).scause = s.scause := rfl
@[simp] theorem State.endWait_stval (s : State) : (endWait s).stval = s.stval := rfl
@[simp] theorem State.endWait_satp (s : State) : (endWait s).satp = s.satp := rfl
@[simp] theorem State.endWait_pmpcfg (s : State) : (endWait s).pmpcfg = s.pmpcfg := rfl
@[simp] theorem State.endWait_pmpaddr (s : State) : (endWait s).pmpaddr = s.pmpaddr := rfl
@[simp] theorem State.endWait_tlb (s : State) : (endWait s).tlb = s.tlb := rfl
@[simp] theorem State.endWait_mem (s : State) : (endWait s).mem = s.mem := rfl
@[simp] theorem State.endWait_stored (s : State) : (endWait s).stored = s.stored := rfl
@[simp] theorem State.endWait_mtime (s : State) : (endWait s).mtime = s.mtime := rfl
@[simp] theorem State.endWait_mtimecmp (s : State) : (endWait s).mtimecmp = s.mtimecmp := rfl
@[simp] theorem State.endWait_msip (s : State) : (endWait s).msip = s.msip := rfl
@[simp] theorem State.endWait_meipLine (s : State) : (endWait s).meipLine = s.meipLine := rfl
@[simp] theorem State.endWait_seipLine (s : State) : (endWait s).seipLine = s.seipLine := rfl
@[simp] theorem State.endWait_now (s : State) : (endWait s).now = s.now := rfl
@[simp] theorem State.endWait_script (s : State) : (endWait s).script = s.script := rfl
@[simp] theorem State.endWait_tick (s : State) : (endWait s).tick = s.tick := rfl

/-! ### `stayWaiting` -/

@[simp] theorem State.stayWaiting_cfg (s : State) : (stayWaiting s).cfg = s.cfg := rfl
@[simp] theorem State.stayWaiting_regs (s : State) : (stayWaiting s).regs = s.regs := rfl
@[simp] theorem State.stayWaiting_pc (s : State) : (stayWaiting s).pc = s.pc := rfl
@[simp] theorem State.stayWaiting_priv (s : State) : (stayWaiting s).priv = s.priv := rfl
@[simp] theorem State.stayWaiting_mstatus (s : State) : (stayWaiting s).mstatus = s.mstatus := rfl
@[simp] theorem State.stayWaiting_medeleg (s : State) : (stayWaiting s).medeleg = s.medeleg := rfl
@[simp] theorem State.stayWaiting_mideleg (s : State) : (stayWaiting s).mideleg = s.mideleg := rfl
@[simp] theorem State.stayWaiting_mie (s : State) : (stayWaiting s).mie = s.mie := rfl
@[simp] theorem State.stayWaiting_mtvec (s : State) : (stayWaiting s).mtvec = s.mtvec := rfl
@[simp] theorem State.stayWaiting_mscratch (s : State) : (stayWaiting s).mscratch = s.mscratch := rfl
@[simp] theorem State.stayWaiting_mepc (s : State) : (stayWaiting s).mepc = s.mepc := rfl
@[simp] theorem State.stayWaiting_mcause (s : State) : (stayWaiting s).mcause = s.mcause := rfl
@[simp] theorem State.stayWaiting_mtval (s : State) : (stayWaiting s).mtval = s.mtval := rfl
@[simp] theorem State.stayWaiting_mipSoft (s : State) : (stayWaiting s).mipSoft = s.mipSoft := rfl
@[simp] theorem State.stayWaiting_stvec (s : State) : (stayWaiting s).stvec = s.stvec := rfl
@[simp] theorem State.stayWaiting_sscratch (s : State) : (stayWaiting s).sscratch = s.sscratch := rfl
@[simp] theorem State.stayWaiting_sepc (s : State) : (stayWaiting s).sepc = s.sepc := rfl
@[simp] theorem State.stayWaiting_scause (s : State) : (stayWaiting s).scause = s.scause := rfl
@[simp] theorem State.stayWaiting_stval (s : State) : (stayWaiting s).stval = s.stval := rfl
@[simp] theorem State.stayWaiting_satp (s : State) : (stayWaiting s).satp = s.satp := rfl
@[simp] theorem State.stayWaiting_pmpcfg (s : State) : (stayWaiting s).pmpcfg = s.pmpcfg := rfl
@[simp] theorem State.stayWaiting_pmpaddr (s : State) : (stayWaiting s).pmpaddr = s.pmpaddr := rfl
@[simp] theorem State.stayWaiting_tlb (s : State) : (stayWaiting s).tlb = s.tlb := rfl
@[simp] theorem State.stayWaiting_waiting (s : State) : (stayWaiting s).waiting = s.waiting := rfl
@[simp] theorem State.stayWaiting_mem (s : State) : (stayWaiting s).mem = s.mem := rfl
@[simp] theorem State.stayWaiting_stored (s : State) : (stayWaiting s).stored = s.stored := rfl
@[simp] theorem State.stayWaiting_mtime (s : State) : (stayWaiting s).mtime = s.mtime := rfl
@[simp] theorem State.stayWaiting_mtimecmp (s : State) : (stayWaiting s).mtimecmp = s.mtimecmp := rfl
@[simp] theorem State.stayWaiting_msip (s : State) : (stayWaiting s).msip = s.msip := rfl
@[simp] theorem State.stayWaiting_meipLine (s : State) : (stayWaiting s).meipLine = s.meipLine := rfl
@[simp] theorem State.stayWaiting_seipLine (s : State) : (stayWaiting s).seipLine = s.seipLine := rfl
@[simp] theorem State.stayWaiting_now (s : State) : (stayWaiting s).now = s.now := rfl
@[simp] theorem State.stayWaiting_script (s : State) : (stayWaiting s).script = s.script := rfl
@[simp] theorem State.stayWaiting_tick (s : State) : (stayWaiting s).tick = s.tick := rfl

/-! ### `fenceTlb` -/

@[simp] theorem State.fenceTlb_cfg (rs1 rs2 : Reg) (s : State) : (fenceTlb rs1 rs2 s).cfg = s.cfg := rfl
@[simp] theorem State.fenceTlb_regs (rs1 rs2 : Reg) (s : State) : (fenceTlb rs1 rs2 s).regs = s.regs := rfl
@[simp] theorem State.fenceTlb_pc (rs1 rs2 : Reg) (s : State) : (fenceTlb rs1 rs2 s).pc = s.pc := rfl
@[simp] theorem State.fenceTlb_priv (rs1 rs2 : Reg) (s : State) : (fenceTlb rs1 rs2 s).priv = s.priv := rfl
@[simp] theorem State.fenceTlb_mstatus (rs1 rs2 : Reg) (s : State) : (fenceTlb rs1 rs2 s).mstatus = s.mstatus := rfl
@[simp] theorem State.fenceTlb_medeleg (rs1 rs2 : Reg) (s : State) : (fenceTlb rs1 rs2 s).medeleg = s.medeleg := rfl
@[simp] theorem State.fenceTlb_mideleg (rs1 rs2 : Reg) (s : State) : (fenceTlb rs1 rs2 s).mideleg = s.mideleg := rfl
@[simp] theorem State.fenceTlb_mie (rs1 rs2 : Reg) (s : State) : (fenceTlb rs1 rs2 s).mie = s.mie := rfl
@[simp] theorem State.fenceTlb_mtvec (rs1 rs2 : Reg) (s : State) : (fenceTlb rs1 rs2 s).mtvec = s.mtvec := rfl
@[simp] theorem State.fenceTlb_mscratch (rs1 rs2 : Reg) (s : State) : (fenceTlb rs1 rs2 s).mscratch = s.mscratch := rfl
@[simp] theorem State.fenceTlb_mepc (rs1 rs2 : Reg) (s : State) : (fenceTlb rs1 rs2 s).mepc = s.mepc := rfl
@[simp] theorem State.fenceTlb_mcause (rs1 rs2 : Reg) (s : State) : (fenceTlb rs1 rs2 s).mcause = s.mcause := rfl
@[simp] theorem State.fenceTlb_mtval (rs1 rs2 : Reg) (s : State) : (fenceTlb rs1 rs2 s).mtval = s.mtval := rfl
@[simp] theorem State.fenceTlb_mipSoft (rs1 rs2 : Reg) (s : State) : (fenceTlb rs1 rs2 s).mipSoft = s.mipSoft := rfl
@[simp] theorem State.fenceTlb_stvec (rs1 rs2 : Reg) (s : State) : (fenceTlb rs1 rs2 s).stvec = s.stvec := rfl
@[simp] theorem State.fenceTlb_sscratch (rs1 rs2 : Reg) (s : State) : (fenceTlb rs1 rs2 s).sscratch = s.sscratch := rfl
@[simp] theorem State.fenceTlb_sepc (rs1 rs2 : Reg) (s : State) : (fenceTlb rs1 rs2 s).sepc = s.sepc := rfl
@[simp] theorem State.fenceTlb_scause (rs1 rs2 : Reg) (s : State) : (fenceTlb rs1 rs2 s).scause = s.scause := rfl
@[simp] theorem State.fenceTlb_stval (rs1 rs2 : Reg) (s : State) : (fenceTlb rs1 rs2 s).stval = s.stval := rfl
@[simp] theorem State.fenceTlb_satp (rs1 rs2 : Reg) (s : State) : (fenceTlb rs1 rs2 s).satp = s.satp := rfl
@[simp] theorem State.fenceTlb_pmpcfg (rs1 rs2 : Reg) (s : State) : (fenceTlb rs1 rs2 s).pmpcfg = s.pmpcfg := rfl
@[simp] theorem State.fenceTlb_pmpaddr (rs1 rs2 : Reg) (s : State) : (fenceTlb rs1 rs2 s).pmpaddr = s.pmpaddr := rfl
@[simp] theorem State.fenceTlb_waiting (rs1 rs2 : Reg) (s : State) : (fenceTlb rs1 rs2 s).waiting = s.waiting := rfl
@[simp] theorem State.fenceTlb_waited (rs1 rs2 : Reg) (s : State) : (fenceTlb rs1 rs2 s).waited = s.waited := rfl
@[simp] theorem State.fenceTlb_mem (rs1 rs2 : Reg) (s : State) : (fenceTlb rs1 rs2 s).mem = s.mem := rfl
@[simp] theorem State.fenceTlb_stored (rs1 rs2 : Reg) (s : State) : (fenceTlb rs1 rs2 s).stored = s.stored := rfl
@[simp] theorem State.fenceTlb_mtime (rs1 rs2 : Reg) (s : State) : (fenceTlb rs1 rs2 s).mtime = s.mtime := rfl
@[simp] theorem State.fenceTlb_mtimecmp (rs1 rs2 : Reg) (s : State) : (fenceTlb rs1 rs2 s).mtimecmp = s.mtimecmp := rfl
@[simp] theorem State.fenceTlb_msip (rs1 rs2 : Reg) (s : State) : (fenceTlb rs1 rs2 s).msip = s.msip := rfl
@[simp] theorem State.fenceTlb_meipLine (rs1 rs2 : Reg) (s : State) : (fenceTlb rs1 rs2 s).meipLine = s.meipLine := rfl
@[simp] theorem State.fenceTlb_seipLine (rs1 rs2 : Reg) (s : State) : (fenceTlb rs1 rs2 s).seipLine = s.seipLine := rfl
@[simp] theorem State.fenceTlb_now (rs1 rs2 : Reg) (s : State) : (fenceTlb rs1 rs2 s).now = s.now := rfl
@[simp] theorem State.fenceTlb_script (rs1 rs2 : Reg) (s : State) : (fenceTlb rs1 rs2 s).script = s.script := rfl
@[simp] theorem State.fenceTlb_tick (rs1 rs2 : Reg) (s : State) : (fenceTlb rs1 rs2 s).tick = s.tick := rfl

/-! ### `tlbAdd` -/

@[simp] theorem State.tlbAdd_cfg (s : State) (e : TlbEntry) : (s.tlbAdd e).cfg = s.cfg := by unfold State.tlbAdd; split <;> rfl
@[simp] theorem State.tlbAdd_regs (s : State) (e : TlbEntry) : (s.tlbAdd e).regs = s.regs := by unfold State.tlbAdd; split <;> rfl
@[simp] theorem State.tlbAdd_pc (s : State) (e : TlbEntry) : (s.tlbAdd e).pc = s.pc := by unfold State.tlbAdd; split <;> rfl
@[simp] theorem State.tlbAdd_priv (s : State) (e : TlbEntry) : (s.tlbAdd e).priv = s.priv := by unfold State.tlbAdd; split <;> rfl
@[simp] theorem State.tlbAdd_mstatus (s : State) (e : TlbEntry) : (s.tlbAdd e).mstatus = s.mstatus := by unfold State.tlbAdd; split <;> rfl
@[simp] theorem State.tlbAdd_medeleg (s : State) (e : TlbEntry) : (s.tlbAdd e).medeleg = s.medeleg := by unfold State.tlbAdd; split <;> rfl
@[simp] theorem State.tlbAdd_mideleg (s : State) (e : TlbEntry) : (s.tlbAdd e).mideleg = s.mideleg := by unfold State.tlbAdd; split <;> rfl
@[simp] theorem State.tlbAdd_mie (s : State) (e : TlbEntry) : (s.tlbAdd e).mie = s.mie := by unfold State.tlbAdd; split <;> rfl
@[simp] theorem State.tlbAdd_mtvec (s : State) (e : TlbEntry) : (s.tlbAdd e).mtvec = s.mtvec := by unfold State.tlbAdd; split <;> rfl
@[simp] theorem State.tlbAdd_mscratch (s : State) (e : TlbEntry) : (s.tlbAdd e).mscratch = s.mscratch := by unfold State.tlbAdd; split <;> rfl
@[simp] theorem State.tlbAdd_mepc (s : State) (e : TlbEntry) : (s.tlbAdd e).mepc = s.mepc := by unfold State.tlbAdd; split <;> rfl
@[simp] theorem State.tlbAdd_mcause (s : State) (e : TlbEntry) : (s.tlbAdd e).mcause = s.mcause := by unfold State.tlbAdd; split <;> rfl
@[simp] theorem State.tlbAdd_mtval (s : State) (e : TlbEntry) : (s.tlbAdd e).mtval = s.mtval := by unfold State.tlbAdd; split <;> rfl
@[simp] theorem State.tlbAdd_mipSoft (s : State) (e : TlbEntry) : (s.tlbAdd e).mipSoft = s.mipSoft := by unfold State.tlbAdd; split <;> rfl
@[simp] theorem State.tlbAdd_stvec (s : State) (e : TlbEntry) : (s.tlbAdd e).stvec = s.stvec := by unfold State.tlbAdd; split <;> rfl
@[simp] theorem State.tlbAdd_sscratch (s : State) (e : TlbEntry) : (s.tlbAdd e).sscratch = s.sscratch := by unfold State.tlbAdd; split <;> rfl
@[simp] theorem State.tlbAdd_sepc (s : State) (e : TlbEntry) : (s.tlbAdd e).sepc = s.sepc := by unfold State.tlbAdd; split <;> rfl
@[simp] theorem State.tlbAdd_scause (s : State) (e : TlbEntry) : (s.tlbAdd e).scause = s.scause := by unfold State.tlbAdd; split <;> rfl
@[simp] theorem State.tlbAdd_stval (s : State) (e : TlbEntry) : (s.tlbAdd e).stval = s.stval := by unfold State.tlbAdd; split <;> rfl
@[simp] theorem State.tlbAdd_satp (s : State) (e : TlbEntry) : (s.tlbAdd e).satp = s.satp := by unfold State.tlbAdd; split <;> rfl
@[simp] theorem State.tlbAdd_pmpcfg (s : State) (e : TlbEntry) : (s.tlbAdd e).pmpcfg = s.pmpcfg := by unfold State.tlbAdd; split <;> rfl
@[simp] theorem State.tlbAdd_pmpaddr (s : State) (e : TlbEntry) : (s.tlbAdd e).pmpaddr = s.pmpaddr := by unfold State.tlbAdd; split <;> rfl
@[simp] theorem State.tlbAdd_waiting (s : State) (e : TlbEntry) : (s.tlbAdd e).waiting = s.waiting := by unfold State.tlbAdd; split <;> rfl
@[simp] theorem State.tlbAdd_waited (s : State) (e : TlbEntry) : (s.tlbAdd e).waited = s.waited := by unfold State.tlbAdd; split <;> rfl
@[simp] theorem State.tlbAdd_mem (s : State) (e : TlbEntry) : (s.tlbAdd e).mem = s.mem := by unfold State.tlbAdd; split <;> rfl
@[simp] theorem State.tlbAdd_stored (s : State) (e : TlbEntry) : (s.tlbAdd e).stored = s.stored := by unfold State.tlbAdd; split <;> rfl
@[simp] theorem State.tlbAdd_mtime (s : State) (e : TlbEntry) : (s.tlbAdd e).mtime = s.mtime := by unfold State.tlbAdd; split <;> rfl
@[simp] theorem State.tlbAdd_mtimecmp (s : State) (e : TlbEntry) : (s.tlbAdd e).mtimecmp = s.mtimecmp := by unfold State.tlbAdd; split <;> rfl
@[simp] theorem State.tlbAdd_msip (s : State) (e : TlbEntry) : (s.tlbAdd e).msip = s.msip := by unfold State.tlbAdd; split <;> rfl
@[simp] theorem State.tlbAdd_meipLine (s : State) (e : TlbEntry) : (s.tlbAdd e).meipLine = s.meipLine := by unfold State.tlbAdd; split <;> rfl
@[simp] theorem State.tlbAdd_seipLine (s : State) (e : TlbEntry) : (s.tlbAdd e).seipLine = s.seipLine := by unfold State.tlbAdd; split <;> rfl
@[simp] theorem State.tlbAdd_now (s : State) (e : TlbEntry) : (s.tlbAdd e).now = s.now := by unfold State.tlbAdd; split <;> rfl
@[simp] theorem State.tlbAdd_script (s : State) (e : TlbEntry) : (s.tlbAdd e).script = s.script := by unfold State.tlbAdd; split <;> rfl
@[simp] theorem State.tlbAdd_tick (s : State) (e : TlbEntry) : (s.tlbAdd e).tick = s.tick := by unfold State.tlbAdd; split <;> rfl

end Sys2Proof.Machine
end

