-- ==== Sys2Proof/Laws/Memory.lean ====
section
/-! SUPPORT. Memory: reads after writes, and the canonical form that every memory operation keeps. -/

namespace Sys2Proof.Machine

/-! ### The byte list -/

theorem memRead_memWrite (m : Memory) (k : Nat) (v : Byte) (j : Nat) :
    memRead (memWrite m k v) j = if j = k then some v else memRead m j := by
  induction m with
  | nil =>
    by_cases h : j = k
    · simp [memWrite, memRead, h]
    · simp [memWrite, memRead, h, Ne.symm h]
  | cons e rest ih =>
    obtain ⟨a, b⟩ := e
    simp only [memWrite]
    split
    · by_cases h : j = k
      · simp [memRead, h]
      · simp [memRead, h, Ne.symm h]
    · split
      · next h1 h2 =>
        subst h2
        by_cases h : j = k
        · simp [memRead, h]
        · simp [memRead, h, Ne.symm h]
      · next h1 h2 =>
        simp only [memRead, ih]
        by_cases h : a = j
        · subst h; simp [Ne.symm h2]
        · simp [h]

theorem risingAddrs_cons (a : Nat) (l : List Nat) :
    risingAddrs (a :: l) = true ↔ (∀ b ∈ l, a < b) ∧ risingAddrs l = true := by
  induction l generalizing a with
  | nil => simp [risingAddrs]
  | cons b rest ih =>
    simp only [risingAddrs, Bool.and_eq_true, decide_eq_true_eq]
    constructor
    · rintro ⟨h1, h2⟩
      refine ⟨fun c hc => ?_, h2⟩
      rcases List.mem_cons.1 hc with rfl | hc
      · exact h1
      · exact lt_trans h1 (((ih b).1 h2).1 c hc)
    · rintro ⟨h1, h2⟩
      exact ⟨h1 b (by simp), h2⟩

theorem mem_insertAddr (k : Nat) (l : List Nat) (a : Nat) : a ∈ insertAddr k l ↔ a = k ∨ a ∈ l := by
  induction l with
  | nil => simp [insertAddr]
  | cons b rest ih =>
    simp only [insertAddr]
    split
    · simp
    · split
      · next h => subst h; simp
      · simp only [List.mem_cons, ih]; tauto

theorem risingAddrs_insertAddr (k : Nat) (l : List Nat) (h : risingAddrs l = true) : risingAddrs (insertAddr k l) = true := by
  induction l with
  | nil => rfl
  | cons b rest ih =>
    have hb := (risingAddrs_cons b rest).1 h
    simp only [insertAddr]
    split
    · next hk =>
      refine (risingAddrs_cons k _).2 ⟨fun c hc => ?_, h⟩
      rcases List.mem_cons.1 hc with rfl | hc
      · exact hk
      · exact lt_trans hk (hb.1 c hc)
    · split
      · exact h
      · next h1 h2 =>
        refine (risingAddrs_cons b _).2 ⟨fun c hc => ?_, ih hb.2⟩
        rcases (mem_insertAddr k rest c).1 hc with rfl | hc
        · omega
        · exact hb.1 c hc

/-- The addresses a write leaves listed. -/
theorem memWrite_addrs (m : Memory) (k : Nat) (v : Byte) : (memWrite m k v).map Prod.fst = insertAddr k (m.map Prod.fst) := by
  induction m with
  | nil => rfl
  | cons e rest ih =>
    obtain ⟨a, b⟩ := e
    simp only [memWrite, List.map_cons, insertAddr]
    split
    · rfl
    · split
      · next h => subst h; rfl
      · simp [ih]

/-- A write keeps the canonical form. -/
theorem memWrite_wf (m : Memory) (k : Nat) (v : Byte) (h : Memory.wf m = true) : Memory.wf (memWrite m k v) = true := by
  unfold Memory.wf at *; rw [memWrite_addrs]; exact risingAddrs_insertAddr k _ h

/-- The memory after reset has the canonical form. -/
theorem reset_memory_wf : Memory.wf State.reset.mem = true := rfl

/-! ### Bytes of a word -/

theorem extract_withByte (v : Word) (k : Nat) (b : Byte) (j : Nat) (hk : k < 8) (hj : j < 8) :
    (withByte v k b).extractLsb' (8 * j) 8 = if j = k then b else v.extractLsb' (8 * j) 8 := by
  have key : ∀ k' : Fin 8, ∀ j' : Fin 8, (255#64 <<< (8 * k'.val)).extractLsb' (8 * j'.val) 8 = if j' = k' then 255#8 else 0#8 := by
    decide
  unfold withByte
  have hext : ∀ a b : Word, ∀ n, (a ||| b).extractLsb' n 8 = a.extractLsb' n 8 ||| b.extractLsb' n 8 := fun a b n => by
    ext i hi; simp [BitVec.getElem_extractLsb']
  have h0 : (b.setWidth 64 <<< (8 * k) : Word).extractLsb' (8 * j) 8 = if j = k then b else 0#8 := by
    ext i hi
    simp only [BitVec.getElem_extractLsb', BitVec.getLsbD_shiftLeft, BitVec.getLsbD_setWidth]
    by_cases h : j = k
    · subst h
      have h1 : 8 * j + i - 8 * j = i := by omega
      have h2 : 8 * j + i < 64 := by omega
      have h3 : ¬ 8 * j + i < 8 * j := by omega
      have h4 : i < 64 := by omega
      rw [h1, if_pos rfl, BitVec.getLsbD_eq_getElem hi]
      simp only [h2, h3, h4, decide_true, decide_false, Bool.not_false, Bool.true_and]
    · rcases Nat.lt_or_ge j k with hlt | hge
      · have h1 : 8 * j + i < 8 * k := by omega
        simp [h, h1]
      · have h1 : ¬ (8 * j + i - 8 * k < 8) := by omega
        have h2 : b.getLsbD (8 * j + i - 8 * k) = false := BitVec.getLsbD_of_ge _ _ (by omega)
        simp [h, h2]
  rw [hext, h0]
  have h3 : (v &&& ~~~(255#64 <<< (8 * k))).extractLsb' (8 * j) 8 = if j = k then 0#8 else v.extractLsb' (8 * j) 8 := by
    have hk' := key ⟨k, hk⟩ ⟨j, hj⟩
    ext i hi
    have h4 : (255#64 <<< (8 * k)).getLsbD (8 * j + i) = (if j = k then 255#8 else 0#8).getLsbD i := by
      have := congrArg (fun x : BitVec 8 => x.getLsbD i) hk'
      simp only [Fin.mk.injEq] at this
      rw [← this, BitVec.getLsbD_extractLsb']; simp [hi]
    have h5 : 8 * j + i < 64 := by omega
    simp only [BitVec.getElem_extractLsb', BitVec.getLsbD_and, BitVec.getLsbD_not, h4, h5]
    by_cases h : j = k
    · have h6 : (255#8).getLsbD i = true := by
        have : ∀ i' : Fin 8, (255#8).getLsbD i'.val = true := by decide
        exact this ⟨i, hi⟩
      simp [h, h6]
    · simp [h]
  rw [h3]
  split <;> simp

/-- The bytes of a value, read back: byte `k` of the value. -/
theorem wordToBytes_length (v : Word) (n : Nat) : (wordToBytes v n).length = n := by simp [wordToBytes]

/-! ### Reading a byte after storing one -/

theorem byteAt_setByte_ne (s : State) (a : Nat) (v : Byte) (b : Nat) (h : b ≠ a) : (s.setByte a v).byteAt b = s.byteAt b := by
  unfold State.setByte
  split
  · rfl
  · next k hk =>
    unfold State.byteAt
    cases hb : platformAt s.cfg b with
    | none => simp
    | some r =>
      obtain ⟨r, j⟩ := r
      cases r with
      | mtime => simp
      | msip => simp
      | mtimecmp =>
        simp only
        have ha : s.cfg.mtimecmpAddr ≤ a ∧ a < s.cfg.mtimecmpAddr + 8 ∧ k = a - s.cfg.mtimecmpAddr := by
          revert hk; unfold platformAt; split <;> [simp; split <;> [skip; split <;> simp]]
          next h1 h2 => intro e; simp at e; omega
        have hb' : s.cfg.mtimecmpAddr ≤ b ∧ b < s.cfg.mtimecmpAddr + 8 ∧ j = b - s.cfg.mtimecmpAddr := by
          revert hb; unfold platformAt; split <;> [simp; split <;> [skip; split <;> simp]]
          next h1 h2 => intro e; simp at e; omega
        rw [extract_withByte _ _ _ _ (by omega) (by omega), if_neg (by omega)]
  · next k hk =>
    split
    · next h0 =>
      unfold State.byteAt
      cases hb : platformAt s.cfg b with
      | none => simp
      | some r =>
        obtain ⟨r, j⟩ := r
        cases r with
        | mtime => simp
        | mtimecmp => simp
        | msip =>
          have ha : s.cfg.msipAddr ≤ a ∧ k = a - s.cfg.msipAddr := by
            revert hk; unfold platformAt; split <;> [simp; split <;> [simp; split <;> simp]]
            next h1 h2 h3 => intro e; omega
          have hb' : s.cfg.msipAddr ≤ b ∧ j = b - s.cfg.msipAddr := by
            revert hb; unfold platformAt; split <;> [simp; split <;> [simp; split <;> simp]]
            next h1 h2 h3 => intro e; omega
          have hj : j ≠ 0 := by omega
          simp [hj]
    · rfl
  · unfold State.byteAt
    simp only [memRead_memWrite, h, if_false]

theorem byteAt_setByte_mem (s : State) (a : Nat) (v : Byte) (h : platformAt s.cfg a = none) : (s.setByte a v).byteAt a = v := by
  unfold State.setByte; rw [h]; unfold State.byteAt; simp [h, memRead_memWrite]

theorem byteAt_setByte_mtimecmp (s : State) (a k : Nat) (v : Byte) (h : platformAt s.cfg a = some (.mtimecmp, k)) :
    (s.setByte a v).byteAt a = v := by
  have hk : k < 8 := by
    revert h; unfold platformAt; split <;> [simp; split <;> [skip; split <;> simp]]
    next h1 h2 => intro e; simp at e; omega
  unfold State.setByte; rw [h]; unfold State.byteAt; simp only [h]
  rw [extract_withByte _ _ _ _ hk hk, if_pos rfl]

theorem setByte_cfg (s : State) (a : Nat) (v : Byte) : (s.setByte a v).cfg = s.cfg := by
  unfold State.setByte; split <;> try rfl
  split <;> rfl

end Sys2Proof.Machine
end

