-- ==== Sys2Proof/Laws/Access.lean ====
section
/-! SUPPORT. What every part of an access can do: which state it leaves, and which exceptions it raises. -/

namespace Sys2Proof.Machine

/-! ### The state an access leaves -/

/-- `t` differs from `s` at most in memory, the stored-to record, mtimecmp, msip and the translation cache; the canonical forms are
kept and no location is forgotten. -/
structure AccessFrame (s t : State) : Prop where
  core : t = { s with mem := t.mem, stored := t.stored, mtimecmp := t.mtimecmp, msip := t.msip, tlb := t.tlb }
  wf : Memory.wf s.mem = true → Memory.wf t.mem = true
  rising : risingAddrs s.stored = true → risingAddrs t.stored = true
  grows : ∀ a ∈ s.stored, a ∈ t.stored

theorem AccessFrame.refl (s : State) : AccessFrame s s := ⟨rfl, id, id, fun _ h => h⟩

theorem AccessFrame.trans {s t u : State} (h : AccessFrame s t) (k : AccessFrame t u) : AccessFrame s u := by
  refine ⟨?_, fun w => k.wf (h.wf w), fun w => k.rising (h.rising w), fun a w => k.grows a (h.grows a w)⟩
  have e := k.core; rw [h.core] at e; exact e

theorem AccessFrame.cfg {s t : State} (h : AccessFrame s t) : t.cfg = s.cfg := by rw [h.core]
theorem AccessFrame.regs {s t : State} (h : AccessFrame s t) : t.regs = s.regs := by rw [h.core]
theorem AccessFrame.pc {s t : State} (h : AccessFrame s t) : t.pc = s.pc := by rw [h.core]
theorem AccessFrame.priv {s t : State} (h : AccessFrame s t) : t.priv = s.priv := by rw [h.core]
theorem AccessFrame.mstatus {s t : State} (h : AccessFrame s t) : t.mstatus = s.mstatus := by rw [h.core]
theorem AccessFrame.satp {s t : State} (h : AccessFrame s t) : t.satp = s.satp := by rw [h.core]
theorem AccessFrame.now {s t : State} (h : AccessFrame s t) : t.now = s.now := by rw [h.core]
theorem AccessFrame.mtime {s t : State} (h : AccessFrame s t) : t.mtime = s.mtime := by rw [h.core]

theorem AccessFrame.reg {s t : State} (h : AccessFrame s t) (r : Reg) : t.reg r = s.reg r := by
  unfold State.reg; simp only [h.regs]

theorem AccessFrame.sameCsrs {s t : State} (h : AccessFrame s t) : sameCsrs s t := by
  rw [h.core]; simp [Machine.sameCsrs]

theorem AccessFrame.sameRegs {s t : State} (h : AccessFrame s t) : sameRegs s t := h.reg

theorem accessFrame_tlb (s : State) (l : List TlbEntry) : AccessFrame s { s with tlb := l } := ⟨rfl, id, id, fun _ h => h⟩

theorem accessFrame_tlbAdd (s : State) (e : TlbEntry) : AccessFrame s (s.tlbAdd e) := by
  unfold State.tlbAdd; split
  · exact .refl s
  · exact accessFrame_tlb s _

theorem accessFrame_setByte (s : State) (a : Nat) (v : Byte) : AccessFrame s (s.setByte a v) := by
  unfold State.setByte
  split
  · exact .refl s
  · exact ⟨rfl, id, id, fun _ h => h⟩
  · split
    · exact ⟨rfl, id, id, fun _ h => h⟩
    · exact .refl s
  · exact ⟨rfl, memWrite_wf _ _ _, risingAddrs_insertAddr _ _, fun b h => (mem_insertAddr _ _ _).2 (.inr h)⟩

theorem accessFrame_setBytes (s : State) (a : Nat) (bs : List Byte) : AccessFrame s (s.setBytes a bs) := by
  induction bs generalizing s a with
  | nil => exact .refl s
  | cons b rest ih => exact (accessFrame_setByte s a b).trans (ih _ _)

theorem byteAt_setBytes_out (s : State) (a : Nat) (bs : List Byte) (b : Nat) (h : b < a ∨ a + bs.length ≤ b) :
    (s.setBytes a bs).byteAt b = s.byteAt b := by
  induction bs generalizing s a with
  | nil => rfl
  | cons v rest ih =>
    simp only [List.length_cons] at h
    unfold State.setBytes
    rw [ih _ _ (by omega), byteAt_setByte_ne _ _ _ _ (by omega)]

theorem byteAt_setBytes_mem (s : State) (a : Nat) (bs : List Byte) (k : Nat) (hk : k < bs.length)
    (hp : platformAt s.cfg (a + k) = none) : (s.setBytes a bs).byteAt (a + k) = bs[k] := by
  induction bs generalizing s a k with
  | nil => exact absurd hk (by simp)
  | cons v rest ih =>
    unfold State.setBytes
    cases k with
    | zero =>
      rw [byteAt_setBytes_out _ _ _ _ (by omega)]
      simpa using byteAt_setByte_mem s a v hp
    | succ n =>
      have e : a + (n + 1) = a + 1 + n := by omega
      rw [e, ih _ _ n (by simpa using hk) (by rw [setByte_cfg, ← e]; exact hp)]
      simp

/-- What `physWrite` does when it does anything. -/
theorem physWrite_ok {s t : State} {pa n : Nat} {v : Word} (h : physWrite s pa n v = .ok t) :
    deviceIn s.cfg pa n = none ∧ mtimeIn s.cfg pa n = none ∧ t = s.setBytes pa (wordToBytes v n) := by
  unfold physWrite at h
  split at h
  · cases h
  · next hd =>
    split at h
    · cases h
    · next hm => cases h; exact ⟨hd, hm, rfl⟩

/-- What `physRead` answers when it answers. -/
theorem physRead_ok {s : State} {pa n : Nat} {v : Word} (h : physRead s pa n = .ok v) :
    deviceIn s.cfg pa n = none ∧ v = bytesToWord ((List.range n).map fun k => s.byteAt (pa + k)) := by
  unfold physRead at h
  split at h
  · cases h
  · next hd => cases h; exact ⟨hd, rfl⟩

theorem accessFrame_physWrite {s t : State} {pa n : Nat} {v : Word} (h : physWrite s pa n v = .ok t) : AccessFrame s t := by
  rw [(physWrite_ok h).2.2]; exact accessFrame_setBytes _ _ _

/-! ### Outcomes of an access -/

/-- Every outcome of the access is as said: `D` of the value and the state when it is done, `T` of the exception, its trap value
and the state when it traps. A refusal says nothing. -/
def Access.sat {α : Type} (x : Access α) (D : α → State → Prop) (T : Exc → Word → State → Prop) : Prop :=
  match x with
  | .done a s => D a s
  | .trap e v s => T e v s
  | .refused _ => True

theorem Access.sat_bind {α β : Type} {x : Access α} {f : α → State → Access β} {D₁ : α → State → Prop} {D : β → State → Prop}
    {T : Exc → Word → State → Prop} (h : x.sat D₁ T) (k : ∀ a s, D₁ a s → (f a s).sat D T) : (x.bind f).sat D T := by
  cases x with
  | done a s => exact k a s h
  | trap e v s => exact h
  | refused r => trivial

theorem Access.sat_mono {α : Type} {x : Access α} {D D' : α → State → Prop} {T T' : Exc → Word → State → Prop}
    (h : x.sat D T) (hd : ∀ a s, D a s → D' a s) (ht : ∀ e v s, T e v s → T' e v s) : x.sat D' T' := by
  cases x with
  | done a s => exact hd _ _ h
  | trap e v s => exact ht _ _ _ h
  | refused r => trivial

/-- The exceptions of the address path of one access kind, with the address as trap value (20_memory.md R112, 25 R159). -/
def pathTrap (kind : AccessKind) (va : Word) (s : State) (e : Exc) (v : Word) (t : State) : Prop :=
  AccessFrame s t ∧ (e = accessFault kind ∨ e = pageFault kind) ∧ v = va

theorem readPteMem_sat (sch : Scheme) (va : Word) (kind : AccessKind) (i pa : Nat) (s : State) :
    (readPteMem sch va kind i pa s).sat (fun _ t => AccessFrame s t) (pathTrap kind va s) := by
  unfold readPteMem
  split
  · split
    · exact accessFrame_tlbAdd _ _
    · trivial
  · exact ⟨.refl s, .inl rfl, rfl⟩

theorem readPte_sat (sch : Scheme) (w : WalkChoice) (va : Word) (kind : AccessKind) (i pa : Nat) (s : State) :
    (readPte sch w va kind i pa s).sat (fun _ t => AccessFrame s t) (pathTrap kind va s) := by
  unfold readPte
  split
  · exact .refl s
  · exact readPteMem_sat _ _ _ _ _ _

/-! ### What the translation cache gains -/

/-- The checks and the bytes of physical memory do not depend on the translation cache. -/
theorem physAllowed_tlb (s : State) (l : List TlbEntry) (pa n : Nat) (kind : AccessKind) (ep : Priv) :
    physAllowed { s with tlb := l } pa n kind ep = physAllowed s pa n kind ep := by
  have h : ∀ es, pmpDecide { s with tlb := l } pa n kind ep es = pmpDecide s pa n kind ep es := by
    intro es
    induction es with
    | nil => rfl
    | cons i rest ih => unfold pmpDecide; rw [ih]; rfl
  unfold physAllowed pmpCheck; rw [h]

theorem physRead_tlb (s : State) (l : List TlbEntry) (pa n : Nat) : physRead { s with tlb := l } pa n = physRead s pa n := rfl

/-- `t` is `s` with a larger translation cache; each entry gained is of the current address space, at a level of the scheme in force, for
the page numbers of some address, and holds the bytes, which an S-mode load may read, of the entry a walk for that address reads at that
level of some table (25_virtual_memory.md R161 (a), (b)). -/
structure CacheGrowth (s t : State) : Prop where
  core : t = { s with tlb := t.tlb }
  keeps : ∀ e ∈ s.tlb, e ∈ t.tlb
  gains : ∀ e ∈ t.tlb, e ∈ s.tlb ∨ (e.asid = satpAsid s.cfg.xlen s.satp ∧ ∃ sch va a, schemeOf s.satpMode = some sch ∧
    e.level < sch.levels ∧ e.prefixVpn = vpnPrefix sch va e.level ∧
    physAllowed s (entryAt sch va e.level a) sch.pteBytes .load .S = true ∧
    physRead s (entryAt sch va e.level a) sch.pteBytes = .ok e.pte)

theorem CacheGrowth.refl (s : State) : CacheGrowth s s := ⟨rfl, fun _ h => h, fun _ h => .inl h⟩

theorem CacheGrowth.trans {s t u : State} (h : CacheGrowth s t) (k : CacheGrowth t u) : CacheGrowth s u := by
  obtain ⟨hc, hk, hg⟩ := h
  generalize t.tlb = l at hc hk hg
  subst hc
  refine ⟨k.core, fun e he => k.keeps e (hk e he), fun e he => ?_⟩
  rcases k.gains e he with h | ⟨ha, sch, va, a, h1, h2, h3, h4, h5⟩
  · exact hg e h
  · rw [physAllowed_tlb] at h4
    exact .inr ⟨ha, sch, va, a, h1, h2, h3, h4, h5⟩

/-- One read of a page-table entry. -/
theorem readPte_growth {s t : State} {sch : Scheme} {w : WalkChoice} {va p : Word} {kind : AccessKind} {i a : Nat}
    (hs : schemeOf s.satpMode = some sch) (hi : i < sch.levels) (h : readPte sch w va kind i (entryAt sch va i a) s = .done p t) :
    CacheGrowth s t := by
  unfold readPte at h
  split at h
  · cases h; exact .refl s
  · unfold readPteMem at h
    split at h
    · next ha =>
      split at h
      · next hr =>
        cases h
        unfold State.tlbAdd
        split
        · exact .refl s
        · refine ⟨rfl, fun e he => List.mem_cons_of_mem _ he, fun e he => ?_⟩
          rcases List.mem_cons.1 he with rfl | he
          · exact .inr ⟨rfl, sch, va, a, hs, hi, rfl, ha, hr⟩
          · exact .inl he
      · cases h
    · cases h

theorem CacheGrowth.satpMode {s t : State} (h : CacheGrowth s t) : t.satpMode = s.satpMode := by rw [h.core]; rfl

/-- A speculative walk. -/
theorem speculateFrom_growth (sch : Scheme) (w : WalkChoice) (va : Word) (n a : Nat) (s : State) (hs : schemeOf s.satpMode = some sch)
    (hn : n ≤ sch.levels) : CacheGrowth s (speculateFrom sch w va n a s) := by
  induction n generalizing a s with
  | zero => exact .refl s
  | succ i ih =>
    unfold speculateFrom
    split
    · next hr =>
      have hg := readPte_growth hs (by omega) hr
      split
      · exact hg
      · exact hg.trans (ih _ _ (by rw [hg.satpMode]; exact hs) (by omega))
    · exact .refl s
    · exact .refl s

theorem speculateOne_growth (s : State) (x : SpeculativeWalk) : CacheGrowth s (speculateOne s x) := by
  unfold speculateOne
  split
  · exact .refl s
  · next hs => exact speculateFrom_growth _ _ _ _ _ _ hs (Nat.le_refl _)

/-- All the speculative walks of a step. -/
theorem speculateAll_growth (s : State) (l : List SpeculativeWalk) : CacheGrowth s (speculateAll s l) := by
  unfold speculateAll
  induction l generalizing s with
  | nil => exact .refl s
  | cons x rest ih => exact (speculateOne_growth s x).trans (ih _)

theorem updateAD_sat (sch : Scheme) (va : Word) (kind : AccessKind) (i pa : Nat) (p : Word) (s : State) :
    (updateAD sch va kind i pa p s).sat (fun _ t => AccessFrame s t) (pathTrap kind va s) := by
  unfold updateAD
  split
  · split
    · next h => exact (accessFrame_physWrite h).trans ((accessFrame_tlb _ _).trans (accessFrame_tlbAdd _ _))
    · trivial
  · exact ⟨.refl s, .inl rfl, rfl⟩

theorem finishLeaf_sat (sch : Scheme) (w : WalkChoice) (va : Word) (kind : AccessKind) (ep : Priv) (i pa : Nat) (p : Word) (s : State) :
    (finishLeaf sch w va kind ep i pa p s).sat (fun _ t => AccessFrame s t) (pathTrap kind va s) := by
  unfold finishLeaf
  split
  · exact ⟨.refl s, .inr rfl, rfl⟩
  split
  · exact ⟨.refl s, .inr rfl, rfl⟩
  split
  · split
    · exact Access.sat_bind (updateAD_sat _ _ _ _ _ _ _) fun _ _ h => h
    · exact ⟨.refl s, .inr rfl, rfl⟩
  · exact .refl s

theorem pathTrap_trans {kind : AccessKind} {va : Word} {s t : State} (h : AccessFrame s t) {e : Exc} {v : Word} {u : State}
    (k : pathTrap kind va t e v u) : pathTrap kind va s e v u := ⟨h.trans k.1, k.2⟩

theorem walk_sat (sch : Scheme) (w : WalkChoice) (va : Word) (kind : AccessKind) (ep : Priv) (n a : Nat) (s : State) :
    (walk sch w va kind ep n a s).sat (fun _ t => AccessFrame s t) (pathTrap kind va s) := by
  induction n generalizing a s with
  | zero => exact ⟨.refl s, .inr rfl, rfl⟩
  | succ i ih =>
    unfold walk
    refine Access.sat_bind (readPte_sat _ _ _ _ _ _ _) fun p t ht => ?_
    split
    · exact ⟨ht, .inr rfl, rfl⟩
    split
    · trivial
    split
    · exact Access.sat_mono (finishLeaf_sat _ _ _ _ _ _ _ _ _) (fun _ _ h => ht.trans h) (fun _ _ _ h => pathTrap_trans ht h)
    · exact Access.sat_mono (ih _ _) (fun _ _ h => ht.trans h) (fun _ _ _ h => pathTrap_trans ht h)

theorem translate_sat (sch : Scheme) (w : WalkChoice) (va : Word) (kind : AccessKind) (ep : Priv) (s : State) :
    (translate sch w va kind ep s).sat (fun _ t => AccessFrame s t) (pathTrap kind va s) := by
  unfold translate
  split
  · exact walk_sat _ _ _ _ _ _ _ _
  · exact ⟨.refl s, .inr rfl, rfl⟩

theorem accessAddr_sat (w : WalkChoice) (va : Word) (n : Nat) (kind : AccessKind) (ep : Priv) (s : State) :
    (accessAddr w va n kind ep s).sat (fun pa t => AccessFrame s t ∧ physAllowed t pa n kind ep = true) (pathTrap kind va s) := by
  unfold accessAddr
  have h : (if ep = .M then Access.done va.toNat s
      else match schemeOf s.satpMode with
        | none => .done va.toNat s
        | some sch => translate sch w va kind ep s).sat (fun _ t => AccessFrame s t) (pathTrap kind va s) := by
    split
    · exact .refl s
    · split
      · exact .refl s
      · exact translate_sat _ _ _ _ _ _
  refine Access.sat_bind h fun pa t ht => ?_
  split
  · next hp => exact ⟨ht, hp⟩
  · exact ⟨ht, .inl rfl, rfl⟩

theorem loadPart_sat (k : Nat) (va : Word) (n : Nat) (s : State) :
    (loadPart k va n s).sat (fun _ t => AccessFrame s t) (pathTrap .load va s) := by
  unfold loadPart
  refine Access.sat_bind (accessAddr_sat _ _ _ _ _ _) fun pa t ht => ?_
  split
  · exact ht.1
  · trivial

theorem storePart_sat (k : Nat) (va : Word) (n : Nat) (v : Word) (s : State) :
    (storePart k va n v s).sat (fun _ t => AccessFrame s t) (pathTrap .store va s) := by
  unfold storePart
  refine Access.sat_bind (accessAddr_sat _ _ _ _ _ _) fun pa t ht => ?_
  split
  · next h => exact ht.1.trans (accessFrame_physWrite h)
  · trivial

/-- The exceptions of the data access of one kind at any address `va + k` with `k < n` (R301: the failing byte's address). -/
def dataTrap (kind : AccessKind) (mis : Exc) (va : Word) (n : Nat) (s : State) (e : Exc) (v : Word) (t : State) : Prop :=
  AccessFrame s t ∧ (e = mis ∨ e = accessFault kind ∨ e = pageFault kind) ∧ 
  (v = va ∨ ∃ k, k < n ∧ v = s.cfg.xlen.wrap (va + BitVec.ofNat 64 k))

theorem byteOrder_lt (s : State) (n : Nat) : ∀ k ∈ byteOrder s n, k < n := by
  intro k hk
  unfold byteOrder at hk
  simp only [List.mem_append, List.mem_dedup, List.mem_filter, List.mem_range, decide_eq_true_eq] at hk
  tauto

theorem loadBytes_sat (va : Word) (n j : Nat) (ks : List Nat) (hks : ∀ k ∈ ks, k < n) (acc : Word) (s : State) :
    (loadBytes va j ks acc s).sat (fun _ t => AccessFrame s t) (dataTrap .load .loadAddressMisaligned va n s) := by
  induction ks generalizing j acc s with
  | nil => exact .refl s
  | cons k rest ih =>
    unfold loadBytes
    refine Access.sat_bind (D₁ := fun _ t => AccessFrame s t) (Access.sat_mono (loadPart_sat _ _ _ _) (fun _ _ h => h) ?_) fun b t ht => ?_
    · rintro e v t ⟨h1, h2, h3⟩; exact ⟨h1, .inr h2, .inr ⟨k, hks k (by simp), h3⟩⟩
    · refine Access.sat_mono (ih _ (fun k hk => hks k (by simp [hk])) _ _) (fun _ _ h => ht.trans h) ?_
      rintro e v u ⟨h1, h2, h3⟩; rw [ht.cfg] at h3; exact ⟨ht.trans h1, h2, h3⟩

theorem storeBytes_sat (va v : Word) (n j : Nat) (ks : List Nat) (hks : ∀ k ∈ ks, k < n) (s : State) :
    (storeBytes va v j ks s).sat (fun _ t => AccessFrame s t) (dataTrap .store .storeAddressMisaligned va n s) := by
  induction ks generalizing j s with
  | nil => exact .refl s
  | cons k rest ih =>
    unfold storeBytes
    refine Access.sat_bind (D₁ := fun _ t => AccessFrame s t) (Access.sat_mono (storePart_sat _ _ _ _ _) (fun _ _ h => h) ?_) fun b t ht => ?_
    · rintro e v t ⟨h1, h2, h3⟩; exact ⟨h1, .inr h2, .inr ⟨k, hks k (by simp), h3⟩⟩
    · refine Access.sat_mono (ih _ (fun k hk => hks k (by simp [hk])) _) (fun _ _ h => ht.trans h) ?_
      rintro e v u ⟨h1, h2, h3⟩; rw [ht.cfg] at h3; exact ⟨ht.trans h1, h2, h3⟩

/-- Everything a load can do. -/
theorem memLoad_sat (va : Word) (n : Nat) (s : State) :
    (memLoad va n s).sat (fun _ t => AccessFrame s t) (dataTrap .load .loadAddressMisaligned va n s) := by
  unfold memLoad
  split
  · refine Access.sat_mono (loadPart_sat _ _ _ _) (fun _ _ h => h) ?_
    rintro e v t ⟨h1, h2, h3⟩; exact ⟨h1, .inr h2, .inl h3⟩
  · split
    · exact loadBytes_sat _ _ _ _ (byteOrder_lt s n) _ _
    · exact ⟨.refl s, .inl rfl, .inl rfl⟩

/-- Everything a store can do. -/
theorem memStore_sat (va : Word) (n : Nat) (v : Word) (s : State) :
    (memStore va n v s).sat (fun _ t => AccessFrame s t) (dataTrap .store .storeAddressMisaligned va n s) := by
  unfold memStore
  split
  · refine Access.sat_mono (storePart_sat _ _ _ _ _) (fun _ _ h => h) ?_
    rintro e v t ⟨h1, h2, h3⟩; exact ⟨h1, .inr h2, .inl h3⟩
  · split
    · exact storeBytes_sat _ _ _ _ _ (byteOrder_lt s n) _
    · exact ⟨.refl s, .inl rfl, .inl rfl⟩

/-- Everything a fetch can do: the word comes from four bytes nothing has stored to (20_memory.md R132). -/
theorem fetch_sat (s : State) :
    (fetch s).sat (fun _ t => AccessFrame s t) (pathTrap .fetch s.pc s) := by
  unfold fetch
  refine Access.sat_bind (accessAddr_sat _ _ _ _ _ _) fun pa t ht => ?_
  split
  · trivial
  · split
    · exact ht.1
    · trivial

/-- How an instruction that makes an access can end with a next state. -/
theorem Access.finish_next {α : Type} {x : Access α} {f : α → State → Result} {t : State} (h : x.finish f = .next t) :
    (∃ a s', x = .done a s' ∧ f a s' = .next t) ∨ (∃ e v s', x = .trap e v s' ∧ t = raise e v s') := by
  cases x with
  | done a s' => exact .inl ⟨a, s', rfl, h⟩
  | trap e v s' => cases h; exact .inr ⟨e, v, s', rfl, rfl⟩
  | refused r => cases h

end Sys2Proof.Machine
end

