-- ==== Sys2Proof/Laws/Csr.lean ====
section
/-! SUPPORT. What a CSR instruction can do, and what a CSR write leaves as it was. -/

namespace Sys2Proof.Machine

/-- The ways a CSR instruction goes on: it traps as illegal, it only reads, or it reads and writes (43_system_csr.md R232 to R241). -/
theorem csrOp_next {i : Instr} {csr : BitVec 12} {rd : Reg} {writes : Bool} {new : Word → Word} {s t : State}
    (h : csrOp i csr rd writes new s = .next t) :
    ∃ c, csrAt csr = some c ∧
      ((csrAllowed s csr c writes = false ∧ t = raiseIllegal i s) ∨
       (csrAllowed s csr c writes = true ∧ writes = false ∧ t = (s.setReg rd (csrRead s c)).setPc s.nextPc) ∨
       (csrAllowed s csr c writes = true ∧ writes = true ∧
         ∃ s', csrWrite s c (new (csrReadForModify s c)) = .ok s' ∧ t = (s'.setReg rd (csrRead s c)).setPc s'.nextPc)) := by
  unfold csrOp at h
  split at h
  · cases h
  · next c hc =>
    refine ⟨c, hc, ?_⟩
    split at h
    · next ha =>
      split at h
      · next hw =>
        split at h
        · next s' hs => cases h; exact .inr (.inr ⟨ha, hw, s', hs, rfl⟩)
        · cases h
      · next hw => cases h; exact .inr (.inl ⟨ha, by simpa using hw, rfl⟩)
    · next ha => cases h; exact .inl ⟨by simpa using ha, rfl⟩

theorem csrOp_unlisted {i : Instr} {csr : BitVec 12} {rd : Reg} {writes : Bool} {new : Word → Word} {s : State}
    (h : csrAt csr = none) : csrOp i csr rd writes new s = .refused (.unlistedCsr csr) := by
  unfold csrOp; rw [h]

theorem csrOp_illegal {i : Instr} {csr : BitVec 12} {c : Csr} {rd : Reg} {writes : Bool} {new : Word → Word} {s : State}
    (h : csrAt csr = some c) (ha : csrAllowed s csr c writes = false) : csrOp i csr rd writes new s = .next (raiseIllegal i s) := by
  unfold csrOp; rw [h]; simp [ha]

theorem csrOp_read {i : Instr} {csr : BitVec 12} {c : Csr} {rd : Reg} {new : Word → Word} {s : State}
    (h : csrAt csr = some c) (ha : csrAllowed s csr c false = true) :
    csrOp i csr rd false new s = .next ((s.setReg rd (csrRead s c)).setPc s.nextPc) := by
  unfold csrOp; rw [h]; simp [ha, writeAdvance]

theorem csrOp_write {i : Instr} {csr : BitVec 12} {c : Csr} {rd : Reg} {new : Word → Word} {s s' : State}
    (h : csrAt csr = some c) (ha : csrAllowed s csr c true = true) (hw : csrWrite s c (new (csrReadForModify s c)) = .ok s') :
    csrOp i csr rd true new s = .next ((s'.setReg rd (csrRead s c)).setPc s'.nextPc) := by
  unfold csrOp; rw [h]; simp [ha, hw, writeAdvance]

/-- `t` differs from `s` in CSRs only: the registers a CSR write can reach (10_state.md R28). -/
def csrFrame (s t : State) : Prop :=
  t = { s with mstatus := t.mstatus, medeleg := t.medeleg, mideleg := t.mideleg, mie := t.mie, mtvec := t.mtvec,
               mscratch := t.mscratch, mepc := t.mepc, mcause := t.mcause, mtval := t.mtval, mipSoft := t.mipSoft,
               stvec := t.stvec, sscratch := t.sscratch, sepc := t.sepc, scause := t.scause, stval := t.stval,
               satp := t.satp, pmpcfg := t.pmpcfg, pmpaddr := t.pmpaddr }

theorem csrFrame.cfg {s t : State} (h : csrFrame s t) : t.cfg = s.cfg := by rw [h]
theorem csrFrame.regs {s t : State} (h : csrFrame s t) : t.regs = s.regs := by rw [h]
theorem csrFrame.pc {s t : State} (h : csrFrame s t) : t.pc = s.pc := by rw [h]
theorem csrFrame.priv {s t : State} (h : csrFrame s t) : t.priv = s.priv := by rw [h]
theorem csrFrame.mem {s t : State} (h : csrFrame s t) : t.mem = s.mem := by rw [h]
theorem csrFrame.stored {s t : State} (h : csrFrame s t) : t.stored = s.stored := by rw [h]
theorem csrFrame.tlb {s t : State} (h : csrFrame s t) : t.tlb = s.tlb := by rw [h]
theorem csrFrame.reg {s t : State} (h : csrFrame s t) (r : Reg) : t.reg r = s.reg r := by unfold State.reg; simp only [h.regs]
theorem csrFrame.byteAt {s t : State} (h : csrFrame s t) (a : Nat) : t.byteAt a = s.byteAt a := by rw [h]; rfl
theorem csrFrame.sameWait {s t : State} (h : csrFrame s t) : sameWait s t := by rw [h]; simp [Machine.sameWait]
theorem csrFrame.samePlatform {s t : State} (h : csrFrame s t) : samePlatform s t := by rw [h]; simp [Machine.samePlatform]
theorem csrFrame.sameMemory {s t : State} (h : csrFrame s t) : sameMemory s t := ⟨h.byteAt, h.stored⟩

theorem csrFrame.trans {s t u : State} (h : csrFrame s t) (k : csrFrame t u) : csrFrame s u := by
  unfold csrFrame at *
  rw [h] at k; exact k

/-- What the write of one configuration byte does when it does anything: it changes that byte only (R57, R59). -/
theorem writePmpByte_ok {s t : State} {i : Nat} {b : Byte} (h : writePmpByte s i b = .ok t) :
    (t = s) ∨ (i < s.cfg.pmpCount ∧ pmpL (s.pmpCfg i) = false ∧ ¬(pmpR b = false ∧ pmpW b = true) ∧
      t = { s with pmpcfg := s.pmpcfg.setIfInBounds i (b &&& 0x9F#8) }) := by
  unfold writePmpByte at h
  split at h
  · next hc =>
    split at h
    · cases h
    · next hb => cases h; exact .inr ⟨hc.1, hc.2, hb, rfl⟩
  · cases h; exact .inl rfl

/-- A property of states that the write of one byte keeps is kept by the write of a whole pmpcfg register. -/
theorem writePmpBytes_induct {P : State → Prop} (hP : ∀ s i b t, P s → writePmpByte s i b = .ok t → P t) {l : List Nat} {s t : State} {v : Word}
    (hs : P s) (h : writePmpBytes s v l = .ok t) : P t := by
  induction l generalizing s v with
  | nil => cases h; exact hs
  | cons i rest ih =>
    unfold writePmpBytes at h
    split at h
    · next s' he => exact ih (hP _ _ _ _ hs he) h
    · cases h

theorem writePmpBytes_frame {l : List Nat} {s t : State} {v : Word} (h : writePmpBytes s v l = .ok t) : csrFrame s t := by
  refine writePmpBytes_induct (P := fun u => csrFrame s u) ?_ (rfl : csrFrame s s) h
  intro u i b w hu hw
  rcases writePmpByte_ok hw with rfl | ⟨_, _, _, rfl⟩
  · exact hu
  · exact hu.trans rfl

/-- A CSR write reaches CSRs only. -/
theorem csrWrite_frame {s t : State} {c : Csr} {v : Word} (h : csrWrite s c v = .ok t) : csrFrame s t := by
  cases c <;> simp only [csrWrite] at h
  case pmpcfg k => exact writePmpBytes_frame h
  case pmpaddr i => cases h; unfold writePmpaddr; split <;> rfl
  all_goals (cases h; rfl)

/-- What `csrAllowed` says, part by part (R232). -/
theorem csrAllowed_iff (s : State) (a : BitVec 12) (c : Csr) (writes : Bool) :
    csrAllowed s a c writes = true ↔
      csrExists s.cfg c = true ∧ (a.extractLsb' 8 2).toNat ≤ s.priv.code ∧ ¬(writes = true ∧ a.extractLsb' 10 2 = 0b11#2) ∧
      ¬(c = .satp ∧ s.priv = .S ∧ statusBit s.mstatus .TVM = true) := by
  unfold csrAllowed
  simp only [Bool.and_eq_true, Bool.not_eq_true', decide_eq_true_eq, Bool.and_eq_false_iff, decide_eq_false_iff_not]
  constructor
  · rintro ⟨⟨⟨h1, h2⟩, h3⟩, h4⟩
    refine ⟨h1, h2, ?_, ?_⟩
    · rintro ⟨k1, k2⟩; rcases h3 with h | h
      · simp [k1] at h
      · exact h k2
    · rintro ⟨k1, k2, k3⟩; rcases h4 with (h | h) | h
      · exact h k1
      · exact h k2
      · simp [k3] at h
  · rintro ⟨h1, h2, h3, h4⟩
    refine ⟨⟨⟨h1, h2⟩, ?_⟩, ?_⟩
    · cases hw : writes
      · simp
      · right; exact fun e => h3 ⟨hw, e⟩
    · by_cases k1 : c = .satp
      · by_cases k2 : s.priv = .S
        · right; by_contra k3; exact h4 ⟨k1, k2, by simpa using k3⟩
        · left; right; exact k2
      · left; left; exact k1

end Sys2Proof.Machine
end

