-- ==== Sys2Proof/Laws/Encoding.lean ====
section
/-! SUPPORT. The fields of an encoded word, format by format (30_encoding.md R181 to R184). -/

namespace Sys2Proof

theorem extract_append_high {m n : Nat} (a : BitVec m) (b : BitVec n) (lo len : Nat) (h : n ≤ lo) :
    (a ++ b).extractLsb' lo len = a.extractLsb' (lo - n) len := by
  ext i hi
  have h1 : ¬(lo + i < n) := by omega
  have h2 : lo + i - n = lo - n + i := by omega
  simp [BitVec.getElem_extractLsb', BitVec.getLsbD_append, h1, h2]

theorem extract_append_low {m n : Nat} (a : BitVec m) (b : BitVec n) (lo len : Nat) (h : lo + len ≤ n) :
    (a ++ b).extractLsb' lo len = b.extractLsb' lo len := by
  ext i hi
  have h1 : lo + i < n := by omega
  simp [BitVec.getElem_extractLsb', BitVec.getLsbD_append, h1]

theorem extract_all {n : Nat} (a : BitVec n) : a.extractLsb' 0 n = a := by ext i hi; simp

theorem extract_all_of {n : Nat} (a : BitVec n) (lo : Nat) (h : lo = 0) : a.extractLsb' lo n = a := by subst h; exact extract_all a

theorem getLsbD_eq_of_index {n : Nat} (a : BitVec n) {i j : Nat} (hj : j < n) (h : i = j) : a.getLsbD i = a[j] := by
  subst h; exact BitVec.getLsbD_eq_getElem hj

section
variable (f7 : BitVec 7) (rs2 rs1 rd : Reg) (f3 : BitVec 3) (op : BitVec 7)

theorem encR_opcode : fOpcode (encR f7 rs2 rs1 f3 rd op) = op := by
  simp (disch := decide) only [fOpcode, field, encR, extract_append_low]; exact extract_all op
theorem encR_rd : fRd (encR f7 rs2 rs1 f3 rd op) = rd := by
  simp (disch := decide) only [fRd, field, encR, extract_append_high, extract_append_low]; exact extract_all rd
theorem encR_funct3 : fFunct3 (encR f7 rs2 rs1 f3 rd op) = f3 := by
  simp (disch := decide) only [fFunct3, field, encR, extract_append_high, extract_append_low]; exact extract_all f3
theorem encR_rs1 : fRs1 (encR f7 rs2 rs1 f3 rd op) = rs1 := by
  simp (disch := decide) only [fRs1, field, encR, extract_append_high, extract_append_low]; exact extract_all rs1
theorem encR_rs2 : fRs2 (encR f7 rs2 rs1 f3 rd op) = rs2 := by
  simp (disch := decide) only [fRs2, field, encR, extract_append_high, extract_append_low]; exact extract_all rs2
theorem encR_funct7 : fFunct7 (encR f7 rs2 rs1 f3 rd op) = f7 := by
  simp (disch := decide) only [fFunct7, field, encR, extract_append_high]; exact extract_all f7

variable (imm : BitVec 12)

theorem encI_opcode : fOpcode (encI imm rs1 f3 rd op) = op := by
  simp (disch := decide) only [fOpcode, field, encI, extract_append_low]; exact extract_all op
theorem encI_rd : fRd (encI imm rs1 f3 rd op) = rd := by
  simp (disch := decide) only [fRd, field, encI, extract_append_high, extract_append_low]; exact extract_all rd
theorem encI_funct3 : fFunct3 (encI imm rs1 f3 rd op) = f3 := by
  simp (disch := decide) only [fFunct3, field, encI, extract_append_high, extract_append_low]; exact extract_all f3
theorem encI_rs1 : fRs1 (encI imm rs1 f3 rd op) = rs1 := by
  simp (disch := decide) only [fRs1, field, encI, extract_append_high, extract_append_low]; exact extract_all rs1
theorem encI_imm : fImmI (encI imm rs1 f3 rd op) = imm := by
  simp (disch := decide) only [fImmI, field, encI, extract_append_high]; exact extract_all imm

theorem encS_opcode : fOpcode (encS imm rs2 rs1 f3 op) = op := by
  simp (disch := decide) only [fOpcode, field, encS, extract_append_low]; exact extract_all op
theorem encS_funct3 : fFunct3 (encS imm rs2 rs1 f3 op) = f3 := by
  simp (disch := decide) only [fFunct3, field, encS, extract_append_high, extract_append_low]; exact extract_all f3
theorem encS_rs1 : fRs1 (encS imm rs2 rs1 f3 op) = rs1 := by
  simp (disch := decide) only [fRs1, field, encS, extract_append_high, extract_append_low]; exact extract_all rs1
theorem encS_rs2 : fRs2 (encS imm rs2 rs1 f3 op) = rs2 := by
  simp (disch := decide) only [fRs2, field, encS, extract_append_high, extract_append_low]; exact extract_all rs2
theorem encS_imm : fImmS (encS imm rs2 rs1 f3 op) = imm := by
  simp (disch := decide) only [fImmS, field, encS, extract_append_high, extract_append_low]
  ext i hi
  simp only [BitVec.getElem_append, BitVec.getElem_extractLsb', BitVec.getLsbD_extractLsb']
  split
  · next h => simp [BitVec.getLsbD_eq_getElem, hi, h]
  · next h =>
    have h1 : 5 + (i - 5) = i := by omega
    have h2 : i - 5 < 7 := by omega
    simp [h1, h2, BitVec.getLsbD_eq_getElem, hi]

variable (off : BitVec 13)

theorem encB_opcode : fOpcode (encB off rs2 rs1 f3 op) = op := by
  simp (disch := decide) only [fOpcode, field, encB, extract_append_low]; exact extract_all op
theorem encB_funct3 : fFunct3 (encB off rs2 rs1 f3 op) = f3 := by
  simp (disch := decide) only [fFunct3, field, encB, extract_append_high, extract_append_low]; exact extract_all f3
theorem encB_rs1 : fRs1 (encB off rs2 rs1 f3 op) = rs1 := by
  simp (disch := decide) only [fRs1, field, encB, extract_append_high, extract_append_low]; exact extract_all rs1
theorem encB_rs2 : fRs2 (encB off rs2 rs1 f3 op) = rs2 := by
  simp (disch := decide) only [fRs2, field, encB, extract_append_high, extract_append_low]; exact extract_all rs2

/-- A branch offset cut into the fields of the B format and put together again, its low bit zero. -/
theorem reassemble_B (h : evenOffset off = true) :
    off.extractLsb' 12 1 ++ (off.extractLsb' 11 1 ++ (off.extractLsb' 5 6 ++ (off.extractLsb' 1 4 ++ 0#1))) = off := by
  have h0 : off[0] = false := by simpa [evenOffset] using h
  ext i hi
  simp only [BitVec.getElem_append, BitVec.getElem_extractLsb']
  split_ifs with h1 h2 h3 h4
  · have : i = 0 := by omega
    subst this; simp [h0]
  all_goals exact getLsbD_eq_of_index off (by omega) (by omega)

theorem encB_imm (h : evenOffset off = true) : fImmB (encB off rs2 rs1 f3 op) = off := by
  simp (disch := decide) only [fImmB, field, encB, extract_append_high, extract_append_low, extract_all_of]
  exact reassemble_B off h

variable (imm20 : BitVec 20)

theorem encU_opcode : fOpcode (encU imm20 rd op) = op := by
  simp (disch := decide) only [fOpcode, field, encU, extract_append_low]; exact extract_all op
theorem encU_rd : fRd (encU imm20 rd op) = rd := by
  simp (disch := decide) only [fRd, field, encU, extract_append_high, extract_append_low]; exact extract_all rd
theorem encU_imm : fImmU (encU imm20 rd op) = imm20 := by
  simp (disch := decide) only [fImmU, field, encU, extract_append_high]; exact extract_all imm20

variable (joff : BitVec 21)

theorem encJ_opcode : fOpcode (encJ joff rd op) = op := by
  simp (disch := decide) only [fOpcode, field, encJ, extract_append_low]; exact extract_all op
theorem encJ_rd : fRd (encJ joff rd op) = rd := by
  simp (disch := decide) only [fRd, field, encJ, extract_append_high, extract_append_low]; exact extract_all rd

/-- A jump offset cut into the fields of the J format and put together again, its low bit zero. -/
theorem reassemble_J (h : evenOffset joff = true) :
    joff.extractLsb' 20 1 ++ (joff.extractLsb' 12 8 ++ (joff.extractLsb' 11 1 ++ (joff.extractLsb' 1 10 ++ 0#1))) = joff := by
  have h0 : joff[0] = false := by simpa [evenOffset] using h
  ext i hi
  simp only [BitVec.getElem_append, BitVec.getElem_extractLsb']
  split_ifs with h1 h2 h3 h4
  · have : i = 0 := by omega
    subst this; simp [h0]
  all_goals exact getLsbD_eq_of_index joff (by omega) (by omega)

theorem encJ_imm (h : evenOffset joff = true) : fImmJ (encJ joff rd op) = joff := by
  simp (disch := decide) only [fImmJ, field, encJ, extract_append_high, extract_append_low, extract_all_of]
  exact reassemble_J joff h

variable (shamt : BitVec 6)

theorem encShift_opcode : fOpcode (encShift shamt rs1 f3 rd op) = op := by
  simp (disch := decide) only [fOpcode, field, encShift, extract_append_low]; exact extract_all op
theorem encShift_rd : fRd (encShift shamt rs1 f3 rd op) = rd := by
  simp (disch := decide) only [fRd, field, encShift, extract_append_high, extract_append_low]; exact extract_all rd
theorem encShift_funct3 : fFunct3 (encShift shamt rs1 f3 rd op) = f3 := by
  simp (disch := decide) only [fFunct3, field, encShift, extract_append_high, extract_append_low]; exact extract_all f3
theorem encShift_rs1 : fRs1 (encShift shamt rs1 f3 rd op) = rs1 := by
  simp (disch := decide) only [fRs1, field, encShift, extract_append_high, extract_append_low]; exact extract_all rs1
theorem encShift_shamt : field (encShift shamt rs1 f3 rd op) 20 6 = shamt := by
  simp (disch := decide) only [field, encShift, extract_append_high, extract_append_low]; exact extract_all shamt
theorem encShift_zeros : field (encShift shamt rs1 f3 rd op) 26 6 = 0#6 := by
  simp (disch := decide) only [field, encShift, extract_append_high]; exact extract_all _

end

/-! ### A word put together again from its fields -/

theorem field_append (w : BitVec 32) (a b : Nat) {n m : Nat} (hn : n + a = b) :
    (field w b m ++ field w a n : BitVec (m+n)) = field w a (m+n) := by
  unfold field
  ext i hi
  simp only [BitVec.getElem_append, BitVec.getElem_extractLsb']
  split
  · rfl
  · congr 1; omega

theorem field_whole (w : BitVec 32) : field w 0 32 = w := by unfold field; simp

theorem encR_fields (w : BitVec 32) : encR (fFunct7 w) (fRs2 w) (fRs1 w) (fFunct3 w) (fRd w) (fOpcode w) = w := by
  unfold encR fFunct7 fRs2 fRs1 fFunct3 fRd fOpcode
  rw [field_append w 0 7 rfl, field_append w 0 12 rfl, field_append w 0 15 rfl, field_append w 0 20 rfl, field_append w 0 25 rfl]; exact field_whole w
theorem encI_fields (w : BitVec 32) : encI (fImmI w) (fRs1 w) (fFunct3 w) (fRd w) (fOpcode w) = w := by
  unfold encI fImmI fRs1 fFunct3 fRd fOpcode
  rw [field_append w 0 7 rfl, field_append w 0 12 rfl, field_append w 0 15 rfl, field_append w 0 20 rfl]; exact field_whole w
theorem encU_fields (w : BitVec 32) : encU (fImmU w) (fRd w) (fOpcode w) = w := by
  unfold encU fImmU fRd fOpcode
  rw [field_append w 0 7 rfl, field_append w 0 12 rfl]; exact field_whole w
theorem encShift_fields (w : BitVec 32) (h : field w 26 6 = 0#6) : encShift (field w 20 6) (fRs1 w) (fFunct3 w) (fRd w) (fOpcode w) = w := by
  unfold encShift fRs1 fFunct3 fRd fOpcode
  rw [← h]
  rw [field_append w 0 7 rfl, field_append w 0 12 rfl, field_append w 0 15 rfl, field_append w 0 20 rfl, field_append w 0 26 rfl]; exact field_whole w
theorem encS_fields (w : BitVec 32) : encS (fImmS w) (fRs2 w) (fRs1 w) (fFunct3 w) (fOpcode w) = w := by
  unfold encS fImmS
  have h1 : (field w 25 7 ++ field w 7 5 : BitVec 12).extractLsb' 5 7 = field w 25 7 := by
    rw [extract_append_high _ _ _ _ (by decide)]; exact extract_all _
  have h2 : (field w 25 7 ++ field w 7 5 : BitVec 12).extractLsb' 0 5 = field w 7 5 := by
    rw [extract_append_low _ _ _ _ (by decide)]; exact extract_all _
  rw [h1, h2]
  exact encR_fields w
theorem encB_fields (w : BitVec 32) : encB (fImmB w) (fRs2 w) (fRs1 w) (fFunct3 w) (fOpcode w) = w := by
  unfold encB fImmB
  simp (disch := decide) only [extract_append_high, extract_append_low, extract_all_of]
  unfold fRs2 fRs1 fFunct3 fOpcode
  rw [field_append w 0 7 rfl, field_append w 0 8 rfl, field_append w 0 12 rfl, field_append w 0 15 rfl, field_append w 0 20 rfl, field_append w 0 25 rfl, field_append w 0 31 rfl]; exact field_whole w
theorem encJ_fields (w : BitVec 32) : encJ (fImmJ w) (fRd w) (fOpcode w) = w := by
  unfold encJ fImmJ
  simp (disch := decide) only [extract_append_high, extract_append_low, extract_all_of]
  unfold fRd fOpcode
  rw [field_append w 0 7 rfl, field_append w 0 12 rfl, field_append w 0 20 rfl, field_append w 0 21 rfl, field_append w 0 31 rfl]; exact field_whole w
theorem fImmB_even (w : BitVec 32) : evenOffset (fImmB w) = true := by
  unfold evenOffset fImmB; simp only [BitVec.getLsbD_append]; simp
theorem fImmJ_even (w : BitVec 32) : evenOffset (fImmJ w) = true := by
  unfold evenOffset fImmJ; simp only [BitVec.getLsbD_append]; simp


end Sys2Proof
end

