-- ==== Sys2Proof/Laws/Step.lean ====
section
/-! SUPPORT. What one instruction, and one step, can do: a property that the primitive updates keep is kept by every step. -/

namespace Sys2Proof.Machine

/-- The property is kept by every primitive update a step is made of. A value that reaches a register through a trap or a CSR
write is known to fit XLEN only where the registers do (`widthInv`). -/
structure Kept (P : State → Prop) : Prop where
  draw : ∀ s, P s → P (drawChoices s)
  env : ∀ s, P s → P (environment s)
  access : ∀ s t, P s → AccessFrame s t → P t
  setReg : ∀ s r v, P s → P (s.setReg r v)
  advance : ∀ s, P s → P s.advance
  jump : ∀ s v, P s → s.targetOk v = true → fits s.cfg.xlen v → P (s.setPc v)
  trap : ∀ s c v, P s → (widthInv s → fits s.cfg.xlen v) → P (takeTrap c v s.pc s)
  mret : ∀ s, P s → s.priv = .M → P (returnM s)
  sret : ∀ s, P s → s.cfg.modes = .msu → s.priv ≠ .U → P (returnS s)
  csr : ∀ s a c v t, P s → csrAt a = some c → csrAllowed s a c true = true → (widthInv s → fits s.cfg.xlen v) →
    csrWrite s c v = .ok t → P t
  wait : ∀ s b n, P s → P { s with waiting := b, waited := n }

/-- Writing a register and going on is the register write followed by the advance. -/
theorem writeAdvance_eq (rd : Reg) (v : Word) (s : State) : (s.setReg rd v).setPc s.nextPc = (s.setReg rd v).advance := by
  unfold State.advance State.nextPc; simp

theorem Kept.writeAdvance {P : State → Prop} (K : Kept P) {rd : Reg} {v : Word} {s t : State} (hs : P s)
    (h : writeAdvance rd v s = .next t) : P t := by
  cases h; rw [writeAdvance_eq]; exact K.advance _ (K.setReg _ _ _ hs)

theorem setReg_targetOk (s : State) (r : Reg) (v w : Word) : (s.setReg r v).targetOk w = s.targetOk w := by
  unfold State.targetOk; simp

theorem Kept.jumpOp {P : State → Prop} (K : Kept P) {rd : Reg} {v : Word} {s t : State} (hs : P s) (hv : fits s.cfg.xlen v)
    (h : Machine.jump rd v s = .next t) : P t := by
  unfold Machine.jump at h
  split at h
  · next ho => cases h; exact K.jump _ _ (K.setReg _ _ _ hs) (by rw [setReg_targetOk]; exact ho) (by simpa using hv)
  · cases h; exact K.trap _ _ _ hs fun _ => hv

theorem Kept.branchOp {P : State → Prop} (K : Kept P) {b : Bool} {v : Word} {s t : State} (hs : P s) (hv : fits s.cfg.xlen v)
    (h : branch b v s = .next t) : P t := by
  unfold branch at h
  split at h
  · split at h
    · next ho => cases h; exact K.jump _ _ hs ho hv
    · cases h; exact K.trap _ _ _ hs fun _ => hv
  · cases h; exact K.advance _ hs

theorem fits_setWidth32 (x : Xlen) (w : BitVec 32) : fits x (w.setWidth 64) := by
  apply fits_of_lt; have := w.isLt; simp; omega

theorem Kept.illegal {P : State → Prop} (K : Kept P) {i : Instr} {s : State} (hs : P s) : P (raiseIllegal i s) :=
  K.trap _ _ _ hs fun _ => fits_setWidth32 _ _

theorem fits_bytesToWord {bs : List Byte} : (bytesToWord bs).toNat < 2 ^ (8 * bs.length) := by
  induction bs with
  | nil => simp [bytesToWord]
  | cons b rest ih =>
    simp only [bytesToWord, List.length_cons, BitVec.toNat_or]
    refine Nat.or_lt_two_pow ?_ ?_
    · have h1 := b.isLt
      have h2 : (2 : Nat) ^ 8 ≤ 2 ^ (8 * (rest.length + 1)) := Nat.pow_le_pow_right (by decide) (by omega)
      simp; omega
    · simp only [BitVec.toNat_shiftLeft, Nat.shiftLeft_eq]
      refine lt_of_le_of_lt (Nat.mod_le _ _) ?_
      have : (2 : Nat) ^ (8 * (rest.length + 1)) = 2 ^ (8 * rest.length) * 2 ^ 8 := by rw [← Nat.pow_add]; congr 1
      rw [this]; exact Nat.mul_lt_mul_of_pos_right ih (by decide)

theorem mipWord_lt (s : State) (b : Bool) (x : Xlen) : fits x (mipWord s b) := by
  unfold mipWord
  iterate 6 apply fits_withBit _ _ (by decide)
  exact fits_zero x

theorem fits_pmpAddr {s : State} (W : widthInv s) (i : Nat) : fits s.cfg.xlen (s.pmpAddr i) := by
  unfold State.pmpAddr
  split
  · by_cases h : i < 16
    · have := W.2.2.2.2.2.2.2.2.2.2.2.2.2.2.2.2.2.2.1 ⟨i, h⟩
      simpa [h] using this
    · simp [h, fits_zero]
  · exact fits_zero _

/-- A CSR read answers an XLEN-bit value. -/
theorem fits_csrRead {s : State} (W : widthInv s) (c : Csr) : fits s.cfg.xlen (csrRead s c) := by
  have hp := fits_pmpAddr W
  obtain ⟨_, _, hms, hmd, hmi, hie, htv, hsc, hep, hca, hva, hip, hst, hss, hse, hsca, hsv, hsa, _, _⟩ := W
  cases c <;> simp only [csrRead]
  case sstatus => exact fits_and_left _ hms
  case sie => exact fits_and_left _ (fits_and_left _ hie)
  case sip => exact fits_and_left _ (fits_and_left _ (mipWord_lt _ _ _))
  case mip => exact mipWord_lt _ _ _
  case pmpcfg k =>
    cases hx : s.cfg.xlen
    · unfold fits pmpcfgEntries; exact lt_of_lt_of_le fits_bytesToWord (by simp [Xlen.bits])
    · exact fits_rv64 _
  case pmpaddr i => exact hp _
  all_goals assumption

theorem fits_csrReadForModify {s : State} (W : widthInv s) (c : Csr) : fits s.cfg.xlen (csrReadForModify s c) := by
  unfold csrReadForModify
  split
  · exact mipWord_lt _ _ _
  · exact fits_and_left _ (fits_and_left _ (mipWord_lt _ _ _))
  · exact fits_csrRead W c

theorem Kept.csrOp {P : State → Prop} (K : Kept P) {i : Instr} {a : BitVec 12} {rd : Reg} {w : Bool} {new : Word → Word} {s t : State}
    (hs : P s) (hn : widthInv s → ∀ v, fits s.cfg.xlen v → fits s.cfg.xlen (new v)) (h : Machine.csrOp i a rd w new s = .next t) : P t := by
  obtain ⟨c, hc, ⟨_, rfl⟩ | ⟨_, _, rfl⟩ | ⟨ha, hw, s', hw', rfl⟩⟩ := csrOp_next h
  · exact K.illegal hs
  · rw [writeAdvance_eq]; exact K.advance _ (K.setReg _ _ _ hs)
  · rw [writeAdvance_eq]
    rw [hw] at ha
    exact K.advance _ (K.setReg _ _ _ (K.csr _ _ _ _ _ hs hc ha (fun W => hn W _ (fits_csrReadForModify W c)) hw'))

theorem fits_immZ (x : Xlen) (u : BitVec 5) : fits x (immZ u) := by
  apply fits_of_lt; have := u.isLt; simp [immZ]; omega

theorem fits_effAddr (s : State) (rs1 : Reg) (imm : BitVec 12) : fits s.cfg.xlen (s.effAddr rs1 imm) := fits_wrap _ _

theorem fits_jalrTarget (s : State) (rs1 : Reg) (imm : BitVec 12) : fits s.cfg.xlen (s.jalrTarget rs1 imm) :=
  fits_and_left _ (fits_effAddr _ _ _)

/-- The data access of `lw` or `sw` keeps what the primitive updates keep. -/
theorem Kept.finish {α : Type} {P : State → Prop} (K : Kept P) {x : Access α} {f : α → State → Result} {s t : State} {kind : AccessKind}
    {mis : Exc} {va : Word} {n : Nat} (hs : P s) (hva : fits s.cfg.xlen va) (hx : x.sat (fun _ t => AccessFrame s t) (dataTrap kind mis va n s))
    (hf : ∀ a u, P u → AccessFrame s u → f a u = .next t → P t) (h : x.finish f = .next t) : P t := by
  rcases Access.finish_next h with ⟨a, u, rfl, hu⟩ | ⟨e, v, u, rfl, rfl⟩
  · exact hf a u (K.access _ _ hs hx) hx hu
  · obtain ⟨h1, _, h3⟩ := hx
    refine K.trap _ _ _ (K.access _ _ hs h1) fun _ => ?_
    rw [h1.cfg]
    rcases h3 with rfl | ⟨k, _, rfl⟩
    · exact hva
    · exact fits_wrap _ _

/-- Every instruction keeps what the primitive updates keep. -/
theorem Kept.exec {P : State → Prop} (K : Kept P) {i : Instr} {s t : State} (hs : P s) (h : Machine.exec i s = .next t) : P t := by
  cases i <;> simp only [Machine.exec] at h
  case sret =>
    unfold execSret at h
    split at h
    · cases h; exact K.illegal hs
    · next hc => cases h; exact K.sret _ hs (by tauto) (by tauto)
  case mret =>
    unfold execMret at h
    split at h
    · next hc => cases h; exact K.mret _ hs hc
    · cases h; exact K.illegal hs
  case wfi =>
    have hstall : P (stallWfi s) := by
      unfold stallWfi
      split
      · exact K.advance _ hs
      · exact K.wait _ _ _ hs
    unfold execWfi at h
    split at h
    · cases h; exact K.illegal hs
    · split at h
      · cases h; exact K.advance _ hs
      · cases h; exact hstall
      · cases h
        split
        · exact hstall
        · exact K.advance _ hs
  case sfenceVma rs1 rs2 =>
    unfold execSfenceVma at h
    split at h
    · cases h; exact K.illegal hs
    · cases h; exact K.advance _ (K.access _ _ hs (accessFrame_tlb _ _))
  case ecall =>
    cases h; exact K.trap _ _ _ hs fun _ => fits_zero _
  case ebreak =>
    cases h; exact K.trap _ _ _ hs fun _ => fits_zero _
  case csrrw => exact K.csrOp hs (fun W _ _ => W.1 _) h
  case csrrs => exact K.csrOp hs (fun W _ hv => fits_or hv (W.1 _)) h
  case csrrc => exact K.csrOp hs (fun _ _ hv => fits_and_left _ hv) h
  case csrrwi => exact K.csrOp hs (fun _ _ _ => fits_immZ _ _) h
  case csrrsi => exact K.csrOp hs (fun _ _ hv => fits_or hv (fits_immZ _ _)) h
  case csrrci => exact K.csrOp hs (fun _ _ hv => fits_and_left _ hv) h
  case jal => exact K.jumpOp hs (fits_wrap _ _) h
  case jalr => exact K.jumpOp hs (fits_jalrTarget _ _ _) h
  case lw rd rs1 imm =>
    exact K.finish hs (fits_effAddr _ _ _) (memLoad_sat _ _ _) (fun _ _ hu _ hn => K.writeAdvance hu hn) h
  case sw rs2 rs1 imm =>
    exact K.finish hs (fits_effAddr _ _ _) (memStore_sat _ _ _ _) (fun _ _ hu _ hn => by cases hn; exact K.advance _ hu) h
  case beq => exact K.branchOp hs (fits_wrap _ _) h
  case bne => exact K.branchOp hs (fits_wrap _ _) h
  case blt => exact K.branchOp hs (fits_wrap _ _) h
  case bge => exact K.branchOp hs (fits_wrap _ _) h
  case bltu => exact K.branchOp hs (fits_wrap _ _) h
  case bgeu => exact K.branchOp hs (fits_wrap _ _) h
  all_goals exact K.writeAdvance hs h

/-- Decoding and executing a word keeps it. -/
theorem Kept.execWord {P : State → Prop} (K : Kept P) {w : BitVec 32} {s t : State} (hs : P s) (h : Machine.execWord w s = .next t) : P t := by
  unfold Machine.execWord at h
  split at h
  · exact K.exec hs h
  · cases h; exact K.trap _ _ _ hs fun _ => fits_setWidth32 _ _
  all_goals cases h

/-- Fetching and executing keeps it. -/
theorem Kept.runInstruction {P : State → Prop} (K : Kept P) {s t : State} (hs : P s) (h : Machine.runInstruction s = .next t) : P t := by
  have hf := fetch_sat s
  rcases Access.finish_next h with ⟨w, u, hu, hx⟩ | ⟨e, v, u, hu, rfl⟩
  · rw [hu] at hf; exact K.execWord (K.access _ _ hs hf) hx
  · rw [hu] at hf
    obtain ⟨h1, _, rfl⟩ := hf
    exact K.trap _ _ _ (K.access _ _ hs h1) fun W => by rw [← h1.pc]; exact W.2.1

theorem Kept.atBoundary {P : State → Prop} (K : Kept P) {s t : State} (hs : P s) (h : Machine.atBoundary s = .next t) : P t := by
  unfold Machine.atBoundary at h
  split at h
  · split at h
    · cases h; exact K.trap _ _ _ hs fun _ => fits_zero _
    · exact K.runInstruction hs h
  · exact K.runInstruction hs h

/-- A step of the hart keeps it. -/
theorem Kept.hartStep {P : State → Prop} (K : Kept P) {s t : State} (hs : P s) (h : Machine.hartStep s = .next t) : P t := by
  unfold Machine.hartStep at h
  split at h
  · split at h
    · exact K.atBoundary (K.advance _ (K.wait _ _ _ hs)) h
    · split at h
      · cases h; exact K.illegal (K.wait _ _ _ hs)
      · cases h; exact K.wait _ s.waiting _ hs
  · exact K.atBoundary hs h

/-- Every step keeps what the primitive updates keep. -/
theorem Kept.step {P : State → Prop} (K : Kept P) {s t : State} (hs : P s) (h : Machine.step s = .next t) : P t :=
  K.hartStep (K.env _ (K.draw _ hs)) h

end Sys2Proof.Machine
end

