-- ==== Sys2Proof/Laws/Operations.lean ====
section
/-! SUPPORT. What each shared operation leaves: one lemma each, for the register write, the advance, the jump, the branch and the
raised exception; and the arithmetic modulo 2^XLEN behind them. -/

namespace Sys2Proof.Machine

/-! ### Arithmetic modulo 2^XLEN -/

theorem modXlen_toNat (x : Xlen) (z : Int) : ((modXlen x z).toNat : Int) = z % 2 ^ x.bits := by
  unfold modXlen
  have h1 : (0 : Int) ≤ z % 2 ^ x.bits := Int.emod_nonneg _ (by cases x <;> norm_num [Xlen.bits])
  have h2 : z % 2 ^ x.bits < 2 ^ 64 := lt_of_lt_of_le (Int.emod_lt_of_pos _ (by cases x <;> norm_num [Xlen.bits])) (by cases x <;> norm_num [Xlen.bits])
  rw [BitVec.toNat_ofInt]
  have : z % 2 ^ x.bits % ((2 ^ 64 : Nat) : Int) = z % 2 ^ x.bits := Int.emod_eq_of_lt h1 (by exact_mod_cast h2)
  rw [this]; exact Int.toNat_of_nonneg h1

theorem fits_modXlen (x : Xlen) (z : Int) : fits x (modXlen x z) := by
  have h := modXlen_toNat x z
  have h2 : z % 2 ^ x.bits < 2 ^ x.bits := Int.emod_lt_of_pos _ (by cases x <;> norm_num [Xlen.bits])
  unfold fits; rw [← h] at h2; exact_mod_cast h2

/-- A word is determined by its value modulo 2^XLEN. -/
theorem eq_modXlen {x : Xlen} {v : Word} {z : Int} (hv : fits x v) (h : (v.toNat : Int) % 2 ^ x.bits = z % 2 ^ x.bits) : v = modXlen x z := by
  apply BitVec.eq_of_toNat_eq
  have h1 : (v.toNat : Int) % 2 ^ x.bits = v.toNat := Int.emod_eq_of_lt (by omega) (by unfold fits at hv; exact_mod_cast hv)
  have h2 := modXlen_toNat x z
  rw [h1] at h; rw [← h] at h2; exact_mod_cast h2.symm

theorem pow_bits_dvd (x : Xlen) : (2 : Int) ^ x.bits ∣ 2 ^ 64 := by cases x <;> norm_num [Xlen.bits]

theorem wrap_emod (x : Xlen) (v : Word) : ((x.wrap v).toNat : Int) % 2 ^ x.bits = (v.toNat : Int) % 2 ^ x.bits := by
  rw [wrap_toNat]; push_cast; exact Int.emod_emod_of_dvd _ (dvd_refl _)

/-- Reducing a word is reducing its value. -/
theorem wrap_eq_modXlen {x : Xlen} {v : Word} {z : Int} (h : (v.toNat : Int) % 2 ^ x.bits = z % 2 ^ x.bits) : x.wrap v = modXlen x z :=
  eq_modXlen (fits_wrap x v) (by rw [wrap_emod]; exact h)

theorem add_emod (x : Xlen) (a b : Word) : ((a + b).toNat : Int) % 2 ^ x.bits = ((a.toNat : Int) + b.toNat) % 2 ^ x.bits := by
  rw [BitVec.toNat_add]; push_cast
  exact Int.emod_emod_of_dvd _ (pow_bits_dvd x)

theorem sub_emod (x : Xlen) (a b : Word) : ((a - b).toNat : Int) % 2 ^ x.bits = ((a.toNat : Int) - b.toNat) % 2 ^ x.bits := by
  have hb := b.isLt
  have h : ((a - b).toNat : Int) = (2 ^ 64 - b.toNat + a.toNat) % 2 ^ 64 := by
    rw [BitVec.toNat_sub]; omega
  rw [h, Int.emod_emod_of_dvd _ (pow_bits_dvd x)]
  obtain ⟨k, hk⟩ := pow_bits_dvd x
  rw [hk]
  have : (2 : Int) ^ x.bits * k - b.toNat + a.toNat = (a.toNat - b.toNat) + 2 ^ x.bits * k := by ring
  rw [this, Int.add_mul_emod_self_left]

theorem sext_emod (x : Xlen) {n : Nat} (v : BitVec n) (hn : n ≤ 64) : ((sext x v).toNat : Int) % 2 ^ x.bits = v.toInt % 2 ^ x.bits := by
  unfold sext; rw [wrap_emod]
  have h : ((v.signExtend 64).toInt) = v.toInt := BitVec.toInt_signExtend_of_le hn
  have h2 : ((v.signExtend 64).toNat : Int) % 2 ^ 64 = (v.signExtend 64).toInt % 2 ^ 64 := by
    rw [BitVec.toInt_eq_toNat_bmod]; exact (Int.bmod_emod (m := 2 ^ 64)).symm
  have h3 := congrArg (fun z : Int => z % 2 ^ x.bits) h2
  simp only [Int.emod_emod_of_dvd _ (pow_bits_dvd x)] at h3
  rw [h3, h]

/-- Adding a sign-extended field: the sum of the values, modulo 2^XLEN. -/
theorem wrap_add_sext (x : Xlen) (a : Word) {n : Nat} (v : BitVec n) (hn : n ≤ 64) :
    x.wrap (a + sext x v) = modXlen x (unsigned a + v.toInt) := by
  apply wrap_eq_modXlen
  rw [add_emod, Int.add_emod, sext_emod x v hn, ← Int.add_emod]; rfl

theorem sext_eq_modXlen (x : Xlen) {n : Nat} (v : BitVec n) (hn : n ≤ 64) : sext x v = modXlen x v.toInt :=
  eq_modXlen (fits_sext x v) (sext_emod x v hn)

theorem nextPc_eq (s : State) : s.nextPc = s.following := by
  unfold State.nextPc State.following
  apply wrap_eq_modXlen; rw [add_emod]; rfl

theorem effAddr_eq (s : State) (r : Reg) (imm : BitVec 12) : s.effAddr r imm = modXlen s.cfg.xlen (unsigned (s.reg r) + imm.toInt) :=
  wrap_add_sext _ _ _ (by decide)

theorem pcTarget_eq (s : State) {n : Nat} (off : BitVec n) (hn : n ≤ 64) : s.pcTarget off = modXlen s.cfg.xlen (unsigned s.pc + off.toInt) :=
  wrap_add_sext _ _ _ hn

/-! ### Register writes -/

theorem reg_zero (s : State) : s.reg 0#5 = 0#64 := by simp [State.reg]

theorem reg_setReg_same (s : State) (r : Reg) (v : Word) : (s.setReg r v).reg r = if r = 0#5 then 0#64 else s.cfg.xlen.wrap v := by
  unfold State.setReg State.reg
  split <;> simp_all

theorem reg_setReg_ne (s : State) (r q : Reg) (v : Word) (h : q ≠ r) : (s.setReg r v).reg q = s.reg q := by
  unfold State.setReg State.reg
  split
  · rfl
  · split
    · rfl
    · have : r.toNat ≠ q.toNat := fun e => h (BitVec.eq_of_toNat_eq e.symm)
      simp [this]

theorem reg_setPc (s : State) (v : Word) (r : Reg) : (s.setPc v).reg r = s.reg r := rfl

theorem byteAt_setReg (s : State) (r : Reg) (v : Word) (a : Nat) : (s.setReg r v).byteAt a = s.byteAt a := by
  unfold State.setReg; split <;> rfl

theorem sameBeyondRegs_setReg (s : State) (r : Reg) (v p : Word) : sameBeyondRegs s ((s.setReg r v).setPc p) := by
  simp only [sameBeyondRegs, sameCsrs, sameWait, sameCache, samePlatform, sameMemory]
  refine ⟨by simp, by simp, by simp, by simp, fun a => ?_, by simp⟩
  exact byteAt_setReg s r v a

theorem wentTo_set (rd : Reg) (v target : Word) (s : State) : wentTo rd (s.cfg.xlen.wrap v) target s ((s.setReg rd v).setPc target) :=
  ⟨reg_setReg_same s rd v, fun q hq => reg_setReg_ne s rd q v hq, rfl, sameBeyondRegs_setReg s rd v target⟩

/-- `writeAdvance`: the register, reduced modulo 2^XLEN, and the next pc. -/
theorem writeAdvance_spec (rd : Reg) (v : Word) (s : State) :
    ∃ t, writeAdvance rd v s = .next t ∧ wroteReg rd (s.cfg.xlen.wrap v) s t :=
  ⟨_, rfl, by unfold wroteReg; rw [← nextPc_eq]; exact wentTo_set rd v s.nextPc s⟩

theorem movedTo_setPc (s : State) (v : Word) : movedTo v s (s.setPc v) :=
  ⟨rfl, fun _ => rfl, by simp [sameCsrs], by simp [sameWait], rfl, by simp [samePlatform], fun _ => rfl, rfl⟩

theorem movedTo_advance (s : State) : movedTo s.following s s.advance := by
  rw [← nextPc_eq]; exact movedTo_setPc s _

/-! ### Exceptions -/

theorem byteAt_takeTrap (c : Cause) (v epc : Word) (s : State) (a : Nat) : (takeTrap c v epc s).byteAt a = s.byteAt a := by
  unfold takeTrap; split <;> rfl

theorem reg_takeTrap (c : Cause) (v epc : Word) (s : State) (r : Reg) : (takeTrap c v epc s).reg r = s.reg r := by
  unfold takeTrap; split <;> rfl

/-- A raised exception is the trap entry and nothing else. -/
theorem trapped_raise (e : Exc) (v : Word) (s : State) : trapped e v s (raise e v s) := by
  refine ⟨rfl, fun r => reg_takeTrap _ _ _ _ _, ⟨fun a => byteAt_takeTrap _ _ _ _ _, by simp⟩, ?_, ?_, ?_, ?_⟩ <;>
    simp [sameUntrapped, sameWait, sameCache, samePlatform]

/-! ### Jumps and branches -/

theorem targetOk_iff (s : State) (v : Word) : s.targetOk v = true ↔ alignedTo s.cfg v := by
  unfold State.targetOk alignedTo; simp

/-- `jump` to an aligned target. -/
theorem jump_aligned (rd : Reg) (target : Word) (s : State) (h : alignedTo s.cfg target) :
    ∃ t, jump rd target s = .next t ∧ wentTo rd s.following target s t := by
  refine ⟨_, by unfold jump; rw [(targetOk_iff s target).2 h]; rfl, ?_⟩
  have := wentTo_set rd s.nextPc target s
  rw [show s.cfg.xlen.wrap s.nextPc = s.nextPc from wrap_wrap _ _] at this
  rw [← nextPc_eq]; exact this

/-- `jump` to a misaligned target. -/
theorem jump_misaligned (rd : Reg) (target : Word) (s : State) (h : ¬alignedTo s.cfg target) :
    ∃ t, jump rd target s = .next t ∧ trapped .instructionAddressMisaligned target s t := by
  have : s.targetOk target = false := by rw [← Bool.not_eq_true, targetOk_iff]; exact h
  exact ⟨_, by unfold jump; rw [this]; rfl, trapped_raise _ _ _⟩

theorem branch_taken (target : Word) (s : State) (h : alignedTo s.cfg target) :
    ∃ t, branch true target s = .next t ∧ movedTo target s t :=
  ⟨_, by unfold branch; rw [(targetOk_iff s target).2 h]; rfl, movedTo_setPc s target⟩

theorem branch_misaligned (target : Word) (s : State) (h : ¬alignedTo s.cfg target) :
    ∃ t, branch true target s = .next t ∧ trapped .instructionAddressMisaligned target s t := by
  have : s.targetOk target = false := by rw [← Bool.not_eq_true, targetOk_iff]; exact h
  exact ⟨_, by unfold branch; rw [this]; rfl, trapped_raise _ _ _⟩

theorem branch_not_taken (target : Word) (s : State) : ∃ t, branch false target s = .next t ∧ movedTo s.following s t :=
  ⟨_, rfl, movedTo_advance s⟩

/-- The signed value of a word is its two's-complement value at XLEN bits. -/
theorem signedValue_eq (x : Xlen) (v : Word) : signedValue x v = twos x v := by
  unfold signedValue twos
  cases x
  · simp only [Xlen.bits, BitVec.toInt_eq_toNat_cond, BitVec.toNat_setWidth]
    norm_num only
    split_ifs <;> omega
  · simp only [Xlen.bits, BitVec.toInt_eq_toNat_cond]
    have := v.isLt
    norm_num only at *
    split_ifs <;> omega

/-! ### Words and their bytes -/

/-- Every bit of a word made of bytes. -/
theorem bytesToWord_bit (bs : List Byte) (i : Nat) (hi : i < 64) :
    (bytesToWord bs).getLsbD i = (bs[i / 8]?.getD 0#8).getLsbD (i % 8) := by
  induction bs generalizing i with
  | nil => simp [bytesToWord]
  | cons b rest ih =>
    simp only [bytesToWord, BitVec.getLsbD_or, BitVec.getLsbD_setWidth, BitVec.getLsbD_shiftLeft]
    rcases Nat.lt_or_ge i 8 with h | h
    · have h1 : i / 8 = 0 := by omega
      have h2 : i % 8 = i := by omega
      simp only [h1, h2, h, hi]; simp
    · have h1 : i / 8 = (i - 8) / 8 + 1 := by omega
      have h2 : i % 8 = (i - 8) % 8 := by omega
      have h3 : b.getLsbD i = false := BitVec.getLsbD_of_ge _ _ (by omega)
      have h4 : ¬ i < 8 := by omega
      rw [ih (i - 8) (by omega), h1, h2, h3]
      simp [hi, h4]

theorem word_of_bytes (b0 b1 b2 b3 : Byte) : (bytesToWord [b0, b1, b2, b3]).setWidth 32 = b3 ++ (b2 ++ (b1 ++ b0)) := by
  apply BitVec.eq_of_getLsbD_eq
  intro i hi
  rw [BitVec.getLsbD_setWidth, bytesToWord_bit _ _ (by omega)]
  simp only [BitVec.getLsbD_append, hi, decide_true, Bool.true_and]
  have : i / 8 = 0 ∨ i / 8 = 1 ∨ i / 8 = 2 ∨ i / 8 = 3 := by omega
  rcases this with h | h | h | h <;> simp only [h]
  · have h1 : i < 8 := by omega
    have h2 : i % 8 = i := by omega
    have h5 : i < 16 := by omega
    have h6 : i < 24 := by omega
    simp [h1, h2, h5, h6]
  · have h1 : ¬ i < 8 := by omega
    have h2 : i % 8 = i - 8 := by omega
    have h5 : i < 16 := by omega
    have h6 : i < 24 := by omega
    simp [h1, h2, h5, h6]
  · have h2 : i % 8 = i - 16 := by omega
    have h5 : ¬ i < 16 := by omega
    have h6 : i < 24 := by omega
    simp [h2, h5, h6]
  · have h2 : i % 8 = i - 24 := by omega
    have h6 : ¬ i < 24 := by omega
    simp [h2, h6]

/-- The word a fetch or an aligned word load reads. -/
theorem physRead_word {s : State} {pa : Nat} (h : deviceIn s.cfg pa 4 = none) :
    ∃ v, physRead s pa 4 = .ok v ∧ v.setWidth 32 = wordAt s pa := by
  refine ⟨_, by unfold physRead; rw [h], ?_⟩
  have : (List.range 4).map (fun k => s.byteAt (pa + k)) = [s.byteAt pa, s.byteAt (pa + 1), s.byteAt (pa + 2), s.byteAt (pa + 3)] := rfl
  rw [this, word_of_bytes]; rfl

end Sys2Proof.Machine
end

