-- ==== Sys2Proof/Laws/PerInstr.lean ====
section
/-! SUPPORT. What is proved instruction by instruction: the decoder reads back what the encoder writes. -/

namespace Sys2Proof.Laws.RoundTrip

/-- A well-formed instruction is what the decoder reads from its encoding, under either register width. -/
def Statement (i : Instr) : Prop := ∀ x : Xlen, i.wf x = true → decode x (encode i) = .ok i

theorem sret : Statement .sret := by intro x _; cases x <;> rfl
theorem mret : Statement .mret := by intro x _; cases x <;> rfl
theorem wfi : Statement .wfi := by intro x _; cases x <;> rfl
theorem sfenceVma (rs1 rs2 : Reg) : Statement (.sfenceVma rs1 rs2) := by
  intro x _; simp [decode, encode, decodeSystem, decodePriv, encR_opcode, encR_funct3, encR_rd, encR_funct7, encR_rs1, encR_rs2]
theorem ecall : Statement .ecall := by intro x _; cases x <;> rfl
theorem ebreak : Statement .ebreak := by intro x _; cases x <;> rfl
theorem csrrw (rd : Reg) (csr : BitVec 12) (rs1 : Reg) : Statement (.csrrw rd csr rs1) := by
  intro x _; simp [decode, encode, decodeSystem, encI_opcode, encI_funct3, encI_rd, encI_rs1, encI_imm]
theorem csrrs (rd : Reg) (csr : BitVec 12) (rs1 : Reg) : Statement (.csrrs rd csr rs1) := by
  intro x _; simp [decode, encode, decodeSystem, encI_opcode, encI_funct3, encI_rd, encI_rs1, encI_imm]
theorem csrrc (rd : Reg) (csr : BitVec 12) (rs1 : Reg) : Statement (.csrrc rd csr rs1) := by
  intro x _; simp [decode, encode, decodeSystem, encI_opcode, encI_funct3, encI_rd, encI_rs1, encI_imm]
theorem csrrwi (rd : Reg) (csr : BitVec 12) (uimm : BitVec 5) : Statement (.csrrwi rd csr uimm) := by
  intro x _; simp [decode, encode, decodeSystem, encI_opcode, encI_funct3, encI_rd, encI_rs1, encI_imm]
theorem csrrsi (rd : Reg) (csr : BitVec 12) (uimm : BitVec 5) : Statement (.csrrsi rd csr uimm) := by
  intro x _; simp [decode, encode, decodeSystem, encI_opcode, encI_funct3, encI_rd, encI_rs1, encI_imm]
theorem csrrci (rd : Reg) (csr : BitVec 12) (uimm : BitVec 5) : Statement (.csrrci rd csr uimm) := by
  intro x _; simp [decode, encode, decodeSystem, encI_opcode, encI_funct3, encI_rd, encI_rs1, encI_imm]
theorem lui (rd : Reg) (imm : BitVec 20) : Statement (.lui rd imm) := by
  intro x _; simp [decode, encode, encU_opcode, encU_rd, encU_imm]
theorem auipc (rd : Reg) (imm : BitVec 20) : Statement (.auipc rd imm) := by
  intro x _; simp [decode, encode, encU_opcode, encU_rd, encU_imm]
theorem jal (rd : Reg) (off : BitVec 21) : Statement (.jal rd off) := by
  intro x h; simp [decode, encode, encJ_opcode, encJ_rd, encJ_imm _ _ _ h]
theorem jalr (rd rs1 : Reg) (imm : BitVec 12) : Statement (.jalr rd rs1 imm) := by
  intro x _; simp [decode, encode, encI_opcode, encI_funct3, encI_rd, encI_rs1, encI_imm]
theorem beq (rs1 rs2 : Reg) (off : BitVec 13) : Statement (.beq rs1 rs2 off) := by
  intro x h; simp [decode, encode, decodeBranch, encB_opcode, encB_funct3, encB_rs1, encB_rs2, encB_imm _ _ _ _ _ h]
theorem bne (rs1 rs2 : Reg) (off : BitVec 13) : Statement (.bne rs1 rs2 off) := by
  intro x h; simp [decode, encode, decodeBranch, encB_opcode, encB_funct3, encB_rs1, encB_rs2, encB_imm _ _ _ _ _ h]
theorem blt (rs1 rs2 : Reg) (off : BitVec 13) : Statement (.blt rs1 rs2 off) := by
  intro x h; simp [decode, encode, decodeBranch, encB_opcode, encB_funct3, encB_rs1, encB_rs2, encB_imm _ _ _ _ _ h]
theorem bge (rs1 rs2 : Reg) (off : BitVec 13) : Statement (.bge rs1 rs2 off) := by
  intro x h; simp [decode, encode, decodeBranch, encB_opcode, encB_funct3, encB_rs1, encB_rs2, encB_imm _ _ _ _ _ h]
theorem bltu (rs1 rs2 : Reg) (off : BitVec 13) : Statement (.bltu rs1 rs2 off) := by
  intro x h; simp [decode, encode, decodeBranch, encB_opcode, encB_funct3, encB_rs1, encB_rs2, encB_imm _ _ _ _ _ h]
theorem bgeu (rs1 rs2 : Reg) (off : BitVec 13) : Statement (.bgeu rs1 rs2 off) := by
  intro x h; simp [decode, encode, decodeBranch, encB_opcode, encB_funct3, encB_rs1, encB_rs2, encB_imm _ _ _ _ _ h]
theorem lw (rd rs1 : Reg) (imm : BitVec 12) : Statement (.lw rd rs1 imm) := by
  intro x _; simp [decode, encode, encI_opcode, encI_funct3, encI_rd, encI_rs1, encI_imm]
theorem sw (rs2 rs1 : Reg) (imm : BitVec 12) : Statement (.sw rs2 rs1 imm) := by
  intro x _; simp [decode, encode, encS_opcode, encS_funct3, encS_rs1, encS_rs2, encS_imm]
theorem addi (rd rs1 : Reg) (imm : BitVec 12) : Statement (.addi rd rs1 imm) := by
  intro x _; simp [decode, encode, decodeOpImm, encI_opcode, encI_funct3, encI_rd, encI_rs1, encI_imm]
theorem ori (rd rs1 : Reg) (imm : BitVec 12) : Statement (.ori rd rs1 imm) := by
  intro x _; simp [decode, encode, decodeOpImm, encI_opcode, encI_funct3, encI_rd, encI_rs1, encI_imm]
theorem andi (rd rs1 : Reg) (imm : BitVec 12) : Statement (.andi rd rs1 imm) := by
  intro x _; simp [decode, encode, decodeOpImm, encI_opcode, encI_funct3, encI_rd, encI_rs1, encI_imm]
theorem slli (rd rs1 : Reg) (shamt : BitVec 6) : Statement (.slli rd rs1 shamt) := by
  intro x h; have h' : shamtFits x shamt = true := h; simp [decode, encode, decodeOpImm, encShift_opcode, encShift_funct3, encShift_rd, encShift_rs1, encShift_shamt, encShift_zeros, h']
theorem add (rd rs1 rs2 : Reg) : Statement (.add rd rs1 rs2) := by
  intro x _; simp [decode, encode, decodeOp, encR_opcode, encR_funct3, encR_funct7, encR_rd, encR_rs1, encR_rs2]
theorem sub (rd rs1 rs2 : Reg) : Statement (.sub rd rs1 rs2) := by
  intro x _; simp [decode, encode, decodeOp, encR_opcode, encR_funct3, encR_funct7, encR_rd, encR_rs1, encR_rs2]
theorem sltu (rd rs1 rs2 : Reg) : Statement (.sltu rd rs1 rs2) := by
  intro x _; simp [decode, encode, decodeOp, encR_opcode, encR_funct3, encR_funct7, encR_rd, encR_rs1, encR_rs2]
theorem or (rd rs1 rs2 : Reg) : Statement (.or rd rs1 rs2) := by
  intro x _; simp [decode, encode, decodeOp, encR_opcode, encR_funct3, encR_funct7, encR_rd, encR_rs1, encR_rs2]
theorem and (rd rs1 rs2 : Reg) : Statement (.and rd rs1 rs2) := by
  intro x _; simp [decode, encode, decodeOp, encR_opcode, encR_funct3, encR_funct7, encR_rd, encR_rs1, encR_rs2]

end Sys2Proof.Laws.RoundTrip
end

