-- ==== Sys2Proof/Tests/Slice0.lean ====
section
/-! SUPPORT. Tests. Expected values come from spec/95_test_vectors.md and the worked examples of the rules, or are computed by hand from the
rule named. A theorem `witness_<Name>…` shows states and operands that meet the hypotheses of `Obligations.<Name>` together. -/

namespace Sys2Proof.Machine

/-- The same state with other parameters. -/
def State.under (s : State) (f : Params → Params) : State := { s with cfg := f s.cfg }

namespace Tests

-- One test at a time: each `decide +kernel` waits for the kernel, and many waiting at once take many threads.
set_option Elab.async false

/-! ## Decoding: words of 95_test_vectors.md section 2.1 -/

theorem test_decode_privileged :
    decode .rv32 0x10200073#32 = .ok .sret ∧ decode .rv32 0x30200073#32 = .ok .mret ∧ decode .rv32 0x10500073#32 = .ok .wfi ∧
    decode .rv32 0x12000073#32 = .ok (.sfenceVma 0#5 0#5) ∧ decode .rv32 0x12050073#32 = .ok (.sfenceVma 10#5 0#5) ∧
    decode .rv32 0x12B00073#32 = .ok (.sfenceVma 0#5 11#5) ∧ decode .rv32 0x12B50073#32 = .ok (.sfenceVma 10#5 11#5) ∧
    decode .rv32 0x00000073#32 = .ok .ecall ∧ decode .rv32 0x00100073#32 = .ok .ebreak := by decide

theorem test_decode_csr :
    decode .rv32 0x34051573#32 = .ok (.csrrw 10#5 0x340#12 10#5) ∧ decode .rv32 0x342025F3#32 = .ok (.csrrs 11#5 0x342#12 0#5) ∧
    decode .rv32 0x3002B073#32 = .ok (.csrrc 0#5 0x300#12 5#5) ∧ decode .rv32 0x30405073#32 = .ok (.csrrwi 0#5 0x304#12 0#5) ∧
    decode .rv32 0x30046073#32 = .ok (.csrrsi 0#5 0x300#12 8#5) ∧ decode .rv32 0x10017573#32 = .ok (.csrrci 10#5 0x100#12 2#5) ∧
    decode .rv32 0x18029073#32 = .ok (.csrrw 0#5 0x180#12 5#5) := by decide

theorem test_decode_jumps :
    decode .rv32 0x010000EF#32 = .ok (.jal 1#5 16#21) ∧ decode .rv32 0x0000006F#32 = .ok (.jal 0#5 0#21) ∧
    decode .rv32 0x005280E7#32 = .ok (.jalr 1#5 5#5 5#12) ∧ decode .rv32 0x00C58463#32 = .ok (.beq 11#5 12#5 8#13) ∧
    decode .rv32 0x00C59663#32 = .ok (.bne 11#5 12#5 12#13) ∧ decode .rv32 0x0005C463#32 = .ok (.blt 11#5 0#5 8#13) ∧
    decode .rv32 0x0405D063#32 = .ok (.bge 11#5 0#5 64#13) ∧ decode .rv32 0xFEC5EEE3#32 = .ok (.bltu 11#5 12#5 (-4#13)) ∧
    decode .rv32 0x00C5F463#32 = .ok (.bgeu 11#5 12#5 8#13) := by decide

theorem test_decode_memory_upper :
    decode .rv32 0x0005A603#32 = .ok (.lw 12#5 11#5 0#12) ∧ decode .rv32 0x0045A683#32 = .ok (.lw 13#5 11#5 4#12) ∧
    decode .rv32 0x00B52023#32 = .ok (.sw 11#5 10#5 0#12) ∧ decode .rv32 0x00E52623#32 = .ok (.sw 14#5 10#5 12#12) ∧
    decode .rv32 0x800012B7#32 = .ok (.lui 5#5 0x80001#20) ∧ decode .rv32 0x00001597#32 = .ok (.auipc 11#5 1#20) := by decide

theorem test_decode_arithmetic :
    decode .rv32 0x3E860713#32 = .ok (.addi 14#5 12#5 1000#12) ∧ decode .rv32 0xFF010113#32 = .ok (.addi 2#5 2#5 (-16#12)) ∧
    decode .rv32 0x00F2E293#32 = .ok (.ori 5#5 5#5 0x0F#12) ∧ decode .rv32 0x03F5F593#32 = .ok (.andi 11#5 11#5 0x3F#12) ∧
    decode .rv32 0x01F29293#32 = .ok (.slli 5#5 5#5 31#6) ∧ decode .rv32 0x00C686B3#32 = .ok (.add 13#5 13#5 12#5) ∧
    decode .rv32 0x40C58533#32 = .ok (.sub 10#5 11#5 12#5) ∧ decode .rv32 0x00C73633#32 = .ok (.sltu 12#5 14#5 12#5) ∧
    decode .rv32 0x00B56533#32 = .ok (.or 10#5 10#5 11#5) ∧ decode .rv32 0x00B57533#32 = .ok (.and 10#5 10#5 11#5) := by decide

/-- The decoding corner cases of section 2.1. -/
theorem test_decode_corners :
    decode .rv32 0x302000F3#32 = .error .illegalSystem ∧ decode .rv32 0x10208073#32 = .error .illegalSystem ∧
    decode .rv32 0x120000F3#32 = .error .illegalSystem ∧ decode .rv32 0x00200073#32 = .error .illegalSystem ∧
    decode .rv32 0x10400073#32 = .error .illegalSystem ∧ decode .rv32 0x00004073#32 = .error .illegalSystem ∧
    decode .rv32 0x0000000B#32 = .error .uncovered ∧ decode .rv32 0x02B50533#32 = .error .uncovered ∧
    decode .rv32 0x02029293#32 = .error .uncovered ∧ decode .rv64 0x02029293#32 = .ok (.slli 5#5 5#5 32#6) := by decide

theorem test_encode_words :
    encode (.sfenceVma 10#5 11#5) = 0x12B50073#32 ∧ encode (.jal 1#5 16#21) = 0x010000EF#32 ∧
    encode (.bltu 11#5 12#5 (-4#13)) = 0xFEC5EEE3#32 ∧ encode (.sw 14#5 10#5 12#12) = 0x00E52623#32 ∧
    encode (.csrrci 10#5 0x100#12 2#5) = 0x10017573#32 ∧ encode (.slli 5#5 5#5 31#6) = 0x01F29293#32 := by decide

theorem test_decodeTableWord :
    decodeTableWord 32 0x005280E7 = some (.jalr 1#5 5#5 5#12) ∧ decodeTableWord 32 0x02029293 = some (.slli 5#5 5#5 32#6) ∧
    decodeTableWord 32 0x0000000B = none := by decide

/-! ## Well-formedness: an ill-formed term for each check, which the check refuses -/

theorem test_wf_odd_offsets_refused :
    (Instr.jal 1#5 3#21).wf .rv32 = false ∧ (Instr.beq 1#5 2#5 1#13).wf .rv32 = false ∧ (Instr.bne 1#5 2#5 1#13).wf .rv64 = false ∧
    (Instr.blt 1#5 2#5 5#13).wf .rv32 = false ∧ (Instr.bge 1#5 2#5 (-1#13)).wf .rv32 = false ∧
    (Instr.bltu 1#5 2#5 7#13).wf .rv64 = false ∧ (Instr.bgeu 1#5 2#5 1#13).wf .rv32 = false := by decide

theorem test_wf_shift_amount_refused :
    (Instr.slli 1#5 2#5 32#6).wf .rv32 = false ∧ (Instr.slli 1#5 2#5 63#6).wf .rv32 = false ∧
    (Instr.slli 1#5 2#5 63#6).wf .rv64 = true ∧ (Instr.slli 1#5 2#5 31#6).wf .rv32 = true := by decide

/-! ## Small states -/

/-- A register file with the listed values, zero elsewhere. -/
def regsOf (l : List (Nat × Word)) : Vector Word 32 :=
  l.foldl (fun v p => v.setIfInBounds p.1 p.2) (Vector.replicate 32 0#64)

/-- A small machine: mode, pc, mstatus, registers; its first PMP entry lets every mode reach every address. -/
def mach (p : Priv) (pc m : Word) (l : List (Nat × Word)) : State :=
  { State.reset with
    priv := p, pc := pc, mstatus := m, regs := regsOf l, mtvec := 0x80000200#64, stvec := 0x80000300#64,
    pmpcfg := (Vector.replicate 16 0#8).set 0 0x1F#8, pmpaddr := (Vector.replicate 16 0#64).set 0 0xFFFFFFFF#64 }

/-- A machine in M mode at 0x80000100. -/
def machM (l : List (Nat × Word)) : State := mach .M 0x80000100#64 0#64 l

/-- What `f` reads from the next state of one instruction; none where it has none. -/
def after {α : Type} (i : Instr) (s : State) (f : State → α) : Option α :=
  match exec i s with
  | .next t => some (f t)
  | .fault _ => none
  | .refused _ => none

/-- The refusal an instruction ends in. -/
def refusalOf (i : Instr) (s : State) : Option Refusal :=
  match exec i s with
  | .next _ => none
  | .fault _ => none
  | .refused r => some r

/-! ## Instructions: worked examples of the rules -/

theorem test_lui : after (.lui 5#5 0x80001#20) (machM []) (·.reg 5#5) = some 0x80001000#64 := by decide
theorem test_lui_rv64 : after (.lui 5#5 0x80001#20) ((machM []).under ({ · with xlen := .rv64 })) (·.reg 5#5) =
    some 0xFFFFFFFF80001000#64 := by decide
theorem test_auipc : after (.auipc 11#5 1#20) (machM []) (fun t => (t.reg 11#5, t.pc)) = some (0x80001100#64, 0x80000104#64) := by decide
theorem test_jal : after (.jal 1#5 16#21) (mach .M 0x80000000#64 0#64 []) (fun t => (t.reg 1#5, t.pc)) =
    some (0x80000004#64, 0x80000010#64) := by decide
theorem test_jal_misaligned : after (.jal 1#5 6#21) (mach .M 0x80000000#64 0#64 [(1, 9#64)])
    (fun t => (t.mcause, t.mtval, t.mepc, t.reg 1#5)) = some (0#64, 0x80000006#64, 0x80000000#64, 9#64) := by decide
theorem test_jalr : after (.jalr 1#5 5#5 5#12) (mach .M 0x80000020#64 0#64 [(5, 0x80000100#64)]) (fun t => (t.reg 1#5, t.pc)) =
    some (0x80000024#64, 0x80000104#64) := by decide
theorem test_jalr_same_register : after (.jalr 5#5 5#5 0#12) (mach .M 0x80000020#64 0#64 [(5, 0x80000100#64)])
    (fun t => (t.reg 5#5, t.pc)) = some (0x80000024#64, 0x80000100#64) := by decide
theorem test_beq : after (.beq 11#5 12#5 8#13) (mach .M 0x100#64 0#64 [(11, 7#64), (12, 7#64)]) (·.pc) = some 0x108#64 ∧
    after (.beq 11#5 12#5 8#13) (mach .M 0x100#64 0#64 [(11, 7#64), (12, 8#64)]) (·.pc) = some 0x104#64 := by decide
theorem test_bne : after (.bne 11#5 12#5 12#13) (mach .M 0x100#64 0#64 [(11, 7#64), (12, 7#64)]) (·.pc) = some 0x104#64 := by decide
theorem test_blt : after (.blt 11#5 0#5 8#13) (mach .M 0x100#64 0#64 [(11, 0x80000007#64)]) (·.pc) = some 0x108#64 := by decide
theorem test_bge : after (.bge 11#5 0#5 64#13) (mach .M 0x100#64 0#64 [(11, 0x80000007#64)]) (·.pc) = some 0x104#64 ∧
    after (.bge 11#5 0#5 64#13) (mach .M 0x100#64 0#64 [(11, 2#64)]) (·.pc) = some 0x140#64 := by decide
theorem test_bltu : after (.bltu 11#5 12#5 (-4#13)) (mach .M 0x104#64 0#64 [(11, 1#64), (12, 0xFFFFFFFF#64)]) (·.pc) =
    some 0x100#64 := by decide
theorem test_bgeu : after (.bgeu 11#5 12#5 8#13) (mach .M 0x100#64 0#64 [(11, 0xFFFFFFFF#64), (12, 1#64)]) (·.pc) =
    some 0x108#64 := by decide
theorem test_addi_wraps : after (.addi 14#5 12#5 1000#12) (machM [(12, 0xFFFFFF00#64)]) (·.reg 14#5) = some 0x2E8#64 := by decide
theorem test_addi_x0 : after (.addi 0#5 0#5 1#12) (machM []) (fun t => (t.reg 0#5, t.pc)) = some (0#64, 0x80000104#64) := by decide
theorem test_ori : after (.ori 5#5 5#5 0x7FF#12) (machM [(5, 0x80001000#64)]) (·.reg 5#5) = some 0x800017FF#64 ∧
    after (.ori 5#5 0#5 (-1#12)) (machM []) (·.reg 5#5) = some 0xFFFFFFFF#64 := by decide
theorem test_andi : after (.andi 11#5 11#5 0x3F#12) (machM [(11, 0x80000007#64)]) (·.reg 11#5) = some 7#64 := by decide
theorem test_slli : after (.slli 5#5 5#5 31#6) (machM [(5, 1#64)]) (·.reg 5#5) = some 0x80000000#64 := by decide
theorem test_add : after (.add 13#5 13#5 12#5) (machM [(13, 1#64), (12, 1#64)]) (·.reg 13#5) = some 2#64 := by decide
theorem test_sub_wraps : after (.sub 5#5 6#5 7#5) (machM [(6, 5#64), (7, 7#64)]) (·.reg 5#5) = some 0xFFFFFFFE#64 := by decide
theorem test_sltu : after (.sltu 12#5 14#5 12#5) (machM [(14, 0x2E8#64), (12, 0xFFFFFF00#64)]) (·.reg 12#5) = some 1#64 := by decide
theorem test_or : after (.or 5#5 5#5 6#5) (machM [(5, 0x80000000#64), (6, 0x80000#64)]) (·.reg 5#5) = some 0x80080000#64 := by decide
theorem test_and : after (.and 5#5 5#5 6#5) (machM [(5, 0x888#64), (6, 0x80#64)]) (·.reg 5#5) = some 0x80#64 := by decide

/-- `sw` of R261: the bytes EF BE AD DE; then `lw` of them under RV64 sign-extends (R260). -/
theorem test_sw : after (.sw 11#5 10#5 0#12) (machM [(10, 0x80001000#64), (11, 0xDEADBEEF#64)])
    (fun t => (t.mem, t.stored)) =
    some ([(0x80001000, 0xEF#8), (0x80001001, 0xBE#8), (0x80001002, 0xAD#8), (0x80001003, 0xDE#8)],
      [0x80001000, 0x80001001, 0x80001002, 0x80001003]) := by decide
theorem test_lw_rv64 : after (.lw 12#5 11#5 0#12)
    ({ machM [(11, 0x80001000#64)] with
        mem := [(0x80001000, 0xEF#8), (0x80001001, 0xBE#8), (0x80001002, 0xAD#8), (0x80001003, 0xDE#8)] }.under ({ · with xlen := .rv64 }))
    (·.reg 12#5) = some 0xFFFFFFFFDEADBEEF#64 := by decide
/-- `lw` of the low half of the comparator, the worked example of R260. -/
theorem test_lw_mtimecmp : after (.lw 12#5 11#5 0#12) { machM [(11, 0x02004000#64)] with mtimecmp := 0x12345678#64 } (·.reg 12#5) =
    some 0x12345678#64 := by decide
theorem test_sw_misaligned : after (.sw 11#5 10#5 2#12) (machM [(10, 0x80001000#64)]) (fun t => (t.mcause, t.mtval)) =
    some (6#64, 0x80001002#64) := by decide

theorem test_mret_mu : after .mret ({ mach .M 0#64 0x80#64 [] with mepc := 0x80000100#64 }.under ({ · with modes := .mu }))
    (fun t => (t.pc, t.priv, t.mstatus)) = some (0x80000100#64, .U, 0x88#64) := by decide
theorem test_mret_to_s : after .mret { mach .M 0#64 0x888#64 [] with mepc := 0x80000200#64 } (fun t => (t.priv, t.mstatus)) =
    some (.S, 0x88#64) := by decide
theorem test_sret : after .sret { mach .S 0#64 0x20#64 [] with sepc := 0x10000#64 } (fun t => (t.pc, t.priv, t.mstatus)) =
    some (0x10000#64, .U, 0x22#64) := by decide
theorem test_sret_from_m : after .sret { mach .M 0#64 0x1922#64 [] with sepc := 0x80000400#64 } (fun t => (t.pc, t.priv, t.mstatus)) =
    some (0x80000400#64, .S, 0x1822#64) := by decide
theorem test_wfi_stalls : after .wfi ({ mach .M 0x80000010#64 0#64 [] with mie := 0x80#64, mtimecmp := 1#64 }.under
    ({ · with wfiImpl := .stall })) (fun t => (t.waiting, t.pc)) = some (true, 0x80000010#64) := by decide
theorem test_wfi_pending : after .wfi ({ mach .M 0x80000010#64 0#64 [] with mie := 0x80#64 }.under ({ · with wfiImpl := .stall }))
    (fun t => (t.waiting, t.pc)) = some (false, 0x80000014#64) := by decide

/-- The cache of 95_test_vectors.md section 2.4: A, B, C, D, E. -/
def cacheABCDE : List TlbEntry :=
  [⟨1#16, 0, 0x10#64, 0x20000CC7#64⟩, ⟨1#16, 1, 0x200#64, 0x200000CF#64⟩, ⟨2#16, 0, 0x10#64, 0x20001CC7#64⟩,
   ⟨2#16, 0, 0x11#64, 0x200020E7#64⟩, ⟨1#16, 1, 0#64, 0x20000801#64⟩]

/-- A supervisor machine under Sv32 with that cache. -/
def machCached (l : List (Nat × Word)) : State :=
  { mach .S 0x80000100#64 0#64 l with satp := 0x80000000#64, tlb := cacheABCDE }.under ({ · with asidLen := 9 })

theorem test_sfence_one_address : after (.sfenceVma 10#5 0#5) (machCached [(10, 0x10ABC#64)]) (·.tlb) =
    some [⟨1#16, 1, 0x200#64, 0x200000CF#64⟩, ⟨2#16, 0, 0x11#64, 0x200020E7#64⟩] := by decide
theorem test_sfence_one_asid : after (.sfenceVma 0#5 11#5) (machCached [(11, 2#64)]) (·.tlb.length) = some 4 ∧
    after (.sfenceVma 10#5 11#5) (machCached [(10, 0x11000#64), (11, 2#64)]) (·.tlb) = some cacheABCDE ∧
    after (.sfenceVma 10#5 11#5) (machCached [(10, 0x10000#64), (11, 1#64)]) (·.tlb.length) = some 3 := by decide

theorem test_ecall_u : after .ecall { mach .U 0x8000005C#64 0x88#64 [] with mtvec := 0x80000044#64 }
    (fun t => (t.mepc, t.mcause, t.mtval, t.mstatus, t.priv, t.pc)) = some (0x8000005C#64, 8#64, 0#64, 0x80#64, .M, 0x80000044#64) := by decide
theorem test_ecall_delegated : after .ecall { mach .U 0x80000074#64 0x82#64 [] with medeleg := 0x100#64, stvec := 0x80000058#64 }
    (fun t => (t.sepc, t.scause, t.stval, t.mstatus, t.priv, t.pc)) = some (0x80000074#64, 8#64, 0#64, 0xA0#64, .S, 0x80000058#64) := by decide
theorem test_ebreak : after .ebreak { mach .M 0x80000020#64 0x1808#64 [] with mtvec := 0x80000100#64 }
    (fun t => (t.mepc, t.mcause, t.mtval, t.mstatus, t.pc)) = some (0x80000020#64, 3#64, 0#64, 0x1880#64, 0x80000100#64) := by decide
theorem test_csrrw_swap : after (.csrrw 10#5 0x340#12 10#5) { machM [(10, 10#64)] with mscratch := 0x80001000#64 }
    (fun t => (t.reg 10#5, t.mscratch)) = some (0x80001000#64, 10#64) := by decide
theorem test_csrrw_mstatus : after (.csrrw 0#5 0x300#12 5#5) (machM [(5, 0xFFFFFFFF#64)]) (·.mstatus) = some 0x007E19AA#64 := by decide
theorem test_csrrs : after (.csrrs 0#5 0x300#12 5#5) (mach .M 0#64 0x1800#64 [(5, 8#64)]) (·.mstatus) = some 0x1808#64 := by decide
theorem test_csrrs_sstatus : after (.csrrs 10#5 0x100#12 0#5) (mach .M 0#64 0xC1922#64 []) (·.reg 10#5) = some 0xC0122#64 := by decide
theorem test_csrrc : after (.csrrc 6#5 0x304#12 5#5) { machM [(5, 0x80#64)] with mie := 0x888#64 } (fun t => (t.reg 6#5, t.mie)) =
    some (0x888#64, 0x808#64) := by decide
theorem test_csrrwi : after (.csrrwi 5#5 0x340#12 5#5) { machM [] with mscratch := 0xABCD0000#64 } (fun t => (t.reg 5#5, t.mscratch)) =
    some (0xABCD0000#64, 5#64) := by decide
theorem test_csrrsi : after (.csrrsi 0#5 0x300#12 8#5) (mach .M 0#64 0x1880#64 []) (·.mstatus) = some 0x1888#64 := by decide
theorem test_csrrci : after (.csrrci 5#5 0x300#12 8#5) (mach .M 0#64 0x1888#64 []) (fun t => (t.reg 5#5, t.mstatus)) =
    some (0x1888#64, 0x1880#64) := by decide
theorem test_csrrci_sip : after (.csrrci 0#5 0x144#12 2#5) { mach .S 0#64 0#64 [] with mideleg := 0x222#64, mipSoft := 2#64 } (·.mipSoft) =
    some 0#64 := by decide
theorem test_csr_unlisted : refusalOf (.csrrs 10#5 0xC00#12 0#5) (machM []) = some (.unlistedCsr 0xC00#12) := by decide

/-! ## Steps -/

/-- Choices under which the platform is still and no interrupt is taken. -/
def still : Choices := { (default : Choices) with mtime := 0#64 }

/-- A word stored where the reset state fetches runs in the very next step. -/
theorem test_withFetchWord : (match Machine.step (State.reset.withFetchWord 32 0x00500293) with
    | .next t => some (t.reg 5#5, t.pc)
    | .fault _ => none
    | .refused _ => none) = some (5#64, 0x80000004#64) := by decide +kernel

/-- The second row of 95_test_vectors.md section 2.3: the timer interrupt is taken at the boundary after the `wfi`. -/
theorem test_step_interrupt_after_wait : (match Machine.step { mach .M 0x80000010#64 8#64 [] with
      mtvec := 0x80000100#64, mie := 0x80#64, waiting := true, script := [{ still with takeInterrupt := true }] } with
    | .next t => some (t.mepc, t.mcause, t.mstatus, t.pc, t.waiting)
    | .fault _ => none
    | .refused _ => none) = some (0x80000014#64, 0x80000007#64, 0x1880#64, 0x80000100#64, false) := by decide +kernel

/-! ## Witnesses: encoding -/

theorem witness_RoundTrip :
    (Instr.beq 1#5 2#5 4094#13).wf .rv32 = true ∧ (Instr.bne 1#5 2#5 (-4096#13)).wf .rv64 = true ∧
    (Instr.jal 1#5 1048574#21).wf .rv32 = true ∧ (Instr.jal 1#5 (-1048576#21)).wf .rv32 = true ∧
    (Instr.slli 1#5 2#5 31#6).wf .rv32 = true ∧ (Instr.slli 1#5 2#5 63#6).wf .rv64 = true := by decide

theorem witness_DecodeReadsEveryBit : decode .rv32 0xFEC5EEE3#32 = .ok (.bltu 11#5 12#5 (-4#13)) := by decide

/-- The hypotheses of `Obligations.SystemGapsAreIllegal` on a word. -/
def isGap (w : BitVec 32) : Prop :=
    w.extractLsb' 0 7 = 0b1110011#7 ∧ (w.extractLsb' 12 3 = 0b000#3 ∨ w.extractLsb' 12 3 = 0b100#3) ∧ w ≠ 0x10200073#32 ∧
    w ≠ 0x30200073#32 ∧ w ≠ 0x10500073#32 ∧ w ≠ 0x00000073#32 ∧ w ≠ 0x00100073#32 ∧
    ¬(w.extractLsb' 25 7 = 0b0001001#7 ∧ w.extractLsb' 12 3 = 0b000#3 ∧ w.extractLsb' 7 5 = 0#5)

theorem witness_SystemGapsAreIllegal : isGap 0x302000F3#32 ∧ isGap 0x10208073#32 ∧ isGap 0x120000F3#32 ∧ isGap 0x00200073#32 ∧
    isGap 0x00004073#32 := by
  refine ⟨?_, ?_, ?_, ?_, ?_⟩ <;> (unfold isGap; decide)

/-- The opcodes of R185 to R189. -/
theorem encode_opcode (i : Instr) : fOpcode (encode i) ∈ [0b1110011#7, 0b0110111#7, 0b0010111#7, 0b1101111#7, 0b1100111#7, 0b1100011#7,
    0b0000011#7, 0b0100011#7, 0b0010011#7, 0b0110011#7] := by
  cases i <;> simp [encode, encR_opcode, encI_opcode, encS_opcode, encB_opcode, encU_opcode, encJ_opcode, encShift_opcode]

theorem not_encoded {w : BitVec 32} (h : fOpcode w ∉ [0b1110011#7, 0b0110111#7, 0b0010111#7, 0b1101111#7, 0b1100111#7, 0b1100011#7,
    0b0000011#7, 0b0100011#7, 0b0010011#7, 0b0110011#7]) (x : Xlen) (i : Instr) (_ : i.wf x = true) : encode i ≠ w := by
  intro e; exact h (e ▸ encode_opcode i)

theorem witness_OutsideTableRefused (s : State) :
    ((0x0000000B#32).extractLsb' 0 7 ≠ 0b1110011#7 ∧ ∀ i : Instr, i.wf s.cfg.xlen = true → encode i ≠ 0x0000000B#32) ∧
    ((0x00000001#32).extractLsb' 0 7 ≠ 0b1110011#7 ∧ ∀ i : Instr, i.wf s.cfg.xlen = true → encode i ≠ 0x00000001#32) :=
  ⟨⟨by decide, not_encoded (by decide) _⟩, ⟨by decide, not_encoded (by decide) _⟩⟩

/-! ## Witnesses: a step -/

/-- The four bytes of a word at an address. -/
def word4 (a : Nat) (w : BitVec 32) : Memory :=
  [(a, w.extractLsb' 0 8), (a + 1, w.extractLsb' 8 8), (a + 2, w.extractLsb' 16 8), (a + 3, w.extractLsb' 24 8)]

/-- A machine about to run `addi t0, x0, 5` at 0x80000100 in a quiet step. -/
def machStep : State := { machM [] with mem := word4 0x80000100 0x00500293#32, script := [still] }

theorem witness_StepRunsInstruction_runs :
    (environment (drawChoices machStep)).waiting = false ∧ (environment (drawChoices machStep)).selectIrq = none ∧
    (∃ v, accessAddr (environment (drawChoices machStep)).now.fetchWalk (environment (drawChoices machStep)).pc 4 .fetch
        (environment (drawChoices machStep)).priv (environment (drawChoices machStep)) = .done 0x80000100 v ∧
      storedIn v 0x80000100 4 = none ∧ deviceIn v.cfg 0x80000100 4 = none ∧
      decodeBytes v.cfg.xlen [v.byteAt 0x80000100, v.byteAt 0x80000101, v.byteAt 0x80000102, v.byteAt 0x80000103] =
        .ok (.addi 5#5 0#5 5#12, [])) :=
  ⟨by decide +kernel, by decide +kernel, environment (drawChoices machStep), rfl, by decide +kernel, by decide +kernel, by decide +kernel⟩

theorem witness_StepRunsInstruction_interrupt : ∃ s : State,
    (environment (drawChoices s)).waiting = false ∧ (environment (drawChoices s)).selectIrq = some .mti ∧
    (environment (drawChoices s)).now.takeInterrupt = true :=
  ⟨{ mach .M 0#64 8#64 [] with mie := 0x80#64, script := [{ still with takeInterrupt := true }] },
    by decide +kernel, by decide +kernel, by decide +kernel⟩

/-! ## Witnesses: jumps and branches -/

theorem witness_JumpResult :
    alignedTo (machM []).cfg (modXlen .rv32 (unsigned (machM []).pc + (1048572#21).toInt)) ∧
    alignedTo (machM []).cfg (modXlen .rv32 (unsigned (machM []).pc + (-1048576#21).toInt)) ∧
    alignedTo (machM [(5, 1#64)]).cfg
      (BitVec.ofNat 64 (2 * ((modXlen .rv32 (unsigned ((machM [(5, 1#64)]).reg 5#5) + (0#12).toInt)).toNat / 2))) := by
  unfold alignedTo; decide +kernel

theorem witness_JumpMisaligned :
    ¬alignedTo (machM []).cfg (modXlen .rv32 (unsigned (machM []).pc + (1048574#21).toInt)) ∧
    ¬alignedTo (machM [(5, 3#64)]).cfg
      (BitVec.ofNat 64 (2 * ((modXlen .rv32 (unsigned ((machM [(5, 3#64)]).reg 5#5) + (0#12).toInt)).toNat / 2))) ∧
    ((machM []).under ({ · with cExt := true })).cfg.cExt = true ∧ (machM []).pc.toNat % 2 = 0 ∧ evenOffset (2#21) = true := by
  unfold alignedTo; decide +kernel

theorem witness_BranchResult :
    (Instr.blt 1#5 2#5 8#13, twos .rv32 ((machM [(1, 0xFFFFFFFF#64)]).reg 1#5) < twos .rv32 ((machM [(1, 0xFFFFFFFF#64)]).reg 2#5)) ∈
      branchTable (machM [(1, 0xFFFFFFFF#64)]) 1#5 2#5 8#13 ∧
    twos .rv32 ((machM [(1, 0xFFFFFFFF#64)]).reg 1#5) < twos .rv32 ((machM [(1, 0xFFFFFFFF#64)]).reg 2#5) ∧
    alignedTo (machM []).cfg (modXlen .rv32 (unsigned (machM []).pc + (8#13).toInt)) ∧
    ¬(unsigned ((machM [(1, 0xFFFFFFFF#64)]).reg 1#5) < unsigned ((machM [(1, 0xFFFFFFFF#64)]).reg 2#5)) := by
  refine ⟨by simp [branchTable, machM, mach, State.reset, State.resetOf, Params.standard], ?_⟩
  unfold alignedTo; decide +kernel

theorem witness_BranchMisaligned :
    (Instr.beq 1#5 2#5 6#13, (machM []).reg 1#5 = (machM []).reg 2#5) ∈ branchTable (machM []) 1#5 2#5 6#13 ∧
    (machM []).reg 1#5 = (machM []).reg 2#5 ∧ ¬alignedTo (machM []).cfg (modXlen .rv32 (unsigned (machM []).pc + (6#13).toInt)) ∧
    ((machM []).under ({ · with cExt := true })).cfg.cExt = true ∧ (machM []).pc.toNat % 2 = 0 ∧ evenOffset (6#13) = true := by
  refine ⟨by simp [branchTable], ?_⟩
  unfold alignedTo; decide +kernel

/-! ## Witnesses: loads and stores -/

/-- The address is the one `x10 + 0` gives in `machM [(10, va)]`. -/
def addressIs (va : Word) : Prop := va = modXlen .rv32 (unsigned ((machM [(10, va)]).reg 10#5) + (0#12).toInt)

/-- The hypotheses of `Obligations.LoadWordResult` on an address. -/
def loadable (va : Word) : Prop :=
    addressIs va ∧ va.toNat % 4 = 0 ∧ untranslated (machM [(10, va)]) (machM [(10, va)]).effPriv ∧
    physAllowed (machM [(10, va)]) va.toNat 4 .load (machM [(10, va)]).effPriv = true ∧ deviceIn (machM [(10, va)]).cfg va.toNat 4 = none

theorem witness_LoadWordResult : loadable 0x80000000#64 ∧ loadable 0x8000FFFC#64 ∧ loadable 0x02004000#64 := by
  unfold loadable addressIs untranslated; decide +kernel

/-- The hypotheses on an address that the store statements share. -/
def storable (va : Word) : Prop :=
    addressIs va ∧ va.toNat % 4 = 0 ∧ untranslated (machM [(10, va)]) (machM [(10, va)]).effPriv ∧
    physAllowed (machM [(10, va)]) va.toNat 4 .store (machM [(10, va)]).effPriv = true ∧
    deviceIn (machM [(10, va)]).cfg va.toNat 4 = none

theorem witness_StoreWordResult :
    (storable 0x80000000#64 ∧ ∀ k, k < 4 → platformAt (machM []).cfg (0x80000000 + k) = none) ∧
    (storable 0x8000FFFC#64 ∧ ∀ k, k < 4 → platformAt (machM []).cfg (0x8000FFFC + k) = none) := by
  unfold storable addressIs untranslated; decide +kernel

theorem witness_StoreToPlatform :
    storable 0x02004000#64 ∧ storable 0x02004004#64 ∧ storable 0x02000000#64 ∧ storable 0x0200BFF8#64 ∧
    (∀ k, k < 4 → platformAt (machM []).cfg (0x02004000 + k) = some (.mtimecmp, k)) ∧
    (∀ k, k < 4 → platformAt (machM []).cfg (0x02004004 + k) = some (.mtimecmp, 4 + k)) ∧
    (∀ k, k < 4 → platformAt (machM []).cfg (0x02000000 + k) = some (.msip, k)) ∧
    platformAt (machM []).cfg 0x0200BFF8 = some (.mtime, 0) := by
  unfold storable addressIs untranslated; decide +kernel

/-- A machine with a device region at 0x10000000. -/
def machDevice (l : List (Nat × Word)) : State :=
  (machM l).under ({ · with pma := [{ base := 0x10000000, size := 8, kind := .device false true true }] })

theorem witness_StoreToPlatform_device :
    (0x10000000#64) = modXlen .rv32 (unsigned ((machDevice [(10, 0x10000000#64)]).reg 10#5) + (0#12).toInt) ∧
    untranslated (machDevice [(10, 0x10000000#64)]) (machDevice [(10, 0x10000000#64)]).effPriv ∧
    physAllowed (machDevice [(10, 0x10000000#64)]) 0x10000000 4 .store (machDevice [(10, 0x10000000#64)]).effPriv = true ∧
    physAllowed (machDevice [(10, 0x10000000#64)]) 0x10000000 4 .load (machDevice [(10, 0x10000000#64)]).effPriv = true ∧
    deviceIn (machDevice [(10, 0x10000000#64)]).cfg 0x10000000 4 = some 0x10000000 := by
  unfold untranslated; decide +kernel

theorem witness_LoadStoreTraps :
    addressIs 0x80000001#64 ∧ (0x80000001#64).toNat % 4 ≠ 0 ∧ addressIs 0x80000003#64 ∧ (0x80000003#64).toNat % 4 ≠ 0 ∧
    (machM []).cfg.misalignedHw = false ∧ addressIs 0x80010000#64 ∧
    untranslated (machM [(10, 0x80010000#64)]) (machM [(10, 0x80010000#64)]).effPriv ∧
    physAllowed (machM [(10, 0x80010000#64)]) 0x80010000 4 .load (machM [(10, 0x80010000#64)]).effPriv = false ∧
    physAllowed (machM [(10, 0x80010000#64)]) 0x80010000 4 .store (machM [(10, 0x80010000#64)]).effPriv = false := by
  unfold addressIs untranslated; decide +kernel

/-- A machine whose hardware performs misaligned accesses. -/
def machMis (l : List (Nat × Word)) : State := (machM l).under ({ · with misalignedHw := true })

/-- The hypotheses of `Obligations.MisalignedByHardware` on an address. -/
def misalignedAt (va : Word) : Prop :=
    va = modXlen .rv32 (unsigned ((machMis [(10, va)]).reg 10#5) + (0#12).toInt) ∧ va.toNat % 4 ≠ 0 ∧
    (machMis [(10, va)]).cfg.misalignedHw = true ∧ untranslated (machMis [(10, va)]) (machMis [(10, va)]).effPriv ∧
    ∀ k, k < 4 → deviceIn (machMis [(10, va)]).cfg (modXlen .rv32 (unsigned va + (k : Nat))).toNat 1 = none ∧
      physAllowed (machMis [(10, va)]) (modXlen .rv32 (unsigned va + (k : Nat))).toNat 1 .load .M = true ∧
      physAllowed (machMis [(10, va)]) (modXlen .rv32 (unsigned va + (k : Nat))).toNat 1 .store .M = true ∧
      platformAt (machMis [(10, va)]).cfg (modXlen .rv32 (unsigned va + (k : Nat))).toNat = none

theorem witness_MisalignedByHardware : misalignedAt 0x80000001#64 ∧ misalignedAt 0x80000002#64 ∧ misalignedAt 0x8000FFFB#64 := by
  unfold misalignedAt untranslated; decide +kernel

theorem witness_LoadStoreExceptions : (∃ t, exec (.sw 11#5 10#5 0#12) (machM [(10, 0x80000001#64)]) = .next t) ∧
    (∃ t, exec (.lw 11#5 10#5 0#12) (machM [(10, 0x80000001#64)]) = .next t) :=
  ⟨⟨_, rfl⟩, ⟨_, rfl⟩⟩

theorem witness_FetchFaults :
    untranslated (mach .M 0x80010000#64 0#64 []) .M ∧ physAllowed (mach .M 0x80010000#64 0#64 []) 0x80010000 4 .fetch .M = false ∧
    untranslated { machM [] with stored := [0x80000103] } .M ∧
    physAllowed { machM [] with stored := [0x80000103] } 0x80000100 4 .fetch .M = true ∧
    storedIn { machM [] with stored := [0x80000103] } 0x80000100 4 = some 0x80000103 := by
  unfold untranslated; decide +kernel

/-! ## Witnesses: paging -/

/-- A supervisor machine under Sv32 with the root table at 0x80001000, whose entry 1 is `root`, and a second table at 0x80002000, whose
entry 3 is `leaf`; no cached entry is drawn. -/
def paged (root leaf : BitVec 32) (l : List (Nat × Word)) : State :=
  { mach .S 0x80000100#64 0#64 l with
    satp := 0x80080001#64, mem := word4 0x80001004 root ++ word4 0x8000200C leaf }

/-- Sv32 (R142). -/
def sv32 : Scheme := { vaBits := 32, levels := 2, pteBytes := 4, vpnBits := 10, ppnBits := 22 }

/-- A walk that draws no cached entry, with or without the hardware setting A and D. -/
def cold (setAD : Bool) : WalkChoice := { useCached := [], setAD := setAD }

/-- The pointer to the table at 0x80002000. -/
def pointer : BitVec 32 := 0x20000801#32

/-- A concrete entry is held: the three parts are closed computations. -/
abbrev holds (s : State) (i A : Nat) (pte : Word) : Prop := holdsEntry s sv32 0x0040300C#64 i A pte

theorem root_held : holds (paged pointer 0x200014CF#32 []) 1 0x80001000 0x20000801#64 := by
  unfold holds holdsEntry; decide +kernel

/-- From the root to the second table, for the addresses of its entry 3. -/
theorem paged_path : PointerPath (paged pointer 0x200014CF#32 []) sv32 0x0040300C#64 2 0x80001000 1 0x80002000 :=
  .down 1 0x80001000 1 0x80002000 0x20000801#64 root_held (by decide +kernel) (by decide +kernel) (by decide +kernel)
    (by decide +kernel) (by decide) (by
      rw [show ptePpn sv32 0x20000801#64 * 4096 = 0x80002000 by decide +kernel]; exact .here _ _)

/-- What every clause of `Obligations.PageWalk` starts from. -/
theorem witness_PageWalk : schemeOf (paged pointer 0x200014CF#32 []).satpMode = some sv32 ∧ (cold true).useCached = [] ∧
    PointerPath (paged pointer 0x200014CF#32 []) sv32 0x0040300C#64 sv32.levels
      (satpPpn .rv32 (paged pointer 0x200014CF#32 []).satp * 4096) 1 0x80002000 :=
  ⟨rfl, rfl, paged_path⟩

/-- A good leaf, an invalid one, the reserved R = 0, W = 1, a leaf not for S (U = 1 without SUM), one with A = 0, and a pointer at the last
level, which leaves no level for the next table. -/
theorem witness_PageWalk_leaves :
    (holds (paged pointer 0x200014CF#32 []) 0 0x80002000 0x200014CF#64 ∧
      pagePermits (paged pointer 0x200014CF#32 []) 0x200014CF#64 .store .S = true) ∧
    holds (paged pointer 0x20001400#32 []) 0 0x80002000 0x20001400#64 ∧
    holds (paged pointer 0x20001405#32 []) 0 0x80002000 0x20001405#64 ∧
    (holds (paged pointer 0x200014DF#32 []) 0 0x80002000 0x200014DF#64 ∧
      pagePermits (paged pointer 0x200014DF#32 []) 0x200014DF#64 .load .S = false) := by
  unfold holds holdsEntry
  exact ⟨by decide +kernel, by decide +kernel, by decide +kernel, by decide +kernel⟩

theorem witness_PageWalk_setAD :
    holds (paged pointer 0x2000140F#32 []) 0 0x80002000 0x2000140F#64 ∧
      pagePermits (paged pointer 0x2000140F#32 []) 0x2000140F#64 .store .S = true ∧
      (paged pointer 0x2000140F#32 []).setsAD (cold true) = true ∧ (paged pointer 0x2000140F#32 []).setsAD (cold false) = false ∧
      physAllowed (paged pointer 0x2000140F#32 []) 0x8000200C 4 .store .S = true ∧
      ∀ k, k < 4 → platformAt (paged pointer 0x2000140F#32 []).cfg (0x8000200C + k) = none := by
  unfold holds holdsEntry; decide +kernel

theorem witness_PageWalk_exhausted :
    PointerPath (paged pointer pointer []) sv32 0x0040300C#64 2 0x80001000 0 0x80002000 := by
  refine .down 1 0x80001000 0 0x80002000 0x20000801#64 (by unfold holdsEntry; decide +kernel) (by decide +kernel) (by decide +kernel)
    (by decide +kernel) (by decide +kernel) (by decide) ?_
  rw [show ptePpn sv32 0x20000801#64 * 4096 = 0x80002000 by decide +kernel]
  refine .down 0 0x80002000 0 0x80002000 0x20000801#64 (by unfold holdsEntry; decide +kernel) (by decide +kernel) (by decide +kernel)
    (by decide +kernel) (by decide +kernel) (by decide) ?_
  rw [show ptePpn sv32 0x20000801#64 * 4096 = 0x80002000 by decide +kernel]
  exact .here _ _

/-- A superpage leaf in the root table, aligned and misaligned; a root table PMP denies; an Sv39 address that is not canonical. -/
theorem witness_PageWalk_others :
    holdsEntry (paged 0x201000CF#32 0#32 []) sv32 0x0040300C#64 1 0x80001000 0x201000CF#64 ∧
    ptePpn sv32 0x201000CF#64 % 2 ^ (sv32.vpnBits * 1) = 0 ∧ ptePpn sv32 0x200014CF#64 % 2 ^ (sv32.vpnBits * 1) ≠ 0 ∧
    physAllowed { paged pointer 0#32 [] with pmpcfg := Vector.replicate 16 0#8 } (entryAt sv32 0x0040300C#64 1 0x80001000) 4 .load .S = false ∧
    ((2 : Int) ^ (39 - 1) ≤ (0x4000000000#64).toInt ∧ (0xFFFFFFBFFFFFFFFF#64).toInt < -(2 : Int) ^ (39 - 1)) := by
  unfold holdsEntry; decide +kernel

/-- The translation gives the physical address the leaf names; the test of 25_virtual_memory.md R149 step 3. -/
theorem witness_TranslatedAccess : ∃ u,
    translate sv32 ((paged pointer 0x200014CF#32 [(10, 0x0040300C#64)]).dataWalk 0) 0x0040300C#64 .store .S
      (paged pointer 0x200014CF#32 [(10, 0x0040300C#64)]) = .done 0x8000500C u ∧
    physAllowed u 0x8000500C 4 .store .S = true ∧ physAllowed u 0x8000500C 4 .load .S = true ∧
    deviceIn u.cfg 0x8000500C 4 = none ∧ (∀ k, k < 4 → platformAt u.cfg (0x8000500C + k) = none) ∧
    (paged pointer 0x200014CF#32 [(10, 0x0040300C#64)]).effPriv = .S ∧
    schemeOf (paged pointer 0x200014CF#32 [(10, 0x0040300C#64)]).satpMode = some sv32 :=
  ⟨_, rfl, by decide +kernel, by decide +kernel, by decide +kernel, by decide +kernel, by decide +kernel, by decide +kernel⟩

/-- A page that is not mapped, and one mapped to a physical address with nothing behind it. -/
theorem witness_LoadStoreTraps_translated :
    (∃ u, translate sv32 ((paged pointer 0#32 [(10, 0x0040300C#64)]).dataWalk 0) 0x0040300C#64 .load .S
      (paged pointer 0#32 [(10, 0x0040300C#64)]) = .trap .loadPageFault 0x0040300C#64 u) ∧
    (∃ u, translate sv32 ((paged pointer 0#32 [(10, 0x0040300C#64)]).dataWalk 0) 0x0040300C#64 .store .S
      (paged pointer 0#32 [(10, 0x0040300C#64)]) = .trap .storePageFault 0x0040300C#64 u) ∧
    (∃ u, translate sv32 ((paged pointer 0x200054CF#32 [(10, 0x0040300C#64)]).dataWalk 0) 0x0040300C#64 .load .S
      (paged pointer 0x200054CF#32 [(10, 0x0040300C#64)]) = .done 0x8001500C u ∧ physAllowed u 0x8001500C 4 .load .S = false) ∧
    (∃ u, translate sv32 ((paged pointer 0x200054CF#32 [(10, 0x0040300C#64)]).dataWalk 0) 0x0040300C#64 .store .S
      (paged pointer 0x200054CF#32 [(10, 0x0040300C#64)]) = .done 0x8001500C u ∧ physAllowed u 0x8001500C 4 .store .S = false) ∧
    (paged pointer 0#32 [(10, 0x0040300C#64)]).effPriv = .S :=
  ⟨⟨_, rfl⟩, ⟨_, rfl⟩, ⟨_, rfl, by decide +kernel⟩, ⟨_, rfl, by decide +kernel⟩, by decide +kernel⟩

/-- The same for a fetch at 0x0040300C; and a fetch from a page whose word has been stored to. -/
def pagedFetch (leaf : BitVec 32) (st : List Nat) : State := { paged pointer leaf [] with pc := 0x0040300C#64, stored := st }

theorem witness_FetchFaults_translated :
    (∃ u, translate sv32 (pagedFetch 0#32 []).now.fetchWalk 0x0040300C#64 .fetch .S (pagedFetch 0#32 []) =
      .trap .instructionPageFault 0x0040300C#64 u) ∧
    (∃ u, translate sv32 (pagedFetch 0x200054CF#32 []).now.fetchWalk 0x0040300C#64 .fetch .S (pagedFetch 0x200054CF#32 []) =
      .done 0x8001500C u ∧ physAllowed u 0x8001500C 4 .fetch .S = false) ∧
    (∃ u, translate sv32 (pagedFetch 0x200014CF#32 [0x8000500D]).now.fetchWalk 0x0040300C#64 .fetch .S
        (pagedFetch 0x200014CF#32 [0x8000500D]) = .done 0x8000500C u ∧ physAllowed u 0x8000500C 4 .fetch .S = true ∧
      storedIn u 0x8000500C 4 = some 0x8000500D) ∧
    (pagedFetch 0#32 []).priv = .S ∧ schemeOf (pagedFetch 0#32 []).satpMode = some sv32 :=
  ⟨⟨_, rfl⟩, ⟨_, rfl, by decide +kernel⟩, ⟨_, rfl, by decide +kernel, by decide +kernel⟩, by decide +kernel, by decide +kernel⟩

/-- The page is one of a device region at 0x80015000, which supports every access. -/
def pagedDevice : State :=
  (pagedFetch 0x200054CF#32 []).under ({ · with pma := [{ base := 0x80000000, size := 0x10000, kind := .memory },
    { base := 0x80015000, size := 0x1000, kind := .device true true true }] })

theorem witness_TranslatedAccess_device : ∃ u,
    translate sv32 (pagedDevice.dataWalk 0) 0x0040300C#64 .load .S pagedDevice = .done 0x8001500C u ∧
    translate sv32 (pagedDevice.dataWalk 0) 0x0040300C#64 .store .S pagedDevice = .done 0x8001500C u ∧
    translate sv32 pagedDevice.now.fetchWalk 0x0040300C#64 .fetch .S pagedDevice = .done 0x8001500C u ∧
    physAllowed u 0x8001500C 4 .load .S = true ∧ physAllowed u 0x8001500C 4 .store .S = true ∧
    physAllowed u 0x8001500C 4 .fetch .S = true ∧ storedIn u 0x8001500C 4 = none ∧ deviceIn pagedDevice.cfg 0x8001500C 4 = some 0x8001500C :=
  ⟨_, rfl, rfl, rfl, by decide +kernel, by decide +kernel, by decide +kernel, by decide +kernel, by decide +kernel⟩

theorem witness_FetchFaults_device :
    untranslated { pagedDevice with priv := .M, pc := 0x80015000#64 } .M ∧
    physAllowed { pagedDevice with priv := .M, pc := 0x80015000#64 } 0x80015000 4 .fetch .M = true ∧
    storedIn { pagedDevice with priv := .M, pc := 0x80015000#64 } 0x80015000 4 = none ∧
    deviceIn pagedDevice.cfg 0x80015000 4 = some 0x80015000 := by
  unfold untranslated; decide +kernel

/-- Sv39 (R142), and a supervisor machine under it whose root table at 0x80001000 holds a leaf with a Reserved bit set. -/
def sv39 : Scheme := { vaBits := 39, levels := 3, pteBytes := 8, vpnBits := 9, ppnBits := 44 }

def pagedReserved : State :=
  ({ mach .S 0#64 0#64 [(10, 0xC#64)] with
    satp := 0x8000000000080001#64, mem := word4 0x80001000 0x200000CF#32 ++ word4 0x80001004 0x00400000#32 }).under
    ({ · with xlen := .rv64, satpModes := [.bare, .sv39] })

theorem witness_PageWalk_reserved :
    schemeOf pagedReserved.satpMode = some sv39 ∧ holdsEntry pagedReserved sv39 0xC#64 2 0x80001000 0x00400000200000CF#64 ∧
    2 ^ 54 ≤ (0x00400000200000CF#64).toNat ∧
    translate sv39 (pagedReserved.dataWalk 0) 0xC#64 .load .S pagedReserved = .refused (.reservedPteBits 0x00400000200000CF#64) := by
  refine ⟨by decide +kernel, ?_, by decide, rfl⟩
  unfold holdsEntry; decide +kernel

/-- PMP lets S mode read the page tables and not write them. -/
theorem witness_PageWalk_deniedAD :
    (paged pointer 0x2000140F#32 []).setsAD (cold true) = true ∧
    physAllowed { paged pointer 0x2000140F#32 [] with pmpcfg := (paged pointer 0#32 []).pmpcfg.set 0 0x19#8 } 0x8000200C 4 .load .S = true ∧
    physAllowed { paged pointer 0x2000140F#32 [] with pmpcfg := (paged pointer 0#32 []).pmpcfg.set 0 0x19#8 } 0x8000200C 4 .store .S = false := by
  decide +kernel

/-- A root table at 0x0200B000, whose entry 0x3FE is the low word of mtime. -/
def pagedClock : State := { mach .S 0#64 0#64 [] with satp := 0x8000200B#64, mtime := 0x2010000F#64 }

theorem witness_PageWalk_clock :
    holdsEntry pagedClock sv32 0xFF800000#64 1 0x0200B000 0x2010000F#64 ∧ physAllowed pagedClock 0x0200BFF8 4 .store .S = true ∧
    entryAt sv32 0xFF800000#64 1 0x0200B000 = 0x0200BFF8 ∧ mtimeIn pagedClock.cfg 0x0200BFF8 4 = some 0x0200BFF8 := by
  unfold holdsEntry; decide +kernel

theorem witness_EntrySource : ∃ (e : TlbEntry) (s : State), e ∈ s.tlb ∧ e.level = 0 ∧ e.prefixVpn = vpnPrefix sv32 0x00011000#64 0 ∧
    (e.asid = satpAsid s.cfg.xlen s.satp ∨ pteG e.pte = true) ∧
    ¬(pteV e.pte = true ∧ pteLeaf e.pte = true ∧ pteNeedsAD e.pte .load = true) ∧ sv32.pteBytes ≤ 8 :=
  ⟨⟨2#16, 0, 0x11#64, 0x200020E7#64⟩, machCached [], by decide +kernel, by decide +kernel, by decide +kernel, by decide +kernel,
    by decide +kernel, by decide +kernel⟩

/-! ## Witnesses: CSRs -/

theorem witness_CsrResult :
    ((Instr.csrrs 5#5 0x340#12 0#5, false, fun old => old ||| (machM []).reg 0#5) ∈ csrForms (machM []) 5#5 0x340#12 0#5) ∧
    ((Instr.csrrwi 5#5 0x3A0#12 31#5, true, fun _ => (31#5).setWidth 64) ∈ csrForms (machM []) 5#5 0x3A0#12 31#5) ∧
    csrAt 0x340#12 = some .mscratch ∧ csrAt 0x3A0#12 = some (.pmpcfg 0) ∧ csrExists (machM []).cfg .mscratch = true ∧
    csrExists (machM []).cfg (.pmpcfg 0) = true ∧ ((0x340#12).extractLsb' 8 2).toNat ≤ (machM []).priv.code ∧
    ¬(bit 31#64 0 = false ∧ bit 31#64 1 = true) ∧ ¬(bit 31#64 8 = false ∧ bit 31#64 9 = true) ∧
    ¬(bit 31#64 16 = false ∧ bit 31#64 17 = true) ∧ ¬(bit 31#64 24 = false ∧ bit 31#64 25 = true) := by
  refine ⟨by simp [csrForms], by simp [csrForms], ?_⟩; decide +kernel

/-- The registers of the reset state fit XLEN. -/
theorem reset_widthInv : widthInv State.reset := by
  unfold widthInv fits; decide +kernel

theorem witness_CsrIllegal :
    ((Instr.csrrs 5#5 0x300#12 0#5, false, fun old => old ||| (mach .S 0#64 0#64 []).reg 0#5) ∈
      csrForms (mach .S 0#64 0#64 []) 5#5 0x300#12 0#5) ∧ csrAt 0x300#12 = some .mstatus ∧
    (mach .S 0#64 0#64 []).priv.code < ((0x300#12).extractLsb' 8 2).toNat ∧ csrAt 0x180#12 = some .satp ∧
    statusBit (mach .S 0#64 0x100000#64 []).mstatus .TVM = true ∧
    csrExists ((machM []).under ({ · with modes := .mu })).cfg .satp = false ∧ (mach .U 0#64 0#64 []).priv = .U := by
  refine ⟨by simp [csrForms], ?_⟩; decide +kernel

theorem witness_CsrUnlistedRefused :
    ((Instr.csrrs 10#5 0xC00#12 0#5, false, fun old => old ||| (machM []).reg 0#5) ∈ csrForms (machM []) 10#5 0xC00#12 0#5) ∧
    csrAt 0xC00#12 = none ∧ csrAt 0x39F#12 = none ∧ csrAt 0x3A4#12 = none ∧ csrAt 0x3AF#12 = none ∧ csrAt 0x3C0#12 = none ∧
    ¬(0x3A0 ≤ (0x3A4#12).toNat ∧ (0x3A4#12).toNat ≤ 0x3A3) ∧ ¬(0x3B0 ≤ (0x3C0#12).toNat ∧ (0x3C0#12).toNat ≤ 0x3BF) := by
  refine ⟨by simp [csrForms], ?_⟩; decide +kernel

theorem witness_CsrWriteFrame : ∃ u, csrWrite (machM []) (.pmpcfg 0) 0x1F1F#64 = .ok u := ⟨_, rfl⟩

theorem witness_MstatusWrite :
    (∃ u, csrWrite (machM []) .mstatus 0x1000#64 = .ok u) ∧
    (∃ u, csrWrite ((machM []).under ({ · with modes := .mu })) .mstatus 0x800#64 = .ok u) ∧
    (∃ u, csrWrite ((machM []).under ({ · with modes := .m })) .mstatus 0x1888#64 = .ok u) ∧
    (machM []).cfg.modes.has (mppOf 0x1800#64) = true := ⟨⟨_, rfl⟩, ⟨_, rfl⟩, ⟨_, rfl⟩, rfl⟩

theorem witness_SstatusWindow : ∃ u, csrWrite (machM []) .sstatus 0xFFFFFFFF#64 = .ok u := ⟨_, rfl⟩

/-- `Obligations.InterruptViews` has no hypothesis; outside MODES = MSU a write of mie keeps bits 11, 7 and 3 (R51). -/
theorem test_mie_without_S :
    (∃ u, csrWrite ((machM []).under ({ · with modes := .m })) .mie 0xFFF#64 = .ok u ∧ u.mie = 0x888#64) ∧
    (∃ u, csrWrite ((machM []).under ({ · with modes := .mu })) .mie 0xFFF#64 = .ok u ∧ u.mie = 0x888#64) :=
  ⟨⟨_, rfl, by decide +kernel⟩, ⟨_, rfl, by decide +kernel⟩⟩

theorem witness_SeipLineNotLatched : (machM []).priv = .M ∧ (machM []).cfg.modes = .msu ∧ (5#5 : Reg) ≠ 0#5 := by decide

theorem witness_TrapRegisterWrites :
    (∃ e : Exc, (15#64 : Word).toNat = e.code) ∧ (∃ q : Irq, (0x8000000B#64 : Word).toNat = 2 ^ (Xlen.rv32.bits - 1) + q.code) ∧
    satpModeOf .rv32 0x80000000#64 = some .sv32 ∧ .sv32 ∈ (machM []).cfg.satpModes ∧ satpModeOf .rv64 0xF000000000000000#64 = none :=
  ⟨⟨.storePageFault, rfl⟩, ⟨.mei, rfl⟩, rfl, by decide, rfl⟩

theorem witness_PmpRegisters : (machM []).cfg.pmpCount ≤ 16 ∧ (pmpcfgEntries .rv32 3)[3]? = some 15 ∧
    csrExists (machM []).cfg (.pmpcfg 3) = true ∧ (∃ u, csrWrite (machM []) (.pmpcfg 3) 0x9F000000#64 = .ok u) ∧
    15 < (machM []).cfg.pmpCount ∧ ((machM []).pmpCfg 15).getLsbD 7 = false ∧ bit 0x02000000#64 24 = false ∧ bit 0x02000000#64 25 = true :=
  ⟨by decide, rfl, rfl, ⟨_, rfl⟩, by decide +kernel, by decide +kernel, by decide, by decide⟩

/-! ## Witnesses: traps and the system instructions -/

theorem witness_TrapEntryM :
    ¬((mach .U 0#64 8#64 []).cfg.modes = .msu ∧ (mach .U 0#64 8#64 []).priv ≠ .M ∧ bit (mach .U 0#64 8#64 []).medeleg 8 = true) ∧
    ((machM []).under ({ · with modes := .m })).cfg.modes = .m := by decide +kernel

theorem witness_TrapEntryS : { mach .U 0#64 2#64 [] with medeleg := 0x100#64 }.cfg.modes = .msu ∧
    { mach .U 0#64 2#64 [] with medeleg := 0x100#64 }.priv ≠ .M ∧ bit { mach .U 0#64 2#64 [] with medeleg := 0x100#64 }.medeleg 8 = true ∧
    bit { mach .S 0#64 2#64 [] with mideleg := 0x20#64 }.mideleg (Cause.irq .sti).code = true := by decide +kernel

theorem witness_TrapVector : fits .rv32 0xFFFFFFFD#64 ∧ (0xFFFFFFFD#64 : Word).toNat % 4 = 1 ∧ fits .rv64 0xFFFFFFFFFFFFFFFF#64 := by
  unfold fits; decide

theorem witness_MachineReturn : (machM []).priv = .M := rfl

theorem witness_SupervisorReturn : (mach .S 0#64 0x100#64 []).cfg.modes = .msu ∧ (mach .S 0#64 0x100#64 []).priv ≠ .U ∧
    ¬((mach .S 0#64 0x100#64 []).priv = .S ∧ statusBit (mach .S 0#64 0x100#64 []).mstatus .TSR = true) := by decide +kernel

theorem witness_ReturnUndoesEntry :
    (mach .U 0#64 8#64 []).cfg.modes.has .U = true ∧ (takeTrap (.exc .environmentCallFromU) 0#64 0#64 (mach .U 0#64 8#64 [])).priv = .M ∧
    (takeTrap (.exc .environmentCallFromU) 0#64 0#64 { mach .U 0#64 2#64 [] with medeleg := 0x100#64 }).priv = .S ∧
    statusBit (mach .U 0#64 2#64 []).mstatus .TSR = false := by decide +kernel

theorem witness_PrivilegedInstructionsTrap : (mach .S 0#64 0#64 []).priv ≠ .M ∧ (mach .U 0#64 0#64 []).priv = .U ∧
    statusBit (mach .S 0#64 0x400000#64 []).mstatus .TSR = true ∧ statusBit (mach .S 0#64 0x100000#64 []).mstatus .TVM = true ∧
    statusBit (mach .S 0#64 0x200000#64 []).mstatus .TW = true ∧ (mach .S 0#64 0x200000#64 []).cfg.twLimit = 0 := by decide +kernel

/-- A machine that stalls in `wfi`, with the timer's comparator ahead of it or reached. -/
def machStall (cmp : BitVec 64) : State :=
  { mach .M 0x80000010#64 0#64 [] with mie := 0x80#64, mtimecmp := cmp }.under ({ · with wfiImpl := .stall })

theorem witness_WfiResult : (machStall 0#64).priv ≠ .U ∧ csrRead (machStall 0#64) .mie &&& csrRead (machStall 0#64) .mip ≠ 0#64 ∧
    (machStall 1#64).cfg.wfiImpl = .stall ∧ csrRead (machStall 1#64) .mie &&& csrRead (machStall 1#64) .mip = 0#64 := by decide +kernel

/-- A supervisor machine that has waited `n` steps under TW = 1 with a limit of 3. -/
def machWaiting (n : Nat) : State :=
  { mach .S 0#64 0x200000#64 [] with mie := 0x80#64, mtimecmp := 1#64, waiting := true, waited := n }.under
    ({ · with wfiImpl := .stall, twLimit := 3 })

theorem witness_WaitState : (machWaiting 3).waiting = true ∧ csrRead (machWaiting 3) .mie &&& csrRead (machWaiting 3) .mip = 0#64 ∧
    ((machWaiting 3).cfg.wfiImpl = .either → (machWaiting 3).now.wakeEarly = false) ∧
    ((machWaiting 3).priv = .S ∧ statusBit (machWaiting 3).mstatus .TW = true ∧ (machWaiting 3).cfg.twLimit ≤ (machWaiting 3).waited) ∧
    ¬((machWaiting 2).cfg.twLimit ≤ (machWaiting 2).waited) ∧
    csrRead { machWaiting 2 with mtimecmp := 0#64 } .mie &&& csrRead { machWaiting 2 with mtimecmp := 0#64 } .mip ≠ 0#64 := by
  decide +kernel

theorem witness_FenceResult : (machCached []).cfg.modes = .msu ∧ (machCached []).priv ≠ .U ∧
    ¬((machCached []).priv = .S ∧ statusBit (machCached []).mstatus .TVM = true) := by decide +kernel

/-! ## Witnesses: interrupts, protection, whole-machine rules -/

theorem witness_TakeableInterrupts :
    { mach .M 0#64 8#64 [] with mie := 0x80#64 }.takeable .mti = true ∧ { mach .M 0#64 0#64 [] with mie := 0x80#64 }.takeable .mti = false ∧
    { mach .S 0#64 2#64 [] with mie := 0x20#64, mideleg := 0x20#64, mipSoft := 0x20#64 }.takeable .sti = true := by decide +kernel

theorem witness_InterruptChoice :
    { machM [] with mideleg := 0x222#64 }.mideleg &&& ~~~supervisorBits = 0#64 ∧
    { mach .U 0#64 0#64 [] with mie := 0xA0#64, mideleg := 0x20#64, mipSoft := 0x20#64 }.selectIrq = some .mti ∧
    (machM []).selectIrq = none := by decide +kernel

/-- A machine whose entry 0 is the range below 0x80000000 (A = 1) and whose entry 1 the four bytes at 0x80000000 (A = 2), locked. -/
def machPmp : State :=
  { machM [] with pmpcfg := ((Vector.replicate 16 0#8).set 0 0x0F#8).set 1 0x91#8,
                  pmpaddr := ((Vector.replicate 16 0#64).set 0 0x20000000#64).set 1 0x20000000#64 }

theorem witness_PmpDecision :
    pmpCovers machPmp 0 0x7FFFFFFF ∧ pmpCovers machPmp 1 0x80000000 ∧ pmpCovers (machM []) 0 0 ∧ machPmp.cfg.pmpCount = 16 ∧
    ((machM []).under ({ · with pmpCount := 0 })).cfg.pmpCount = 0 ∧ pmpCheck machPmp 0x80000000 4 .load .M = true ∧
    pmpCheck machPmp 0x80000000 4 .store .M = false ∧ pmpCheck machPmp 0x7FFFFFFE 4 .load .M = false ∧
    pmpCheck machPmp 0x80000004 4 .load .S = false ∧ pmpCheck machPmp 0x80000004 4 .load .M = true := by
  refine ⟨.inl ?_, .inr (.inl ?_), .inr (.inr ⟨by decide +kernel, 32, 0, by decide +kernel, by decide +kernel⟩), ?_⟩
  · decide +kernel
  · decide +kernel
  · decide +kernel

/-- The step of `machStep` has a next state, so the statements about every step that answers one speak of something; and `machStep` meets
the invariants they keep: `MemoryInvariantStep`, `ModeInvariantStep`, `CsrInvariantStep` and, with `witness_widthInv`,
`RegisterInvariantStep`. -/
theorem witness_invariants : (∃ t, Machine.step machStep = .next t) ∧ memInv machStep ∧ modeInv machStep ∧ alignInv machStep ∧ csrInv machStep := by
  refine ⟨⟨_, rfl⟩, ?_, ?_, ?_, ?_⟩
  · unfold memInv; decide +kernel
  · unfold modeInv; decide +kernel
  · unfold alignInv alignedTo; decide +kernel
  · refine ⟨by decide +kernel, by decide +kernel, by decide +kernel, by decide +kernel, .inl (by decide +kernel), .inl (by decide +kernel),
      ⟨.bare, by decide +kernel, by decide +kernel⟩, ?_⟩
    unfold pmpByteLegal; decide +kernel

theorem witness_widthInv : widthInv machStep := by
  unfold widthInv fits; decide +kernel

theorem witness_InvariantsAtReset : Params.wf Params.standard := by
  unfold Params.wf fits alignedTo; decide +kernel

theorem witness_PmpLockHolds : ∃ t, Machine.step { machStep with pmpcfg := machStep.pmpcfg.set 1 0x89#8 } = .next t ∧
    (({ machStep with pmpcfg := machStep.pmpcfg.set 1 0x89#8 } : State).pmpCfg 1).getLsbD 7 = true ∧
    (({ machStep with pmpcfg := machStep.pmpcfg.set 1 0x89#8 } : State).pmpCfg 1).extractLsb' 3 2 = 1#2 :=
  ⟨_, rfl, by decide +kernel, by decide +kernel⟩

theorem witness_ModeChanges :
    (∃ t, exec .mret (machM []) = .next t ∧ t.priv ≠ (machM []).priv) ∧
    (∃ t, exec .ecall (mach .U 0#64 0#64 []) = .next t ∧ t.priv ≠ (mach .U 0#64 0#64 []).priv) ∧
    (∃ t, exec .sret (mach .S 0#64 0#64 []) = .next t ∧ t.priv ≠ (mach .S 0#64 0#64 []).priv) :=
  ⟨⟨_, rfl, by decide +kernel⟩, ⟨_, rfl, by decide +kernel⟩, ⟨_, rfl, by decide +kernel⟩⟩

theorem witness_UserModeContained : (mach .U 0#64 0#64 []).priv = .U ∧ (mach .U 0#64 0#64 []).waiting = false ∧
    (∃ t, exec (.addi 5#5 0#5 1#12) (mach .U 0#64 0#64 []) = .next t) ∧ (∃ t, exec .mret (mach .U 0#64 0#64 []) = .next t) :=
  ⟨rfl, rfl, ⟨_, rfl⟩, ⟨_, rfl⟩⟩

/-- The cached pointer of the root entry that `paged` has since overwritten with 0. -/
def stalePointer : TlbEntry := { asid := 0#16, level := 1, prefixVpn := vpnPrefix sv32 0x0040300C#64 1, pte := 0x20000801#64 }

/-- A speculative walk through the stale pointer, about to happen. -/
def machStale : State :=
  { paged 0#32 0x200014CF#32 [] with
    tlb := [stalePointer], now := { still with speculate := [{ va := 0x0040300C#64, useCached := [stalePointer] }] } }

theorem witness_PlatformMoves_speculation :
    schemeOf machStale.satpMode = some sv32 ∧ fits .rv32 0x0040300C#64 ∧ stalePointer ∈ machStale.tlb ∧
    holdsEntry machStale sv32 0x0040300C#64 0 (ptePpn sv32 stalePointer.pte * 4096) 0x200014CF#64 ∧ machStale.now.evict = [] := by
  unfold fits holdsEntry; decide +kernel

/-- The entry behind a stale pointer enters the cache by speculation, and only where the walk uses that pointer (R161 (b), (d)). -/
theorem test_speculation_stale :
    ({ asid := 0#16, level := 0, prefixVpn := 0x403#64, pte := 0x200014CF#64 } : TlbEntry) ∈ (environment machStale).tlb ∧
    ({ asid := 0#16, level := 0, prefixVpn := 0x403#64, pte := 0x200014CF#64 } : TlbEntry) ∉
      (environment { machStale with now := { still with speculate := [{ va := 0x0040300C#64, useCached := [] }] } }).tlb := by
  decide +kernel

theorem witness_PlatformMoves : ((machM []).under ({ · with externalMsip := false })).cfg.externalMsip = false := rfl

end Tests

end Sys2Proof.Machine
end

/-! PROOF of O53. pc and the exception pcs stay aligned, and every XLEN-bit register stays within XLEN bits: the primitive updates keep
both (`Kept`), hence every step does. -/

namespace Sys2Proof.Proofs.RegisterInvariant
open Sys2Proof Sys2Proof.Machine

/-! ### The values that traps and CSR writes compute -/

theorem alignedTo_clear_low (c : Params) (v : Word) : alignedTo c (v &&& ~~~3#64) :=
  alignedTo_of_four (by rw [toNat_clear_low]; omega)

/-- What a write of mepc or sepc holds is aligned: the mask clears the bits below IALIGN (R42). -/
theorem alignedTo_epcMask (c : Params) (v : Word) : alignedTo c (v &&& epcMask c) := by
  cases hc : c.cExt
  · have hm : epcMask c = ~~~3#64 := by simp [epcMask, hc]
    rw [hm]; exact alignedTo_clear_low c v
  · have hm : epcMask c = ~~~1#64 := by simp [epcMask, hc]
    have hi : c.ialign = 2 := by simp [Params.ialign, hc]
    unfold alignedTo
    rw [hm, hi, toNat_clear_low1]; omega

/-- Every trap handler's address is aligned: BASE is a multiple of 4, and so is the vector offset (R322). -/
theorem alignedTo_trapVector (p : Params) (tvec : Word) (c : Cause) : alignedTo p (trapVector p.xlen tvec c) := by
  unfold trapVector
  split
  · refine alignedTo_wrap (alignedTo_of_four ?_)
    rw [BitVec.toNat_add, BitVec.toNat_ofNat, toNat_clear_low]; omega
  · exact alignedTo_clear_low p tvec

theorem fits_trapVector {x : Xlen} {tvec : Word} (h : fits x tvec) (c : Cause) : fits x (trapVector x tvec c) := by
  unfold trapVector
  split
  · exact fits_wrap _ _
  · exact fits_and_left _ h

/-- Trap entry and `mret` write MPP only where the configuration has more than one mode (R320, R200). -/
theorem fits_withMpp_unless {x : Xlen} {m : Word} (single : Prop) [Decidable single] (p : Priv) (h : fits x m) :
    fits x (if single then m else withMpp m p) := by
  split
  · exact h
  · exact fits_withMpp _ h

theorem cause_code_lt (c : Cause) : c.code < 16 := by
  cases c with
  | exc e => cases e <;> decide
  | irq i => cases i <;> decide

theorem fits_causeWord (x : Xlen) (c : Cause) : fits x (causeWord x c) := by
  cases x with
  | rv32 =>
    have hc := cause_code_lt c
    apply fits_of_lt
    unfold causeWord
    rw [BitVec.toNat_ofNat]
    split <;> norm_num only [Xlen.bits] <;> omega
  | rv64 => exact fits_rv64 _

theorem fits_causeWritten {s : State} {v : Word} (h : fits s.cfg.xlen v) : fits s.cfg.xlen (causeWritten s v) := by
  unfold causeWritten
  split
  · exact h
  · exact fits_wrap _ _

theorem fits_tvecWritten {c : Params} {old v : Word} (ho : fits c.xlen old) (hv : fits c.xlen v) : fits c.xlen (tvecWritten c old v) := by
  unfold tvecWritten
  split
  · exact hv
  · exact fits_or (fits_and_left _ hv) (fits_and_left _ ho)

theorem fits_satpWritten {c : Params} {old v : Word} (ho : fits c.xlen old) (hv : fits c.xlen v) : fits c.xlen (satpWritten c old v) := by
  unfold satpWritten
  split
  · split
    · exact fits_and_left _ hv
    · exact ho
  · exact ho

theorem fits_mstatusWritten {s : State} {v : Word} (ho : fits s.cfg.xlen s.mstatus) (hv : fits s.cfg.xlen v) :
    fits s.cfg.xlen (mstatusWritten s v) := by
  have hm := fits_mergeBits (mstatusMask s.cfg.modes) ho hv
  unfold mstatusWritten
  dsimp only
  split
  · exact hm
  · exact fits_withMpp _ hm
  · exact fits_withMpp _ hm

/-- A write of a pmpcfg register reaches the configuration bytes only (R56). -/
theorem writePmpBytes_only {l : List Nat} {s t : State} {v : Word} (h : writePmpBytes s v l = .ok t) : t = { s with pmpcfg := t.pmpcfg } := by
  refine writePmpBytes_induct (P := fun u => u = { s with pmpcfg := u.pmpcfg }) ?_ rfl h
  intro u i b w hu hw
  rcases writePmpByte_ok hw with rfl | ⟨_, _, _, rfl⟩
  · exact hu
  · rw [hu]

/-! ### Alignment -/

theorem alignInv_takeTrap {s : State} (h : alignInv s) (c : Cause) (v : Word) : alignInv (takeTrap c v s.pc s) := by
  obtain ⟨hpc, hmepc, hsepc⟩ := h
  unfold takeTrap
  split
  · exact ⟨alignedTo_trapVector s.cfg s.stvec c, hmepc, hpc⟩
  · exact ⟨alignedTo_trapVector s.cfg s.mtvec c, hpc, hsepc⟩

theorem alignInv_csrWrite {s t : State} {c : Csr} {v : Word} (h : alignInv s) (hw : csrWrite s c v = .ok t) : alignInv t := by
  obtain ⟨hpc, hmepc, hsepc⟩ := h
  cases c <;> simp only [csrWrite] at hw
  case mepc => cases hw; exact ⟨hpc, alignedTo_epcMask s.cfg v, hsepc⟩
  case sepc => cases hw; exact ⟨hpc, hmepc, alignedTo_epcMask s.cfg v⟩
  case pmpcfg k => rw [writePmpBytes_only hw]; exact ⟨hpc, hmepc, hsepc⟩
  case pmpaddr i => cases hw; unfold writePmpaddr; split <;> exact ⟨hpc, hmepc, hsepc⟩
  all_goals cases hw; exact ⟨hpc, hmepc, hsepc⟩

/-- The primitive updates keep pc, mepc and sepc aligned. -/
theorem alignInv_kept : Kept alignInv where
  draw s h := by simpa [alignInv] using h
  env _ h := h
  access s t h f := by rw [f.core]; exact h
  setReg s r v h := by simpa [alignInv] using h
  advance := fun _ ⟨hpc, hepc⟩ => ⟨alignedTo_wrap (alignedTo_add_four hpc), hepc⟩
  jump := fun s v ⟨_, hepc⟩ ok _ => ⟨(targetOk_iff s v).1 ok, hepc⟩
  trap _ c v h _ := alignInv_takeTrap h c v
  mret := fun _ ⟨_, hmepc, hsepc⟩ _ => ⟨hmepc, hmepc, hsepc⟩
  sret := fun _ ⟨_, hmepc, hsepc⟩ _ _ => ⟨hsepc, hmepc, hsepc⟩
  csr _ _ _ _ _ h _ _ _ hw := alignInv_csrWrite h hw
  wait _ _ _ h := h

/-! ### Width -/

/-- `widthInv` with a name for each register. -/
structure RegistersFit (s : State) : Prop where
  reg : ∀ r, fits s.cfg.xlen (s.reg r)
  pc : fits s.cfg.xlen s.pc
  mstatus : fits s.cfg.xlen s.mstatus
  medeleg : fits s.cfg.xlen s.medeleg
  mideleg : fits s.cfg.xlen s.mideleg
  mie : fits s.cfg.xlen s.mie
  mtvec : fits s.cfg.xlen s.mtvec
  mscratch : fits s.cfg.xlen s.mscratch
  mepc : fits s.cfg.xlen s.mepc
  mcause : fits s.cfg.xlen s.mcause
  mtval : fits s.cfg.xlen s.mtval
  mipSoft : fits s.cfg.xlen s.mipSoft
  stvec : fits s.cfg.xlen s.stvec
  sscratch : fits s.cfg.xlen s.sscratch
  sepc : fits s.cfg.xlen s.sepc
  scause : fits s.cfg.xlen s.scause
  stval : fits s.cfg.xlen s.stval
  satp : fits s.cfg.xlen s.satp
  pmpaddr : ∀ i : Fin 16, fits s.cfg.xlen s.pmpaddr[i]
  zero : s.regs[0] = 0#64

theorem registersFit_iff (s : State) : RegistersFit s ↔ widthInv s := by
  constructor
  · rintro ⟨⟩; unfold widthInv; tauto
  · rintro ⟨reg, pc, mstatus, medeleg, mideleg, mie, mtvec, mscratch, mepc, mcause, mtval, mipSoft, stvec, sscratch, sepc, scause,
      stval, satp, pmpaddr, zero⟩
    constructor <;> assumption

theorem RegistersFit.drawChoices {s : State} (W : RegistersFit s) : RegistersFit (drawChoices s) := by
  unfold Machine.drawChoices
  split <;> exact { W with }

theorem RegistersFit.access {s t : State} (W : RegistersFit s) (f : AccessFrame s t) : RegistersFit t := by
  rw [f.core]; exact { W with }

theorem RegistersFit.setPc {s : State} {v : Word} (W : RegistersFit s) (hv : fits s.cfg.xlen v) : RegistersFit (s.setPc v) :=
  { W with pc := hv }

/-- A register write reduces its value modulo 2^XLEN, and leaves x0 alone (R20). -/
theorem RegistersFit.setReg {s : State} (W : RegistersFit s) (r : Reg) (v : Word) : RegistersFit (s.setReg r v) := by
  by_cases hr : r = 0#5
  · have he : s.setReg r v = s := by simp [State.setReg, hr]
    rw [he]; exact W
  · have hreg : ∀ q, fits s.cfg.xlen ((s.setReg r v).reg q) := by
      intro q
      by_cases hq : q = r
      · rw [hq, reg_setReg_same, if_neg hr]; exact fits_wrap _ _
      · rw [reg_setReg_ne _ _ _ _ hq]; exact W.reg q
    have hne : r.toNat ≠ 0 := fun e => hr (BitVec.eq_of_toNat_eq e)
    have he : s.setReg r v = { s with regs := s.regs.set r.toNat (s.cfg.xlen.wrap v) (by have := r.isLt; omega) } := by
      simp [State.setReg, hr]
    rw [he] at hreg ⊢
    exact { W with reg := hreg, zero := by simpa [hne] using W.zero }

theorem RegistersFit.takeTrap {s : State} (W : RegistersFit s) (c : Cause) {v : Word} (hv : fits s.cfg.xlen v) :
    RegistersFit (takeTrap c v s.pc s) := by
  unfold Machine.takeTrap
  split
  · exact { W with
      sepc := W.pc
      scause := fits_causeWord _ c
      stval := hv
      mstatus := fits_withStatusBit _ _ (fits_withStatusBit _ _ (fits_withStatusBit _ _ W.mstatus))
      pc := fits_trapVector W.stvec c }
  · exact { W with
      mepc := W.pc
      mcause := fits_causeWord _ c
      mtval := hv
      mstatus := fits_withMpp_unless _ _ (fits_withStatusBit _ _ (fits_withStatusBit _ _ W.mstatus))
      pc := fits_trapVector W.mtvec c }

theorem RegistersFit.returnM {s : State} (W : RegistersFit s) : RegistersFit (returnM s) :=
  { W with
    mstatus := fits_withMpp_unless _ _ (fits_withStatusBit _ _ (fits_withStatusBit _ _ W.mstatus))
    pc := W.mepc }

theorem RegistersFit.returnS {s : State} (W : RegistersFit s) : RegistersFit (returnS s) :=
  { W with
    mstatus := fits_withStatusBit _ _ (fits_withStatusBit _ _ (fits_withStatusBit _ _ W.mstatus))
    pc := W.sepc }

theorem RegistersFit.writePmpaddr {s : State} (W : RegistersFit s) (i : Nat) {v : Word} (hv : fits s.cfg.xlen v) :
    RegistersFit (writePmpaddr s i v) := by
  unfold Machine.writePmpaddr
  split
  · refine { W with pmpaddr := fun j => ?_ }
    simp only [Fin.getElem_fin, Vector.getElem_setIfInBounds]
    split
    · exact fits_and_left _ hv
    · exact W.pmpaddr j
  · exact W

theorem RegistersFit.csrWrite {s t : State} {c : Csr} {v : Word} (W : RegistersFit s) (hv : fits s.cfg.xlen v)
    (h : csrWrite s c v = .ok t) : RegistersFit t := by
  cases c <;> simp only [Machine.csrWrite] at h
  case pmpcfg k => rw [writePmpBytes_only h]; exact { W with }
  case pmpaddr i => cases h; exact W.writePmpaddr i hv
  all_goals cases h
  case sstatus => exact { W with mstatus := fits_mergeBits _ W.mstatus hv }
  case sie => exact { W with mie := fits_mergeBits _ W.mie hv }
  case stvec => exact { W with stvec := fits_tvecWritten W.stvec hv }
  case sscratch => exact { W with sscratch := hv }
  case sepc => exact { W with sepc := fits_and_left _ hv }
  case scause => exact { W with scause := fits_causeWritten hv }
  case stval => exact { W with stval := hv }
  case sip => exact { W with mipSoft := fits_mergeBits _ W.mipSoft hv }
  case satp => exact { W with satp := fits_satpWritten W.satp hv }
  case mstatus => exact { W with mstatus := fits_mstatusWritten W.mstatus hv }
  case medeleg => exact { W with medeleg := fits_and_left _ hv }
  case mideleg => exact { W with mideleg := fits_and_left _ hv }
  case mie => exact { W with mie := fits_mergeBits _ W.mie hv }
  case mtvec => exact { W with mtvec := fits_tvecWritten W.mtvec hv }
  case mscratch => exact { W with mscratch := hv }
  case mepc => exact { W with mepc := fits_and_left _ hv }
  case mcause => exact { W with mcause := fits_causeWritten hv }
  case mtval => exact { W with mtval := hv }
  case mip => exact { W with mipSoft := fits_mergeBits _ W.mipSoft hv }

/-- The primitive updates keep every register within XLEN bits. -/
theorem registersFit_kept : Kept RegistersFit where
  draw _ W := W.drawChoices
  env _ W := { W with }
  access _ _ W f := W.access f
  setReg _ r v W := W.setReg r v
  advance _ W := W.setPc (fits_wrap _ _)
  jump _ _ W _ hv := W.setPc hv
  trap s c _ W hv := W.takeTrap c (hv ((registersFit_iff s).1 W))
  mret _ W _ := W.returnM
  sret _ W _ _ := W.returnS
  csr s _ _ _ _ W _ _ hv hw := W.csrWrite (hv ((registersFit_iff s).1 W)) hw
  wait _ _ _ W := { W with }

theorem widthInv_step {s t : State} (h : widthInv s) (hs : Machine.step s = .next t) : widthInv t :=
  (registersFit_iff t).1 (registersFit_kept.step ((registersFit_iff s).2 h) hs)

/-- Settles O53: both invariants are kept by the primitive updates a step is made of. -/
theorem registerInvariantStep : Obligations.RegisterInvariantStep := by
  unfold Obligations.RegisterInvariantStep
  intro s t hs
  exact ⟨fun h => alignInv_kept.step h hs, fun h => widthInv_step h hs⟩

end Sys2Proof.Proofs.RegisterInvariant

/-! The bits of the masks that CSR reads and writes go through (R239). -/

namespace Sys2Proof.Proofs.CsrMasks
open Sys2Proof Sys2Proof.Machine

theorem bit_mstatusMask_m : ∀ i, i < 64 → bit (mstatusMask .m) i = decide (i ∈ [3, 7]) := by decide
theorem bit_mstatusMask_mu : ∀ i, i < 64 → bit (mstatusMask .mu) i = decide (i ∈ [3, 7, 11, 12, 17]) := by decide
theorem bit_sstatusWriteMask : ∀ i, i < 64 → bit sstatusWriteMask i = decide (i ∈ [1, 5, 8, 18, 19]) := by decide
theorem bit_supervisorBits : ∀ i, i < 64 → bit supervisorBits i = decide (i ∈ [1, 5, 9]) := by decide
theorem bit_medelegMask :
    ∀ i, i < 64 → bit medelegMask i = decide (i ∈ [0, 1, 2, 3, 4, 5, 6, 7, 8, 9, 12, 13, 15]) := by decide

theorem bit_mieMask (M : Modes) : ∀ i, i < 64 → bit (mieMask M) i = decide (i ∈ [3, 7, 11] ∨ (i ∈ [1, 5, 9] ∧ M = .msu)) := by
  cases M <;> decide

theorem bit_mipMask (M : Modes) : ∀ i, i < 64 → bit (mipMask M) i = decide (i ∈ [1, 5, 9] ∧ M = .msu) := by
  cases M <;> decide

theorem bit_sstatusReadMask (x : Xlen) : ∀ i, i < 64 → bit (sstatusReadMask x) i =
    decide (i ∈ [0, 1, 4, 5, 8, 13, 14, 15, 16, 18, 19] ∨ i = x.bits - 1) := by
  cases x <;> decide

/-! ### The mask of satp (R60) -/

/-- Three fields side by side: `h` above an `a`-bit field that holds `x` ones, above a `p`-bit field that holds `y` ones. -/
theorem testBit_threeFields {x y a p : Nat} (h i : Nat) (hx : x ≤ a) (hy : y ≤ p) :
    (h * 2 ^ (p + a) + (2 ^ x - 1) * 2 ^ p + (2 ^ y - 1)).testBit i =
      if i < p then decide (i < y) else if i < p + a then decide (i - p < x) else h.testBit (i - p - a) := by
  have ones_lt : ∀ {n m : Nat}, n ≤ m → 2 ^ n - 1 < 2 ^ m := fun {n m} hnm =>
    lt_of_lt_of_le (Nat.sub_lt (Nat.two_pow_pos n) Nat.one_pos) (Nat.pow_le_pow_right (by decide) hnm)
  have hshape : h * 2 ^ (p + a) + (2 ^ x - 1) * 2 ^ p + (2 ^ y - 1) = 2 ^ p * (2 ^ a * h + (2 ^ x - 1)) + (2 ^ y - 1) := by
    rw [Nat.pow_add]; ring
  rw [hshape, Nat.testBit_two_pow_mul_add _ (ones_lt hy), Nat.testBit_two_pow_sub_one]
  split
  · rfl
  · rw [Nat.testBit_two_pow_mul_add _ (ones_lt hx), Nat.testBit_two_pow_sub_one]
    by_cases hi : i < p + a
    · rw [if_pos (by omega), if_pos hi]
    · rw [if_neg (by omega), if_neg hi]

/-- The implemented bits of satp under RV32: the low PA_BITS - 12 of PPN, the low ASIDLEN of ASID, and MODE (R60). -/
theorem bit_satpMask_rv32 {c : Params} (hx : c.xlen = .rv32) (i : Nat) (hi : i < 32) : bit (satpMask c) i =
    if i < 22 then decide (i < c.paBits - 12) else if i < 31 then decide (i - 22 < c.asidLen) else true := by
  have hf := testBit_threeFields (p := 22) (a := 9) 1 i (Nat.min_le_right c.asidLen 9) (Nat.min_le_right (c.paBits - 12) 22)
  rw [Nat.one_mul] at hf
  simp only [satpMask, hx, bit, BitVec.getLsbD_ofNat]
  rw [hf]
  split_ifs
  · rw [← Bool.decide_and, decide_eq_decide]; omega
  · rw [← Bool.decide_and, decide_eq_decide]; omega
  · have h31 : i = 31 := by omega
    subst h31; rfl

/-- The same under RV64. -/
theorem bit_satpMask_rv64 {c : Params} (hx : c.xlen = .rv64) (i : Nat) (hi : i < 64) : bit (satpMask c) i =
    if i < 44 then decide (i < c.paBits - 12) else if i < 60 then decide (i - 44 < c.asidLen) else true := by
  simp only [satpMask, hx, bit, BitVec.getLsbD_ofNat]
  rw [testBit_threeFields (p := 44) (a := 16) 15 i (Nat.min_le_right c.asidLen 16) (Nat.min_le_right (c.paBits - 12) 44)]
  split_ifs
  · rw [← Bool.decide_and, decide_eq_decide]; omega
  · rw [← Bool.decide_and, decide_eq_decide]; omega
  · have hmode : i = 60 ∨ i = 61 ∨ i = 62 ∨ i = 63 := by omega
    rcases hmode with rfl | rfl | rfl | rfl <;> rfl

/-- The mask of satp leaves the MODE field as written. -/
theorem satpModeOf_and_mask (c : Params) (v : Word) : satpModeOf c.xlen (v &&& satpMask c) = satpModeOf c.xlen v := by
  unfold satpModeOf
  cases hx : c.xlen <;> simp only
  · rw [bit_and, bit_satpMask_rv32 hx 31 (by decide)]
    simp
  · have hmode : (v &&& satpMask c).extractLsb' 60 4 = v.extractLsb' 60 4 := by
      ext i hi
      have hm : (satpMask c).getLsbD (60 + i) = true := (bit_satpMask_rv64 hx (60 + i) (by omega)).trans (by
        rw [if_neg (by omega), if_neg (by omega)])
      simp [BitVec.getElem_extractLsb', hm]
    rw [hmode]

end Sys2Proof.Proofs.CsrMasks

/-! PROOF of O52. What mstatus may hold is cut in two: the fields that the configuration hardwires, and MPP. A change confined to
writable bits keeps the first; the trap entries, the returns and the CSR writes are such changes, and each leaves an implemented mode in
MPP. -/

namespace Sys2Proof.Proofs.ModeInvariant
open Sys2Proof Sys2Proof.Machine Sys2Proof.Proofs.CsrMasks

/-! ### Changes confined to a mask -/

/-- `m'` differs from `m` in bits of `mask` only. -/
def ChangesWithin (mask m m' : Word) : Prop := ∀ i, i < 64 → bit mask i = false → bit m' i = bit m i

theorem ChangesWithin.refl (mask m : Word) : ChangesWithin mask m m := fun _ _ _ => rfl

theorem ChangesWithin.withStatusBit {mask m m' : Word} (h : ChangesWithin mask m m') {f : StatusField} (hf : bit mask f.pos = true)
    (b : Bool) : ChangesWithin mask m (withStatusBit m' f b) := by
  intro i hi hm
  have hne : i ≠ f.pos := by rintro rfl; simp [hf] at hm
  rw [bit_withStatusBit, if_neg hne]
  exact h i hi hm

theorem ChangesWithin.withMpp {mask m m' : Word} (h : ChangesWithin mask m m') (h11 : bit mask 11 = true) (h12 : bit mask 12 = true)
    (p : Priv) : ChangesWithin mask m (withMpp m' p) := by
  intro i hi hm
  have hne11 : i ≠ 11 := by rintro rfl; simp [h11] at hm
  have hne12 : i ≠ 12 := by rintro rfl; simp [h12] at hm
  rw [bit_withMpp, if_neg hne12, if_neg hne11]
  exact h i hi hm

theorem changesWithin_mergeBits (mask m v : Word) : ChangesWithin mask m (mergeBits mask m v) := by
  intro i _ hm
  simp [bit_mergeBits, hm]

theorem ChangesWithin.mono {mask mask' m m' : Word} (h : ChangesWithin mask m m')
    (hsub : ∀ i, i < 64 → bit mask' i = false → bit mask i = false) : ChangesWithin mask' m m' :=
  fun i hi hm => h i hi (hsub i hi hm)

/-! ### What mstatus may hold -/

/-- The fields of mstatus that the modes `M` hardwire read as they are hardwired (R33, R37, R38). -/
def Hardwired (M : Modes) (m : Word) : Prop :=
  ∀ i, i < 64 → bit (mstatusMask M) i = false → bit m i = (decide (M = .m) && (decide (i = 11) || decide (i = 12)))

/-- MPP holds the encoding of a mode of `M` (R31). -/
def MppLegal (M : Modes) (m : Word) : Prop := M.has (mppOf m) = true ∧ ¬(bit m 12 = true ∧ bit m 11 = false)

theorem modeInv_iff (s : State) :
    modeInv s ↔ s.cfg.modes.has s.priv = true ∧ MppLegal s.cfg.modes s.mstatus ∧ Hardwired s.cfg.modes s.mstatus := by
  unfold modeInv MppLegal Hardwired; tauto

theorem Hardwired.change {M : Modes} {m m' : Word} (h : Hardwired M m) (hc : ChangesWithin (mstatusMask M) m m') : Hardwired M m' :=
  fun i hi hm => (hc i hi hm).trans (h i hi hm)

/-- MPP is legal wherever its two bits are what they were. -/
theorem MppLegal.of_bits {M : Modes} {m m' : Word} (h : MppLegal M m) (h11 : bit m' 11 = bit m 11) (h12 : bit m' 12 = bit m 12) :
    MppLegal M m' := by
  unfold MppLegal mppOf at *; rwa [h11, h12]

theorem MppLegal.withStatusBit {M : Modes} {m : Word} (h : MppLegal M m) (f : StatusField) (b : Bool) :
    MppLegal M (withStatusBit m f b) := by
  obtain ⟨h11, h12⟩ := f.pos_ne_mpp
  refine h.of_bits ?_ ?_
  · rw [bit_withStatusBit, if_neg h11.symm]
  · rw [bit_withStatusBit, if_neg h12.symm]

theorem MppLegal.withMpp {M : Modes} {p : Priv} (hp : M.has p = true) (m : Word) : MppLegal M (withMpp m p) := by
  refine ⟨by rwa [mppOf_withMpp], ?_⟩
  cases p <;> simp [bit_withMpp]

/-! ### The fields a mode has -/

theorem mask_has_machine (M : Modes) :
    bit (mstatusMask M) (StatusField.pos .MIE) = true ∧ bit (mstatusMask M) (StatusField.pos .MPIE) = true := by
  cases M <;> decide

theorem mask_has_supervisor :
    bit (mstatusMask .msu) (StatusField.pos .SIE) = true ∧ bit (mstatusMask .msu) (StatusField.pos .SPIE) = true ∧
    bit (mstatusMask .msu) (StatusField.pos .SPP) = true := by decide

theorem mask_has_mpp {M : Modes} (h : M ≠ .m) : bit (mstatusMask M) 11 = true ∧ bit (mstatusMask M) 12 = true := by
  cases M
  · exact absurd rfl h
  all_goals decide

theorem has_M (M : Modes) : M.has .M = true := by cases M <;> rfl
theorem has_U {M : Modes} (h : M ≠ .m) : M.has .U = true := by cases M <;> simp_all [Modes.has]

/-! ### Traps and returns -/

theorem modeInv_enterM {s : State} (h : modeInv s) (c : Cause) (tval epc : Word) : modeInv (enterM c tval epc s) := by
  obtain ⟨hp, hmpp, hw⟩ := (modeInv_iff s).1 h
  obtain ⟨hMIE, hMPIE⟩ := mask_has_machine s.cfg.modes
  have hrefl := ChangesWithin.refl (mstatusMask s.cfg.modes) s.mstatus
  have hc := (hrefl.withStatusBit hMPIE (statusBit s.mstatus .MIE)).withStatusBit hMIE false
  refine (modeInv_iff _).2 ⟨has_M _, ?_⟩
  by_cases hm : s.cfg.modes = .m
  · simp only [enterM, if_pos hm]
    exact ⟨(hmpp.withStatusBit _ _).withStatusBit _ _, hw.change hc⟩
  · obtain ⟨h11, h12⟩ := mask_has_mpp hm
    simp only [enterM, if_neg hm]
    exact ⟨.withMpp hp _, hw.change (hc.withMpp h11 h12 _)⟩

theorem modeInv_enterS {s : State} (h : modeInv s) (hM : s.cfg.modes = .msu) (c : Cause) (tval epc : Word) :
    modeInv (enterS c tval epc s) := by
  obtain ⟨-, hmpp, hw⟩ := (modeInv_iff s).1 h
  obtain ⟨hSIE, hSPIE, hSPP⟩ := mask_has_supervisor
  rw [← hM] at hSIE hSPIE hSPP
  refine (modeInv_iff _).2 ⟨by simp [enterS, hM, Modes.has], ?_, hw.change ?_⟩
  · exact ((hmpp.withStatusBit _ _).withStatusBit _ _).withStatusBit _ _
  · exact (((ChangesWithin.refl _ _).withStatusBit hSPIE _).withStatusBit hSIE _).withStatusBit hSPP _

theorem modeInv_takeTrap {s : State} (h : modeInv s) (c : Cause) (tval epc : Word) : modeInv (takeTrap c tval epc s) := by
  unfold takeTrap
  split
  · next hd =>
    have hM : s.cfg.modes = .msu := by
      simp only [delegated, Bool.and_eq_true, decide_eq_true_eq] at hd
      exact hd.1.1
    exact modeInv_enterS h hM c tval epc
  · exact modeInv_enterM h c tval epc

theorem modeInv_returnM {s : State} (h : modeInv s) : modeInv (returnM s) := by
  obtain ⟨-, hmpp, hw⟩ := (modeInv_iff s).1 h
  obtain ⟨hMIE, hMPIE⟩ := mask_has_machine s.cfg.modes
  have hrefl := ChangesWithin.refl (mstatusMask s.cfg.modes) s.mstatus
  have hc := (hrefl.withStatusBit hMIE (statusBit s.mstatus .MPIE)).withStatusBit hMPIE true
  rw [modeInv_iff]
  by_cases hm : s.cfg.modes = .m
  · simp only [returnM, if_pos hm]
    exact ⟨has_M _, (hmpp.withStatusBit _ _).withStatusBit _ _, hw.change hc⟩
  · obtain ⟨h11, h12⟩ := mask_has_mpp hm
    simp only [returnM, if_neg hm]
    exact ⟨hmpp.1, .withMpp (has_U hm) _, hw.change (hc.withMpp h11 h12 _)⟩

theorem modeInv_returnS {s : State} (h : modeInv s) (hM : s.cfg.modes = .msu) : modeInv (returnS s) := by
  obtain ⟨-, hmpp, hw⟩ := (modeInv_iff s).1 h
  obtain ⟨hSIE, hSPIE, hSPP⟩ := mask_has_supervisor
  rw [← hM] at hSIE hSPIE hSPP
  refine (modeInv_iff _).2 ⟨?_, ?_, hw.change ?_⟩
  · simp only [returnS, sppOf, hM]
    split <;> rfl
  · exact ((hmpp.withStatusBit _ _).withStatusBit _ _).withStatusBit _ _
  · exact (((ChangesWithin.refl _ _).withStatusBit hSIE _).withStatusBit hSPIE _).withStatusBit hSPP _

/-! ### CSR writes -/

/-- A mode that a written encoding names is an implemented one (R31). -/
theorem has_of_mppWritten {c : Params} {v : Word} {p : Priv} (h : mppWritten c v = some p) : c.modes.has p = true := by
  unfold mppWritten at h
  split at h
  · split at h
    · next hU => cases h; exact hU
    · cases h
  · split at h
    · next hS => cases h; exact hS
    · cases h
  · cases h; exact has_M _
  · cases h

theorem has_drawnMpp (s : State) : s.cfg.modes.has s.drawnMpp = true := by
  unfold State.drawnMpp
  split
  · assumption
  · exact has_M _

/-- Whatever is written to MPP, an implemented mode stands there afterwards (R31). -/
theorem has_mppAfter (s : State) (v : Word) : s.cfg.modes.has ((mppWritten s.cfg v).getD s.drawnMpp) = true := by
  cases hv : mppWritten s.cfg v with
  | none => exact has_drawnMpp s
  | some p => exact has_of_mppWritten hv

/-- What a write of mstatus leaves: with one mode the masked merge, otherwise the same with a mode in MPP. -/
theorem mstatusWritten_eq (s : State) (v : Word) : mstatusWritten s v =
    if s.cfg.modes = .m then mergeBits (mstatusMask s.cfg.modes) s.mstatus v
    else withMpp (mergeBits (mstatusMask s.cfg.modes) s.mstatus v) ((mppWritten s.cfg v).getD s.drawnMpp) := by
  unfold mstatusWritten
  cases s.cfg.modes <;> rfl

theorem modeInv_write_mstatus {s : State} (h : modeInv s) (v : Word) : modeInv { s with mstatus := mstatusWritten s v } := by
  obtain ⟨hp, hmpp, hw⟩ := (modeInv_iff s).1 h
  have hc := changesWithin_mergeBits (mstatusMask s.cfg.modes) s.mstatus v
  refine (modeInv_iff _).2 ⟨hp, ?_⟩
  dsimp only
  rw [mstatusWritten_eq]
  by_cases hm : s.cfg.modes = .m
  · rw [if_pos hm]
    refine ⟨hmpp.of_bits ?_ ?_, hw.change hc⟩
    all_goals exact hc _ (by decide) (by rw [hm]; decide)
  · obtain ⟨h11, h12⟩ := mask_has_mpp hm
    rw [if_neg hm]
    exact ⟨.withMpp (has_mppAfter s v) _, hw.change (hc.withMpp h11 h12 _)⟩

/-- sstatus reaches only fields of mstatus that S mode brings, MPP not among them (R39). -/
theorem modeInv_write_sstatus {s : State} (h : modeInv s) (hM : s.cfg.modes = .msu) (v : Word) :
    modeInv { s with mstatus := mergeBits sstatusWriteMask s.mstatus v } := by
  obtain ⟨hp, hmpp, hw⟩ := (modeInv_iff s).1 h
  have hc := changesWithin_mergeBits sstatusWriteMask s.mstatus v
  refine (modeInv_iff _).2 ⟨hp, hmpp.of_bits ?_ ?_, hw.change (hc.mono ?_)⟩
  · exact hc 11 (by decide) (by decide)
  · exact hc 12 (by decide) (by decide)
  · rw [hM]; decide

theorem modeInv_csrWrite {s t : State} {c : Csr} {v : Word} (h : modeInv s) (he : csrExists s.cfg c = true)
    (hw : csrWrite s c v = .ok t) : modeInv t := by
  cases c <;> simp only [csrWrite] at hw
  case pmpcfg k => rw [RegisterInvariant.writePmpBytes_only hw]; exact h
  case pmpaddr i => cases hw; unfold writePmpaddr; split <;> exact h
  all_goals cases hw
  case mstatus => exact modeInv_write_mstatus h v
  case sstatus => exact modeInv_write_sstatus h (by simpa [csrExists] using he) v
  all_goals exact h

/-- The primitive updates keep the mode and mstatus legal. -/
theorem modeInv_kept : Kept modeInv where
  draw s h := by simpa [modeInv] using h
  env _ h := h
  access s t h f := by rw [f.core]; exact h
  setReg s r v h := by simpa [modeInv] using h
  advance _ h := h
  jump _ _ h _ _ := h
  trap _ c v h _ := modeInv_takeTrap h c v _
  mret _ h _ := modeInv_returnM h
  sret _ h hM _ := modeInv_returnS h hM
  csr s a c _ _ h _ ha _ hw := by
    obtain ⟨he, -, -, -⟩ := (csrAllowed_iff s a c true).1 ha
    exact modeInv_csrWrite h he hw
  wait _ _ _ h := h

/-- Settles O52: the primitive updates a step is made of keep the invariant. -/
theorem modeInvariantStep : Obligations.ModeInvariantStep := by
  unfold Obligations.ModeInvariantStep
  exact fun _ _ h hs => modeInv_kept.step h hs

end Sys2Proof.Proofs.ModeInvariant

/-! PROOF of O54. Each CSR write computes a value that its field rules allow, and no other update reaches these registers. -/

namespace Sys2Proof.Proofs.CsrInvariant
open Sys2Proof Sys2Proof.Machine Sys2Proof.Proofs.CsrMasks

/-! ### Values within a mask -/

theorem and_mask_within (v mask : Word) : v &&& mask &&& ~~~mask = 0#64 := by
  rw [BitVec.and_assoc, BitVec.and_not_self]; exact BitVec.and_zero

/-- A value lies within a mask where it has no bit that the mask has not. -/
theorem within_iff (v mask : Word) : v &&& ~~~mask = 0#64 ↔ ∀ i, i < 64 → bit mask i = false → bit v i = false := by
  constructor
  · intro h i hi hm
    have hb : bit (v &&& ~~~mask) i = false := by rw [h]; simp [bit]
    simpa [bit_and, bit_not _ _ hi, hm] using hb
  · intro h
    apply word_ext
    intro i hi
    rw [bit_and, bit_not _ _ hi]
    have hz : bit 0#64 i = false := by simp [bit]
    cases hm : bit mask i
    · simp [h i hi hm, hz]
    · simp [hz]

theorem mergeBits_within {mask limit old v : Word} (ho : old &&& ~~~limit = 0#64)
    (hsub : ∀ i, i < 64 → bit limit i = false → bit mask i = false) : mergeBits mask old v &&& ~~~limit = 0#64 := by
  rw [within_iff] at *
  intro i hi hl
  rw [bit_mergeBits, hsub i hi hl]
  simpa using ho i hi hl

/-- What the supervisor bits cut out of a mask lies in every limit that has the supervisor bits (R52, R53). -/
theorem supervisorBits_within {limit : Word} (hl : ∀ i, i < 64 → i ∈ [1, 5, 9] → bit limit i = true) (a : Word) :
    ∀ i, i < 64 → bit limit i = false → bit (a &&& supervisorBits) i = false := by
  intro i hi h
  have hn : i ∉ [1, 5, 9] := fun hm => by rw [hl i hi hm] at h; cases h
  rw [bit_and, bit_supervisorBits i hi, decide_eq_false hn, Bool.and_false]

/-! ### The vector mode -/

/-- Where a written MODE is no supported one, the old one stays (R40). -/
theorem tvecWritten_mode_kept (old v : Word) : (v &&& ~~~3#64 ||| old &&& 3#64) &&& 3#64 = old &&& 3#64 := by
  apply word_ext
  intro i hi
  simp only [bit_and, bit_or, bit_not _ _ hi]
  cases bit (3#64) i <;> simp

theorem tvecLegal_tvecWritten {c : Params} {old : Word} (ho : tvecLegal c old) (v : Word) : tvecLegal c (tvecWritten c old v) := by
  unfold tvecWritten
  split
  · assumption
  · unfold tvecLegal
    rwa [tvecWritten_mode_kept]

/-! ### The address-translation mode -/

/-- The MODE field of satp is one that the configuration supports (R62). -/
def SatpLegal (c : Params) (v : Word) : Prop := ∃ m, satpModeOf c.xlen v = some m ∧ m ∈ c.satpModes

theorem satpLegal_satpWritten {c : Params} {old : Word} (ho : SatpLegal c old) (v : Word) : SatpLegal c (satpWritten c old v) := by
  unfold satpWritten
  split
  · next m hm =>
    split
    · next hs => exact ⟨m, by rw [satpModeOf_and_mask, hm], hs⟩
    · exact ho
  · exact ho

/-! ### PMP configuration bytes -/

/-- The stored bits of a written byte are legal unless it has R = 0 and W = 1 (R57). -/
theorem pmpByteLegal_and {b : Byte} (h : ¬(pmpR b = false ∧ pmpW b = true)) : pmpByteLegal (b &&& 0x9F#8) := by
  refine ⟨?_, ?_⟩
  · rw [BitVec.and_assoc]; exact BitVec.and_zero
  · simpa [pmpR, pmpW] using h

theorem csrInv_writePmpByte {s t : State} {i : Nat} {b : Byte} (h : csrInv s) (hw : writePmpByte s i b = .ok t) : csrInv t := by
  rcases writePmpByte_ok hw with rfl | ⟨-, -, hb, rfl⟩
  · exact h
  · obtain ⟨hmedeleg, hmideleg, hmie, hmip, hmtvec, hstvec, hsatp, hpmp⟩ := h
    refine ⟨hmedeleg, hmideleg, hmie, hmip, hmtvec, hstvec, hsatp, fun j => ?_⟩
    simp only [Fin.getElem_fin, Vector.getElem_setIfInBounds]
    split
    · exact pmpByteLegal_and hb
    · exact hpmp j

/-! ### Every update -/

theorem csrInv_csrWrite {s t : State} {c : Csr} {v : Word} (h : csrInv s) (he : csrExists s.cfg c = true)
    (hw : csrWrite s c v = .ok t) : csrInv t := by
  have hlegal := h
  obtain ⟨hmedeleg, hmideleg, hmie, hmip, hmtvec, hstvec, hsatp, hpmp⟩ := hlegal
  cases c <;> simp only [csrWrite] at hw
  case pmpcfg k => exact writePmpBytes_induct (fun _ _ _ _ hu hb => csrInv_writePmpByte hu hb) h hw
  case pmpaddr i => cases hw; unfold writePmpaddr; split <;> exact h
  all_goals cases hw
  case medeleg => exact ⟨and_mask_within _ _, hmideleg, hmie, hmip, hmtvec, hstvec, hsatp, hpmp⟩
  case mideleg => exact ⟨hmedeleg, and_mask_within _ _, hmie, hmip, hmtvec, hstvec, hsatp, hpmp⟩
  case mie => exact ⟨hmedeleg, hmideleg, mergeBits_within hmie fun _ _ => id, hmip, hmtvec, hstvec, hsatp, hpmp⟩
  case mip => exact ⟨hmedeleg, hmideleg, hmie, mergeBits_within hmip fun _ _ => id, hmtvec, hstvec, hsatp, hpmp⟩
  case sie =>
    have hM : s.cfg.modes = .msu := by simpa [csrExists] using he
    have hmie' := mergeBits_within hmie (v := v) (by rw [hM]; exact supervisorBits_within (by decide) s.mideleg)
    exact ⟨hmedeleg, hmideleg, hmie', hmip, hmtvec, hstvec, hsatp, hpmp⟩
  case sip =>
    have hM : s.cfg.modes = .msu := by simpa [csrExists] using he
    have hmip' := mergeBits_within hmip (v := v)
      (by rw [hM]; exact supervisorBits_within (by decide) (s.mideleg &&& s.cfg.sipWritable))
    exact ⟨hmedeleg, hmideleg, hmie, hmip', hmtvec, hstvec, hsatp, hpmp⟩
  case mtvec => exact ⟨hmedeleg, hmideleg, hmie, hmip, tvecLegal_tvecWritten hmtvec v, hstvec, hsatp, hpmp⟩
  case stvec => exact ⟨hmedeleg, hmideleg, hmie, hmip, hmtvec, tvecLegal_tvecWritten hstvec v, hsatp, hpmp⟩
  case satp => exact ⟨hmedeleg, hmideleg, hmie, hmip, hmtvec, hstvec, satpLegal_satpWritten hsatp v, hpmp⟩
  all_goals exact h

/-- The primitive updates keep the CSRs legal: only a CSR write reaches them. -/
theorem csrInv_kept : Kept csrInv where
  draw s h := by simpa [csrInv] using h
  env _ h := h
  access s t h f := by rw [f.core]; exact h
  setReg s r v h := by simpa [csrInv] using h
  advance _ h := h
  jump _ _ h _ _ := h
  trap s c v h _ := by simpa [csrInv] using h
  mret _ h _ := h
  sret _ h _ _ := h
  csr s a c _ _ h _ ha _ hw := by
    obtain ⟨he, -, -, -⟩ := (csrAllowed_iff s a c true).1 ha
    exact csrInv_csrWrite h he hw
  wait _ _ _ h := h

/-- Settles O54: the primitive updates a step is made of keep the invariant. -/
theorem csrInvariantStep : Obligations.CsrInvariantStep := by
  unfold Obligations.CsrInvariantStep
  exact fun _ _ h hs => csrInv_kept.step h hs

end Sys2Proof.Proofs.CsrInvariant

/-! The PMP entries as reads and writes of their registers see them (R56 to R59). -/

namespace Sys2Proof.Proofs.PmpEntries
open Sys2Proof Sys2Proof.Machine

/-! ### Reading an entry -/

/-- An entry depends on its own configuration byte and the number of entries only. -/
theorem pmpCfg_congr {s t : State} {e : Nat} (hc : t.cfg = s.cfg) (hb : t.pmpcfg[e]? = s.pmpcfg[e]?) : t.pmpCfg e = s.pmpCfg e := by
  unfold State.pmpCfg; rw [hc, hb]

theorem pmpAddr_congr {s t : State} {e : Nat} (hc : t.cfg = s.cfg) (ha : t.pmpaddr[e]? = s.pmpaddr[e]?) : t.pmpAddr e = s.pmpAddr e := by
  unfold State.pmpAddr; rw [hc, ha]

/-- The test of the field A for top-of-range, on the field as a number (R57). -/
theorem pmpMatch_tor_iff (b : Byte) : pmpMatch b = .tor ↔ b.extractLsb' 3 2 = 1#2 := by
  revert b; decide

/-! ### Writing a configuration byte -/

/-- The write of one byte leaves every other entry's. -/
theorem writePmpByte_pmpcfg_ne {s t : State} {i e : Nat} {b : Byte} (h : writePmpByte s i b = .ok t) (hne : i ≠ e) :
    t.pmpcfg[e]? = s.pmpcfg[e]? := by
  rcases writePmpByte_ok h with rfl | ⟨-, -, -, rfl⟩
  · rfl
  · exact Vector.getElem?_setIfInBounds_ne hne

theorem writePmpByte_cfg {s t : State} {i : Nat} {b : Byte} (h : writePmpByte s i b = .ok t) : t.cfg = s.cfg := by
  rcases writePmpByte_ok h with rfl | ⟨-, -, -, rfl⟩ <;> rfl

theorem writePmpByte_pmpCfg_ne {s t : State} {i e : Nat} {b : Byte} (h : writePmpByte s i b = .ok t) (hne : i ≠ e) :
    t.pmpCfg e = s.pmpCfg e :=
  pmpCfg_congr (writePmpByte_cfg h) (writePmpByte_pmpcfg_ne h hne)

/-- The byte an entry holds after it is written: the written one without its reserved bits, unless the entry is locked or absent. -/
theorem writePmpByte_pmpCfg_same {s t : State} {i : Nat} {b : Byte} (hcount : s.cfg.pmpCount ≤ 16) (h : writePmpByte s i b = .ok t) :
    t.pmpCfg i = if i < s.cfg.pmpCount ∧ pmpL (s.pmpCfg i) = false then b &&& 0x9F#8 else s.pmpCfg i := by
  unfold writePmpByte at h
  split at h
  · next hw =>
    split at h
    · cases h
    · cases h
      have hi : i < 16 := by omega
      rw [if_pos hw]
      simp [State.pmpCfg, hw.1, hi]
  · next hw => cases h; rw [if_neg hw]

/-- A locked entry's byte stays, whichever entry is written (R59). -/
theorem writePmpByte_locked {s t : State} {i e : Nat} {b : Byte} (hl : pmpL (s.pmpCfg e) = true) (h : writePmpByte s i b = .ok t) :
    t.pmpCfg e = s.pmpCfg e := by
  rcases eq_or_ne i e with rfl | hne
  · rcases writePmpByte_ok h with rfl | ⟨-, hu, -, -⟩
    · rfl
    · rw [hl] at hu; cases hu
  · exact writePmpByte_pmpCfg_ne h hne

/-! ### Writing a whole configuration register -/

/-- The entries that a write does not name keep their bytes. -/
theorem writePmpBytes_pmpcfg_of_not_mem {l : List Nat} {s t : State} {v : Word} {e : Nat} (h : writePmpBytes s v l = .ok t) (he : e ∉ l) :
    t.pmpcfg[e]? = s.pmpcfg[e]? := by
  induction l generalizing s v with
  | nil => cases h; rfl
  | cons i rest ih =>
    obtain ⟨hne, hrest⟩ := List.ne_and_not_mem_of_not_mem_cons he
    unfold writePmpBytes at h
    split at h
    · next u hu => rw [ih h hrest, writePmpByte_pmpcfg_ne hu hne.symm]
    · cases h

/-- Byte `n + 1` of a value is byte `n` of the value shifted down by one byte. -/
theorem extract_shift_byte (v : Word) (n : Nat) : (v >>> 8).extractLsb' (8 * n) 8 = v.extractLsb' (8 * (n + 1)) 8 := by
  ext i hi
  simp only [BitVec.getElem_extractLsb', BitVec.getLsbD_ushiftRight]
  congr 1; omega

/-- The `n`-th entry of a register holds the `n`-th byte written, without its reserved bits, unless it is locked or absent. -/
theorem writePmpBytes_pmpCfg {l : List Nat} {s t : State} {v : Word} {n e : Nat} (hcount : s.cfg.pmpCount ≤ 16) (hl : l.Nodup)
    (hn : l[n]? = some e) (h : writePmpBytes s v l = .ok t) :
    t.pmpCfg e = if e < s.cfg.pmpCount ∧ pmpL (s.pmpCfg e) = false then v.extractLsb' (8 * n) 8 &&& 0x9F#8 else s.pmpCfg e := by
  induction l generalizing s v n with
  | nil => cases hn
  | cons i rest ih =>
    obtain ⟨hi, hrest⟩ := List.nodup_cons.1 hl
    have hframe := (writePmpBytes_frame h).cfg
    unfold writePmpBytes at h
    split at h
    · next u hu =>
      have hcfg := writePmpByte_cfg hu
      cases n with
      | zero =>
        obtain rfl : i = e := by simpa using hn
        rw [pmpCfg_congr (hframe.trans hcfg.symm) (writePmpBytes_pmpcfg_of_not_mem h hi)]
        exact writePmpByte_pmpCfg_same hcount hu
      | succ n =>
        have hn' : rest[n]? = some e := by simpa using hn
        have hne : i ≠ e := by rintro rfl; exact hi (List.mem_of_getElem? hn')
        rw [ih (by rwa [hcfg]) hrest hn' h, hcfg, writePmpByte_pmpCfg_ne hu hne, extract_shift_byte]
    · cases h

/-- A byte with R = 0 and W = 1 for an unlocked, implemented entry refuses the write of the register (log 14). -/
theorem writePmpBytes_refused {l : List Nat} {s : State} {v : Word} {n e : Nat} (hl : l.Nodup) (hn : l[n]? = some e)
    (he : e < s.cfg.pmpCount) (hu : pmpL (s.pmpCfg e) = false) (hR : pmpR (v.extractLsb' (8 * n) 8) = false)
    (hW : pmpW (v.extractLsb' (8 * n) 8) = true) : ∃ q, writePmpBytes s v l = .error (.reservedPmpPermission q) := by
  induction l generalizing s v n with
  | nil => cases hn
  | cons i rest ih =>
    obtain ⟨hi, hrest⟩ := List.nodup_cons.1 hl
    unfold writePmpBytes
    cases n with
    | zero =>
      obtain rfl : i = e := by simpa using hn
      have hw : writePmpByte s i (v.extractLsb' 0 8) = .error (.reservedPmpPermission i) := by
        unfold writePmpByte
        rw [if_pos ⟨he, hu⟩, if_pos ⟨hR, hW⟩]
      exact ⟨i, by rw [hw]⟩
    | succ n =>
      have hn' : rest[n]? = some e := by simpa using hn
      have hne : i ≠ e := by rintro rfl; exact hi (List.mem_of_getElem? hn')
      split
      · next u hw =>
        refine ih (n := n) hrest hn' (by rwa [writePmpByte_cfg hw]) (by rwa [writePmpByte_pmpCfg_ne hw hne]) ?_ ?_
        · rwa [extract_shift_byte]
        · rwa [extract_shift_byte]
      · next r hw =>
        unfold writePmpByte at hw
        split at hw
        · split at hw
          · cases hw; exact ⟨i, rfl⟩
          · cases hw
        · cases hw

/-- A locked entry's byte stays through the write of any register (R59). -/
theorem writePmpBytes_locked {l : List Nat} {s t : State} {v : Word} {e : Nat} (hl : pmpL (s.pmpCfg e) = true)
    (h : writePmpBytes s v l = .ok t) : t.pmpCfg e = s.pmpCfg e := by
  refine writePmpBytes_induct (P := fun u => u.pmpCfg e = s.pmpCfg e) ?_ rfl h
  intro u i b w hu hw
  rw [writePmpByte_locked (by rwa [hu]) hw, hu]

/-! ### Writing an address register -/

theorem writePmpaddr_pmpaddr_ne {s : State} {i e : Nat} (v : Word) (hne : i ≠ e) : (writePmpaddr s i v).pmpaddr[e]? = s.pmpaddr[e]? := by
  unfold writePmpaddr
  split
  · exact Vector.getElem?_setIfInBounds_ne hne
  · rfl

theorem writePmpaddr_cfg (s : State) (i : Nat) (v : Word) : (writePmpaddr s i v).cfg = s.cfg := by
  unfold writePmpaddr; split <;> rfl

theorem writePmpaddr_pmpcfg (s : State) (i : Nat) (v : Word) : (writePmpaddr s i v).pmpcfg = s.pmpcfg := by
  unfold writePmpaddr; split <;> rfl

theorem writePmpaddr_pmpCfg (s : State) (i e : Nat) (v : Word) : (writePmpaddr s i v).pmpCfg e = s.pmpCfg e :=
  pmpCfg_congr (writePmpaddr_cfg s i v) (by rw [writePmpaddr_pmpcfg])

theorem writePmpaddr_pmpAddr_same (s : State) (i : Nat) (v : Word) (hi : i < 16) : (writePmpaddr s i v).pmpAddr i =
    if i < s.cfg.pmpCount ∧ pmpaddrLocked s i = false then v &&& pmpaddrMask s.cfg else s.pmpAddr i := by
  unfold writePmpaddr
  split
  · next h => simp [State.pmpAddr, h.1, hi]
  · rfl

/-- A locked address register stays, whichever one is written (R59). -/
theorem writePmpaddr_locked {s : State} {e : Nat} (hl : pmpaddrLocked s e = true) (i : Nat) (v : Word) :
    (writePmpaddr s i v).pmpAddr e = s.pmpAddr e := by
  rcases eq_or_ne i e with rfl | hne
  · unfold writePmpaddr
    rw [if_neg (by simp [hl])]
  · exact pmpAddr_congr (writePmpaddr_cfg s i v) (writePmpaddr_pmpaddr_ne v hne)

/-- What locks an address register: its own entry, or the next one where that is top-of-range (R59). -/
theorem pmpaddrLocked_iff (s : State) (i : Nat) : pmpaddrLocked s i = true ↔
    pmpL (s.pmpCfg i) = true ∨ (pmpL (s.pmpCfg (i + 1)) = true ∧ (s.pmpCfg (i + 1)).extractLsb' 3 2 = 1#2) := by
  simp [pmpaddrLocked, pmpMatch_tor_iff]

end Sys2Proof.Proofs.PmpEntries

/-! PROOF of O57. A locked entry is held by every CSR write, and nothing but a CSR write reaches a PMP register. -/

namespace Sys2Proof.Proofs.PmpLock
open Sys2Proof Sys2Proof.Machine Sys2Proof.Proofs.PmpEntries

/-- `t` has the parameters of `s`, and what the lock of entry `i` holds in `s`: its byte, its address register, and, where it is
top-of-range, the address register below (R59). -/
structure HoldsLocked (s : State) (i : Nat) (t : State) : Prop where
  cfg : t.cfg = s.cfg
  byte : t.pmpCfg i = s.pmpCfg i
  addr : t.pmpAddr i = s.pmpAddr i
  below : (s.pmpCfg i).extractLsb' 3 2 = 1#2 → 0 < i → t.pmpAddr (i - 1) = s.pmpAddr (i - 1)

theorem HoldsLocked.refl (s : State) (i : Nat) : HoldsLocked s i s := ⟨rfl, rfl, rfl, fun _ _ => rfl⟩

/-- A step that leaves the PMP registers leaves what a lock holds. -/
theorem HoldsLocked.congr {s t u : State} {i : Nat} (h : HoldsLocked s i t) (hc : u.cfg = t.cfg) (hb : u.pmpcfg = t.pmpcfg)
    (ha : u.pmpaddr = t.pmpaddr) : HoldsLocked s i u where
  cfg := hc.trans h.cfg
  byte := (pmpCfg_congr hc (by rw [hb])).trans h.byte
  addr := (pmpAddr_congr hc (by rw [ha])).trans h.addr
  below hm hi := (pmpAddr_congr hc (by rw [ha])).trans (h.below hm hi)

section
variable {s t : State} {i : Nat} (hl : pmpL (s.pmpCfg i) = true)
include hl

theorem HoldsLocked.writePmpBytes {u : State} {v : Word} {l : List Nat} (h : HoldsLocked s i t) (hw : writePmpBytes t v l = .ok u) :
    HoldsLocked s i u := by
  have haddr : u.pmpaddr = t.pmpaddr := by rw [RegisterInvariant.writePmpBytes_only hw]
  have hcfg := (writePmpBytes_frame hw).cfg
  exact {
    cfg := hcfg.trans h.cfg
    byte := (writePmpBytes_locked (by rw [h.byte]; exact hl) hw).trans h.byte
    addr := (pmpAddr_congr hcfg (by rw [haddr])).trans h.addr
    below := fun hm hi => (pmpAddr_congr hcfg (by rw [haddr])).trans (h.below hm hi) }

theorem HoldsLocked.writePmpaddr (h : HoldsLocked s i t) (j : Nat) (v : Word) : HoldsLocked s i (writePmpaddr t j v) where
  cfg := (writePmpaddr_cfg t j v).trans h.cfg
  byte := (writePmpaddr_pmpCfg t j i v).trans h.byte
  addr := by
    have hlock : pmpaddrLocked t i = true := (pmpaddrLocked_iff t i).2 (.inl (by rwa [h.byte]))
    exact (writePmpaddr_locked hlock j v).trans h.addr
  below hm hi := by
    have hlock : pmpaddrLocked t (i - 1) = true := by
      rw [pmpaddrLocked_iff, Nat.sub_add_cancel hi, h.byte]
      exact .inr ⟨hl, hm⟩
    exact (writePmpaddr_locked hlock j v).trans (h.below hm hi)

theorem HoldsLocked.csrWrite {u : State} {c : Csr} {v : Word} (h : HoldsLocked s i t) (hw : csrWrite t c v = .ok u) :
    HoldsLocked s i u := by
  cases c <;> simp only [Machine.csrWrite] at hw
  case pmpcfg k => exact h.writePmpBytes hl hw
  case pmpaddr j => cases hw; exact h.writePmpaddr hl j v
  all_goals cases hw; exact h.congr rfl rfl rfl

/-- The primitive updates hold what a locked entry locks. -/
theorem holdsLocked_kept : Kept (HoldsLocked s i) where
  draw _ h := h.congr (by simp) (by simp) (by simp)
  env _ h := h.congr rfl rfl rfl
  access _ _ h f := by
    obtain ⟨hc, -, -, -, -, -, -, -, -, -, -, -, -, -, -, -, -, -, hb, ha⟩ := f.sameCsrs
    exact h.congr hc hb ha
  setReg _ _ _ h := h.congr (by simp) (by simp) (by simp)
  advance _ h := h.congr rfl rfl rfl
  jump _ _ h _ _ := h.congr rfl rfl rfl
  trap _ _ _ h _ := h.congr (by simp) (by simp) (by simp)
  mret _ h _ := h.congr rfl rfl rfl
  sret _ h _ _ := h.congr rfl rfl rfl
  csr _ _ _ _ _ h _ _ _ hw := h.csrWrite hl hw
  wait _ _ _ h := h.congr rfl rfl rfl

end

/-- Settles O57: what a lock holds at the start of a step, the primitive updates of the step hold. -/
theorem pmpLockHolds : Obligations.PmpLockHolds := by
  unfold Obligations.PmpLockHolds
  intro s t i _ _ hl hs
  have h := (holdsLocked_kept hl).step (HoldsLocked.refl s i) hs
  exact ⟨h.byte, h.addr, h.below⟩

end Sys2Proof.Proofs.PmpLock

/-! PROOF of O32. The PMP registers, entry by entry. -/

namespace Sys2Proof.Proofs.PmpRegisters
open Sys2Proof Sys2Proof.Machine Sys2Proof.Proofs.PmpEntries

theorem extract_bytesToWord {bs : List Byte} {n : Nat} {b : Byte} (h : bs[n]? = some b) (hn : n < 8) :
    (bytesToWord bs).extractLsb' (8 * n) 8 = b := by
  ext i hi
  have hq : (8 * n + i) / 8 = n := by omega
  have hr : (8 * n + i) % 8 = i := by omega
  rw [BitVec.getElem_extractLsb', bytesToWord_bit bs _ (by omega), hq, hr, h]
  exact BitVec.getLsbD_eq_getElem hi

theorem pmpcfgEntries_nodup (x : Xlen) (k : Nat) : (pmpcfgEntries x k).Nodup := by
  cases x <;> simp [pmpcfgEntries]

theorem pmpcfgEntries_index {x : Xlen} {k n e : Nat} (h : (pmpcfgEntries x k)[n]? = some e) : n < 8 := by
  obtain ⟨hn, -⟩ := List.getElem?_eq_some_iff.1 h
  cases x <;> simp only [pmpcfgEntries, List.length_cons, List.length_nil] at hn <;> omega

theorem pmpR_extract (v : Word) (n : Nat) : pmpR (v.extractLsb' (8 * n) 8) = bit v (8 * n) := by
  simp [pmpR, bit, BitVec.getElem_extractLsb']

theorem pmpW_extract (v : Word) (n : Nat) : pmpW (v.extractLsb' (8 * n) 8) = bit v (8 * n + 1) := by
  simp [pmpW, bit, BitVec.getElem_extractLsb']

/-- The mask of an address register keeps the value modulo 2^(PA_BITS - 2) (R58). -/
theorem and_pmpaddrMask (c : Params) (v : Word) : v &&& pmpaddrMask c = BitVec.ofNat 64 (v.toNat % 2 ^ (c.paBits - 2)) := by
  apply word_ext
  intro i hi
  simp only [bit, pmpaddrMask, BitVec.getLsbD_and, BitVec.getLsbD_ofNat, Nat.testBit_two_pow_sub_one, Nat.testBit_mod_two_pow, hi,
    decide_true, Bool.true_and]
  exact Bool.and_comm _ _

/-- Settles O32: each register is its entries' bytes, and what a write leaves in an entry is a lemma of `PmpEntries`. -/
theorem pmpRegisters : Obligations.PmpRegisters := by
  unfold Obligations.PmpRegisters
  intro s k n e i v hcount hn _
  have hnodup := pmpcfgEntries_nodup s.cfg.xlen k.val
  refine ⟨?_, ?_, ?_, ?_⟩
  · exact extract_bytesToWord (by rw [List.getElem?_map, hn]; rfl) (pmpcfgEntries_index hn)
  · intro u hu
    exact writePmpBytes_pmpCfg hcount hnodup hn hu
  · intro he hl hR hW
    exact writePmpBytes_refused hnodup hn he hl (by rwa [pmpR_extract]) (by rwa [pmpW_extract])
  · refine ⟨_, rfl, ?_⟩
    have hlock : pmpaddrLocked s i.val = false ↔ (s.pmpCfg i.val).getLsbD 7 = false ∧
        ¬((s.pmpCfg (i.val + 1)).getLsbD 7 = true ∧ (s.pmpCfg (i.val + 1)).extractLsb' 3 2 = 1#2) := by
      rw [← Bool.not_eq_true, pmpaddrLocked_iff, not_or, Bool.not_eq_true]
      rfl
    rw [writePmpaddr_pmpAddr_same s i.val v i.isLt, and_pmpaddrMask]
    simp only [hlock]

end Sys2Proof.Proofs.PmpRegisters

/-! PROOFS of O26 to O29: what CSR writes store and what reads show. -/

namespace Sys2Proof.Proofs.CsrFields
open Sys2Proof Sys2Proof.Machine Sys2Proof.Proofs.CsrMasks

/-! ### The storage a write reaches (R28) -/

/-- Settles O26: every other register than the one written is by definition the old one; of the PMP registers, every other entry is. -/
theorem csrWriteFrame : Obligations.CsrWriteFrame := by
  unfold Obligations.CsrWriteFrame
  intro s u c v h
  cases c <;> simp only [csrWrite] at h
  case pmpcfg k =>
    have hbytes : ∀ e : Fin 16, e.val ∉ pmpcfgEntries s.cfg.xlen k.val → u.pmpcfg[e] = s.pmpcfg[e] := by
      intro e he
      have := PmpEntries.writePmpBytes_pmpcfg_of_not_mem h he
      simpa using this
    have hu := RegisterInvariant.writePmpBytes_only h
    generalize u.pmpcfg = bytes at hu hbytes
    subst hu
    simpa using hbytes
  case pmpaddr i =>
    cases h
    have haddr : ∀ e : Fin 16, i ≠ e → (writePmpaddr s i.val v).pmpaddr[e] = s.pmpaddr[e] := by
      intro e he
      have := PmpEntries.writePmpaddr_pmpaddr_ne (s := s) v (fun hv => he (Fin.ext hv))
      simpa using this
    unfold writePmpaddr at *
    split
    · next hw => simpa [hw] using haddr
    · simp
  all_goals cases h; simp

/-! ### mstatus (R30 to R38) -/

/-- A write of mstatus, bit by bit, MPP apart. -/
theorem bit_mstatusWritten (s : State) (v : Word) {i : Nat} (h11 : i ≠ 11) (h12 : i ≠ 12) :
    bit (mstatusWritten s v) i = if bit (mstatusMask s.cfg.modes) i then bit v i else bit s.mstatus i := by
  rw [ModeInvariant.mstatusWritten_eq]
  split
  · exact bit_mergeBits _ _ _ _
  · rw [bit_withMpp, if_neg h12, if_neg h11, bit_mergeBits]

theorem statusBit_mstatusWritten {s : State} (v : Word) {f : StatusField} (hf : bit (mstatusMask s.cfg.modes) f.pos = true) :
    statusBit (mstatusWritten s v) f = statusBit v f := by
  obtain ⟨h11, h12⟩ := f.pos_ne_mpp
  unfold statusBit
  rw [bit_mstatusWritten s v h11 h12, if_pos hf]

theorem bit_mstatusWritten_kept {s : State} (v : Word) {i : Nat} (h11 : i ≠ 11) (h12 : i ≠ 12)
    (hm : bit (mstatusMask s.cfg.modes) i = false) : bit (mstatusWritten s v) i = bit s.mstatus i := by
  rw [bit_mstatusWritten s v h11 h12, hm]; rfl

/-- Under MODES = MSU every writable bit of mstatus is a one-bit field or one of the two of MPP. -/
theorem mask_msu_is_field : ∀ i, i < 64 → bit (mstatusMask .msu) i = true → i ≠ 11 → i ≠ 12 →
    ∃ f ∈ [StatusField.SIE, .MIE, .SPIE, .MPIE, .SPP, .MPRV, .SUM, .MXR, .TVM, .TW, .TSR], f.pos = i := by decide

theorem mask_msu_has (f : StatusField) : bit (mstatusMask .msu) f.pos = true := by cases f <;> decide

theorem mppOf_mstatusWritten {s : State} (hm : s.cfg.modes ≠ .m) (v : Word) :
    mppOf (mstatusWritten s v) = (mppWritten s.cfg v).getD s.drawnMpp := by
  rw [ModeInvariant.mstatusWritten_eq, if_neg hm, mppOf_withMpp]

/-- A written encoding of an implemented mode names that mode (R31). -/
theorem mppWritten_eq_some {c : Params} {v : Word} (hv : ¬(bit v 12 = true ∧ bit v 11 = false)) (hm : c.modes.has (mppOf v) = true) :
    mppWritten c v = some (mppOf v) := by
  unfold mppWritten
  cases h12 : bit v 12 with
  | false => cases h11 : bit v 11 <;> simpa [mppOf, h12, h11] using hm
  | true =>
    cases h11 : bit v 11 with
    | false => exact absurd ⟨h12, h11⟩ hv
    | true => simp [mppOf, h12, h11]

/-- Settles O27: the mask of the configuration says which bits are written, and MPP takes what `mppWritten` names. -/
theorem mstatusWrite : Obligations.MstatusWrite := by
  unfold Obligations.MstatusWrite
  intro s u v h
  cases h
  refine ⟨fun hM => ⟨?_, ?_⟩, fun hM => ⟨?_, ?_, ?_, ?_⟩, fun hM => ⟨?_, ?_, ?_⟩, fun hM => ⟨?_, ?_, ?_⟩⟩
  · intro f
    exact statusBit_mstatusWritten v (by rw [hM]; exact mask_msu_has f)
  · intro i hi h11 h12 hf
    refine bit_mstatusWritten_kept v h11 h12 ?_
    rw [hM, ← Bool.not_eq_true]
    intro hmask
    obtain ⟨f, -, hpos⟩ := mask_msu_is_field i hi hmask h11 h12
    exact hf f hpos
  · exact statusBit_mstatusWritten v (by rw [hM]; decide)
  · exact statusBit_mstatusWritten v (by rw [hM]; decide)
  · exact statusBit_mstatusWritten v (by rw [hM]; decide)
  · intro i hi hn
    refine bit_mstatusWritten_kept v (by rintro rfl; simp at hn) (by rintro rfl; simp at hn) ?_
    rw [hM, bit_mstatusMask_mu i hi]
    exact decide_eq_false hn
  · exact statusBit_mstatusWritten v (by rw [hM]; decide)
  · exact statusBit_mstatusWritten v (by rw [hM]; decide)
  · intro i hi hn
    dsimp only
    rw [ModeInvariant.mstatusWritten_eq, if_pos hM, bit_mergeBits, hM, bit_mstatusMask_m i hi, decide_eq_false hn]
    rfl
  · rw [mppOf_mstatusWritten hM]
    exact ModeInvariant.has_mppAfter s v
  · dsimp only
    rw [ModeInvariant.mstatusWritten_eq, if_neg hM]
    exact (ModeInvariant.MppLegal.withMpp (ModeInvariant.has_mppAfter s v) _).2
  · intro henc hv
    rw [mppOf_mstatusWritten hM, mppWritten_eq_some henc hv]
    rfl

/-! ### sstatus (R39) -/

/-- Settles O28: a read is mstatus under the read mask, a write a merge under the write mask. -/
theorem sstatusWindow : Obligations.SstatusWindow := by
  unfold Obligations.SstatusWindow
  intro s u v h
  cases h
  refine ⟨fun i hi => ?_, fun i hi => ?_⟩
  · simp only [csrRead]
    rw [bit_and, bit_sstatusReadMask _ i hi]
  · simp only [bit_mergeBits, bit_sstatusWriteMask i hi, decide_eq_true_eq]

/-! ### Interrupt registers (R50 to R55) -/

/-- mip, bit by bit. -/
theorem bit_mipWord (s : State) (sei : Bool) (i : Nat) : bit (mipWord s sei) i =
    if i = 11 then s.pending .mei else if i = 9 then sei else if i = 7 then s.pending .mti else if i = 5 then s.pending .sti
    else if i = 3 then s.pending .msi else if i = 1 then s.pending .ssi else false := by
  unfold mipWord
  simp only [bit_withBit _ 11 _ _ (by decide), bit_withBit _ 9 _ _ (by decide), bit_withBit _ 7 _ _ (by decide),
    bit_withBit _ 5 _ _ (by decide), bit_withBit _ 3 _ _ (by decide), bit_withBit _ 1 _ _ (by decide)]
  simp [bit]

/-- A merge under a mask whose bits are known. -/
theorem bit_mergeBits_of {mask : Word} {p : Prop} [Decidable p] {i : Nat} (h : bit mask i = decide p) (old v : Word) :
    bit (mergeBits mask old v) i = if p then bit v i else bit old i := by
  simp [bit_mergeBits, h]

/-- Settles O29: each read is a word of pending bits under masks, each write a merge under a mask. -/
theorem interruptViews : Obligations.InterruptViews := by
  unfold Obligations.InterruptViews
  intro s v
  refine ⟨?_, ?_, ?_, ⟨_, rfl, ?_⟩, ⟨_, rfl, ?_⟩, ⟨_, rfl, ?_⟩, ⟨_, rfl, ?_⟩, ⟨_, rfl, ?_⟩, ⟨_, rfl, ?_⟩⟩ <;> intro i hi
  · simp only [csrRead, State.mip, bit_mipWord, State.pending]
    split_ifs <;> simp_all
  · simp only [csrRead, bit_and, bit_supervisorBits i hi]
  · simp only [csrRead, bit_and, bit_supervisorBits i hi]
  · exact bit_mergeBits_of (bit_mieMask _ i hi) _ _
  · refine bit_mergeBits_of ?_ _ _
    rw [bit_and, bit_supervisorBits i hi, Bool.decide_and, Bool.and_comm, Bool.decide_eq_true]
  · exact bit_mergeBits_of (bit_mipMask _ i hi) _ _
  · refine bit_mergeBits_of ?_ _ _
    rw [bit_and, bit_and, bit_supervisorBits i hi]
    simp only [Bool.decide_and, Bool.decide_eq_true]
    exact Bool.and_comm _ _
  · rw [bit_and, bit_supervisorBits i hi]
  · rw [bit_and, bit_medelegMask i hi]

end Sys2Proof.Proofs.CsrFields

/-! PROOF of O31. The values that the trap registers and satp take. -/

namespace Sys2Proof.Proofs.TrapRegisters
open Sys2Proof Sys2Proof.Machine Sys2Proof.Proofs.CsrMasks

/-! ### mtvec and stvec (R40) -/

theorem toNat_low_bits (v : Word) : (v &&& 3#64).toNat = v.toNat % 4 := by
  rw [BitVec.toNat_and]; exact Nat.and_two_pow_sub_one_eq_mod v.toNat 2

/-- The low two bits hold `k` where the value is `k` modulo 4. -/
theorem low_bits_eq_iff (v : Word) {k : Nat} (hk : k < 4) : v &&& 3#64 = BitVec.ofNat 64 k ↔ v.toNat % 4 = k := by
  rw [← BitVec.toNat_inj, toNat_low_bits, BitVec.toNat_ofNat, Nat.mod_eq_of_lt (by omega : k < 2 ^ 64)]

/-- BASE of one value with MODE of another. -/
theorem toNat_base_or_mode (v old : Word) : (v &&& ~~~3#64 ||| old &&& 3#64).toNat = v.toNat / 4 * 4 + old.toNat % 4 := by
  have hbase : v.toNat - v.toNat % 4 = 2 ^ 2 * (v.toNat / 4) := by omega
  rw [BitVec.toNat_or, toNat_clear_low, toNat_low_bits, hbase, ← Nat.two_pow_add_eq_or_of_lt (by omega)]
  omega

/-- What a tvec register holds after a write: BASE as written, MODE as written where it is supported, else as it was. -/
theorem toNat_tvecWritten (c : Params) (old v : Word) : (tvecWritten c old v).toNat = v.toNat / 4 * 4 +
    if v.toNat % 4 = 0 ∨ (v.toNat % 4 = 1 ∧ c.vectored = true) then v.toNat % 4 else old.toNat % 4 := by
  unfold tvecWritten
  simp only [low_bits_eq_iff v (show 0 < 4 by decide), low_bits_eq_iff v (show 1 < 4 by decide)]
  split
  · omega
  · exact toNat_base_or_mode v old

theorem tvecWritten_base (c : Params) (old v : Word) : (tvecWritten c old v).toNat / 4 = v.toNat / 4 := by
  rw [toNat_tvecWritten]; split <;> omega

theorem tvecWritten_mode (c : Params) (old v : Word) : (tvecWritten c old v).toNat % 4 =
    if v.toNat % 4 = 0 ∨ (v.toNat % 4 = 1 ∧ c.vectored = true) then v.toNat % 4 else old.toNat % 4 := by
  rw [toNat_tvecWritten]; split <;> omega

/-! ### mepc and sepc (R42) -/

theorem toNat_and_epcMask (c : Params) (v : Word) : (v &&& epcMask c).toNat = v.toNat / c.ialign * c.ialign := by
  unfold epcMask Params.ialign
  split
  · rw [toNat_clear_low1]; omega
  · rw [toNat_clear_low]; omega

/-! ### mcause and scause (R44) -/

theorem exc_mem_listedCauses (x : Xlen) (e : Exc) : causeWord x (.exc e) ∈ listedCauses x := by
  refine List.mem_append_left _ (List.mem_map_of_mem ?_)
  cases e <;> decide

theorem irq_mem_listedCauses (x : Xlen) (q : Irq) : causeWord x (.irq q) ∈ listedCauses x := by
  refine List.mem_append_right _ (List.mem_map_of_mem ?_)
  cases q <;> decide

/-- A value that is an exception code, or an interrupt code under the interrupt bit, is a listed cause. -/
theorem mem_listedCauses {x : Xlen} {v : Word}
    (h : (∃ e : Exc, v.toNat = e.code) ∨ (∃ q : Irq, v.toNat = 2 ^ (x.bits - 1) + q.code)) : v ∈ listedCauses x := by
  rcases h with ⟨e, he⟩ | ⟨q, hq⟩
  · have hv : v = causeWord x (.exc e) := by simp [causeWord, Cause.isIrq, Cause.code, ← he]
    rw [hv]; exact exc_mem_listedCauses x e
  · have hv : v = causeWord x (.irq q) := by simp [causeWord, Cause.isIrq, Cause.code, ← hq]
    rw [hv]; exact irq_mem_listedCauses x q

theorem causeWritten_listed {s : State} {v : Word} (h : v ∈ listedCauses s.cfg.xlen) : causeWritten s v = v := if_pos h

/-! ### satp (R60, R62) -/

/-- A field cut out of a masked value, where the mask has the low `m` bits of the field. -/
theorem extract_and_mask {v mask : Word} {start len m : Nat}
    (hmask : ∀ i, i < len → bit mask (start + i) = decide (i < m)) :
    ((v &&& mask).extractLsb' start len).toNat = (v.extractLsb' start len).toNat % 2 ^ m := by
  apply Nat.eq_of_testBit_eq
  intro i
  rw [Nat.testBit_mod_two_pow, ← BitVec.getLsbD, ← BitVec.getLsbD, BitVec.getLsbD_extractLsb', BitVec.getLsbD_extractLsb',
    BitVec.getLsbD_and]
  by_cases hi : i < len
  · have hb : mask.getLsbD (start + i) = decide (i < m) := hmask i hi
    simp only [hi, hb, decide_true, Bool.true_and]
    exact Bool.and_comm _ _
  · simp [hi]

theorem satpAsid_and_mask (c : Params) (v : Word) :
    (satpAsid c.xlen (v &&& satpMask c)).toNat = (satpAsid c.xlen v).toNat % 2 ^ c.asidLen := by
  unfold satpAsid
  cases hx : c.xlen <;> simp only
  · have hf := extract_and_mask (v := v) (mask := satpMask c) (start := 22) (len := 9) (m := c.asidLen) (fun i hi => by
      rw [bit_satpMask_rv32 hx _ (by omega), if_neg (by omega), if_pos (by omega), Nat.add_sub_cancel_left])
    rw [BitVec.toNat_setWidth_of_le (by decide), BitVec.toNat_setWidth_of_le (by decide), hf]
  · exact extract_and_mask (fun i hi => by
      rw [bit_satpMask_rv64 hx _ (by omega), if_neg (by omega), if_pos (by omega), Nat.add_sub_cancel_left])

theorem satpPpn_and_mask (c : Params) (v : Word) :
    satpPpn c.xlen (v &&& satpMask c) = satpPpn c.xlen v % 2 ^ (c.paBits - 12) := by
  unfold satpPpn
  cases hx : c.xlen <;> simp only
  · exact extract_and_mask (fun i hi => by rw [bit_satpMask_rv32 hx _ (by omega), if_pos (by omega), Nat.zero_add])
  · exact extract_and_mask (fun i hi => by rw [bit_satpMask_rv64 hx _ (by omega), if_pos (by omega), Nat.zero_add])

theorem satpWritten_supported {c : Params} {old v : Word} {m : SatpMode} (hv : satpModeOf c.xlen v = some m) (hm : m ∈ c.satpModes) :
    satpWritten c old v = v &&& satpMask c := by
  simp [satpWritten, hv, hm]

theorem satpWritten_unsupported {c : Params} {old v : Word} (h : ∀ m, satpModeOf c.xlen v = some m → m ∉ c.satpModes) :
    satpWritten c old v = old := by
  unfold satpWritten
  split
  · next m hm => exact if_neg (h m hm)
  · rfl

/-- Settles O31: the value each write stores, register by register. -/
theorem trapRegisterWrites : Obligations.TrapRegisterWrites := by
  unfold Obligations.TrapRegisterWrites
  intro s v
  refine ⟨⟨_, _, rfl, rfl, ?_⟩, ⟨_, _, rfl, rfl, ?_⟩, ⟨_, _, _, _, rfl, rfl, rfl, rfl, rfl, rfl, rfl, rfl⟩, ⟨_, _, rfl, rfl, ?_⟩,
    ⟨_, rfl, ?_⟩⟩
  · exact ⟨tvecWritten_base _ _ _, tvecWritten_base _ _ _, tvecWritten_mode _ _ _, tvecWritten_mode _ _ _⟩
  · exact ⟨toNat_and_epcMask s.cfg v, rfl⟩
  · intro h
    have hv := mem_listedCauses h
    exact ⟨causeWritten_listed hv, causeWritten_listed hv⟩
  · refine ⟨fun m hv hm => ?_, satpWritten_unsupported⟩
    dsimp only
    rw [satpWritten_supported hv hm]
    exact ⟨(satpModeOf_and_mask s.cfg v).trans hv, satpAsid_and_mask s.cfg v, satpPpn_and_mask s.cfg v⟩

end Sys2Proof.Proofs.TrapRegisters

/-! PROOF of O43. What a waiting hart does. -/

namespace Sys2Proof.Proofs.Waiting
open Sys2Proof Sys2Proof.Machine

theorem bit_mip_code (s : State) (q : Irq) : bit s.mip q.code = s.pending q := by
  unfold State.mip
  rw [CsrFields.bit_mipWord]
  cases q <;> rfl

/-- mip has no bit but those of the six interrupts (R50). -/
theorem code_of_bit_mip {s : State} {i : Nat} (h : bit s.mip i = true) : ∃ q : Irq, q.code = i := by
  unfold State.mip at h
  rw [CsrFields.bit_mipWord] at h
  split_ifs at h with h11 h9 h7 h5 h3 h1
  · exact ⟨.mei, h11.symm⟩
  · exact ⟨.sei, h9.symm⟩
  · exact ⟨.mti, h7.symm⟩
  · exact ⟨.sti, h5.symm⟩
  · exact ⟨.msi, h3.symm⟩
  · exact ⟨.ssi, h1.symm⟩

theorem wakes_iff (s : State) : s.wakes = true ↔ ∃ q, bit s.mie q.code = true ∧ s.pending q = true := by
  unfold State.wakes
  rw [List.any_eq_true]
  constructor
  · rintro ⟨q, -, hq⟩
    exact ⟨q, by simpa using hq⟩
  · rintro ⟨q, hmie, hp⟩
    exact ⟨q, by cases q <;> decide, by simp [hmie, hp]⟩

/-- The wake-up condition is `mie & mip ≠ 0` (41_wfi.md R210). -/
theorem wakes_iff_mie_and_mip (s : State) : s.wakes = true ↔ csrRead s .mie &&& csrRead s .mip ≠ 0#64 := by
  rw [wakes_iff]
  constructor
  · rintro ⟨q, hmie, hp⟩ h0
    have hb : bit (s.mie &&& s.mip) q.code = true := by rw [bit_and, bit_mip_code, hmie, hp]; rfl
    simp only [csrRead] at h0
    rw [h0] at hb
    simp [bit] at hb
  · intro hne
    by_contra hno
    refine hne (word_ext fun i _ => ?_)
    simp only [csrRead, bit_and]
    cases hmip : bit s.mip i with
    | false => simp [bit]
    | true =>
      obtain ⟨q, rfl⟩ := code_of_bit_mip hmip
      have hmie : bit s.mie q.code = false := by
        rw [← Bool.not_eq_true]
        exact fun hmie => hno ⟨q, hmie, by rw [← bit_mip_code, hmip]⟩
      rw [hmie]; simp [bit]

theorem waitExpired_iff (s : State) :
    s.waitExpired = true ↔ s.priv = .S ∧ statusBit s.mstatus .TW = true ∧ s.cfg.twLimit ≤ s.waited := by
  simp [State.waitExpired, and_assoc]

/-- A hart that no interrupt wakes, and that does not wake by its own choice, does not leave the wait (R211). -/
theorem leavesWait_eq_false {s : State} (hw : s.wakes = false) (he : s.cfg.wfiImpl = .either → s.now.wakeEarly = false) :
    s.leavesWait = false := by
  unfold State.leavesWait
  rw [hw, Bool.false_or]
  by_cases hi : s.cfg.wfiImpl = .either
  · rw [he hi, Bool.and_false]
  · simp [hi]

theorem endWait_eq (s : State) : endWait s = { s with waiting := false, waited := 0, pc := s.following } := by
  rw [← nextPc_eq]; rfl

/-- Settles O43: the three ways on of `hartStep` in the wait state. -/
theorem waitState : Obligations.WaitState := by
  unfold Obligations.WaitState
  intro s hwait
  refine ⟨fun hne => ?_, fun h0 he => ?_⟩
  · have hl : s.leavesWait = true := by rw [State.leavesWait, (wakes_iff_mie_and_mip s).2 hne, Bool.true_or]
    simp only [hartStep, hwait, hl, if_true, endWait_eq]
  · have hw : s.wakes = false := by
      rw [← Bool.not_eq_true, wakes_iff_mie_and_mip]
      exact fun hne => hne h0
    have hl := leavesWait_eq_false hw he
    refine ⟨fun hx => ⟨expireWait s, ?_, trapped_raise _ _ _⟩, fun hx => ?_⟩
    · simp [hartStep, hwait, hl, (waitExpired_iff s).2 hx]
    · have hx' : s.waitExpired = false := by rwa [← Bool.not_eq_true, waitExpired_iff]
      simp [hartStep, hwait, hl, hx', stayWaiting]

end Sys2Proof.Proofs.Waiting

/-! PROOFS of O55 and O56. The state after reset. -/

namespace Sys2Proof.Proofs.Reset
open Sys2Proof Sys2Proof.Machine

theorem resetOf_reg (c : Params) (r : Reg) : (State.resetOf c).reg r = 0#64 := by
  simp [State.reg, State.resetOf]

theorem resetOf_pmpCfg (c : Params) (i : Nat) : (State.resetOf c).pmpCfg i = 0#8 := by
  unfold State.pmpCfg
  split
  · by_cases hi : i < 16
    · simp [State.resetOf, hi]
    · simp [State.resetOf, hi]
  · rfl

theorem alignedTo_zero (c : Params) : alignedTo c 0#64 := alignedTo_of_four rfl

theorem resetMstatus_legal (M : Modes) : ModeInvariant.MppLegal M (resetMstatus M) ∧ ModeInvariant.Hardwired M (resetMstatus M) := by
  unfold ModeInvariant.MppLegal ModeInvariant.Hardwired
  cases M <;> decide

/-- No one-bit field of mstatus is set at reset. -/
theorem resetMstatus_bit (M : Modes) (f : StatusField) : statusBit (resetMstatus M) f = false := by
  cases M <;> cases f <;> decide

theorem resetOf_modeInv (c : Params) : modeInv (State.resetOf c) :=
  (ModeInvariant.modeInv_iff _).2 ⟨ModeInvariant.has_M c.modes, resetMstatus_legal c.modes⟩

theorem resetOf_registersFit {c : Params} (h : fits c.xlen c.resetVector) : RegisterInvariant.RegistersFit (State.resetOf c) := by
  have h0 := fits_zero c.xlen
  constructor
  case reg => intro r; rw [resetOf_reg]; exact h0
  case pc => exact h
  case mstatus => apply fits_of_lt; simp only [State.resetOf]; cases c.modes <;> decide
  case pmpaddr => intro i; simpa [State.resetOf] using h0
  case zero => simp [State.resetOf]
  all_goals exact h0

/-- The value 0 of satp selects Bare under either width (R61). -/
theorem satpModeOf_zero (x : Xlen) : satpModeOf x 0#64 = some .bare := by cases x <;> rfl

theorem tvecLegal_zero (c : Params) : tvecLegal c 0#64 := .inl BitVec.zero_and

theorem resetOf_csrInv {c : Params} (h : SatpMode.bare ∈ c.satpModes) : csrInv (State.resetOf c) := by
  have hwithin : ∀ mask : Word, 0#64 &&& ~~~mask = 0#64 := fun _ => BitVec.zero_and
  refine ⟨hwithin _, hwithin _, hwithin _, hwithin _, tvecLegal_zero c, tvecLegal_zero c, ⟨.bare, satpModeOf_zero _, h⟩, fun i => ?_⟩
  have hb : (State.resetOf c).pmpcfg[i] = 0#8 := by simp [State.resetOf]
  rw [hb]
  unfold pmpByteLegal; decide

/-- Settles O55: the invariants hold of the values of `State.resetOf`, one by one. -/
theorem invariantsAtReset : Obligations.InvariantsAtReset := by
  unfold Obligations.InvariantsAtReset
  rintro c ⟨-, hfits, haligned, hbare⟩
  exact ⟨⟨rfl, rfl⟩, resetOf_modeInv c, ⟨haligned, alignedTo_zero c, alignedTo_zero c⟩,
    (RegisterInvariant.registersFit_iff _).1 (resetOf_registersFit hfits), resetOf_csrInv hbare⟩

/-- Settles O56: the fields of `State.resetOf`. -/
theorem resetValues : Obligations.ResetValues := by
  unfold Obligations.ResetValues
  intro c
  refine ⟨rfl, rfl, ?_, ?_, rfl, rfl, fun i => ?_, resetOf_reg c⟩
  · exact resetMstatus_bit c.modes .MIE
  · exact resetMstatus_bit c.modes .MPRV
  · rw [resetOf_pmpCfg]; exact ⟨rfl, rfl⟩

end Sys2Proof.Proofs.Reset

/-! PROOF of O17. An aligned, untranslated, allowed access is one access to physical memory; a store to a memory-mapped register is then
a store of four bytes that each land in that register. -/

namespace Sys2Proof.Proofs.PlatformStore
open Sys2Proof Sys2Proof.Machine

/-! ### An aligned, untranslated, allowed access -/

theorem accessAddr_untranslated {s : State} {va : Word} {n : Nat} {kind : AccessKind} {ep : Priv} (w : WalkChoice)
    (hu : untranslated s ep) (hp : physAllowed s va.toNat n kind ep = true) : accessAddr w va n kind ep s = .done va.toNat s := by
  unfold accessAddr
  rcases hu with rfl | hbare
  · simp [Access.bind, hp]
  · simp [hbare, Access.bind, hp]

/-- `lw` refuses what its physical read refuses. -/
theorem execLw_refused {s : State} {rd rs1 : Reg} {imm : BitVec 12} {r : Refusal} (ha : (s.effAddr rs1 imm).toNat % 4 = 0)
    (hu : untranslated s s.effPriv) (hp : physAllowed s (s.effAddr rs1 imm).toNat 4 .load s.effPriv = true)
    (hr : physRead s (s.effAddr rs1 imm).toNat 4 = .error r) : exec (.lw rd rs1 imm) s = .refused r := by
  simp [exec, execLw, memLoad, ha, loadPart, accessAddr_untranslated _ hu hp, Access.bind, hr, Access.finish]

section
variable {s : State} {rs1 rs2 : Reg} {imm : BitVec 12} (ha : (s.effAddr rs1 imm).toNat % 4 = 0) (hu : untranslated s s.effPriv)
  (hp : physAllowed s (s.effAddr rs1 imm).toNat 4 .store s.effPriv = true)
include ha hu hp

/-- `sw` refuses what its physical write refuses. -/
theorem execSw_refused {r : Refusal}
    (hr : physWrite s (s.effAddr rs1 imm).toNat 4 (((s.reg rs2).setWidth 32).setWidth 64) = .error r) :
    exec (.sw rs2 rs1 imm) s = .refused r := by
  simp [exec, execSw, memStore, ha, storePart, accessAddr_untranslated _ hu hp, Access.bind, hr, Access.finish]

/-- `sw` goes on from what its physical write leaves. -/
theorem execSw_next {u : State}
    (hw : physWrite s (s.effAddr rs1 imm).toNat 4 (((s.reg rs2).setWidth 32).setWidth 64) = .ok u) :
    exec (.sw rs2 rs1 imm) s = .next u.advance := by
  simp [exec, execSw, memStore, ha, storePart, accessAddr_untranslated _ hu hp, Access.bind, hw, Access.finish]

end

/-! ### Physical accesses that are refused -/

theorem physRead_device {s : State} {pa n a : Nat} (h : deviceIn s.cfg pa n = some a) : physRead s pa n = .error (.deviceRegion a) := by
  unfold physRead; rw [h]

theorem physWrite_device {s : State} {pa n a : Nat} (v : Word) (h : deviceIn s.cfg pa n = some a) :
    physWrite s pa n v = .error (.deviceRegion a) := by
  unfold physWrite; rw [h]

theorem physWrite_mtime {s : State} {pa n a : Nat} (v : Word) (hd : deviceIn s.cfg pa n = none) (h : mtimeIn s.cfg pa n = some a) :
    physWrite s pa n v = .error (.mtimeStore a) := by
  unfold physWrite; rw [hd, h]

theorem physWrite_allowed {s : State} {pa n : Nat} (v : Word) (hd : deviceIn s.cfg pa n = none) (h : mtimeIn s.cfg pa n = none) :
    physWrite s pa n v = .ok (s.setBytes pa (wordToBytes v n)) := by
  unfold physWrite; rw [hd, h]

/-- An access that begins in mtime has its first byte there. -/
theorem mtimeIn_first {c : Params} {pa k : Nat} (n : Nat) (h : platformAt c pa = some (.mtime, k)) : mtimeIn c pa (n + 1) = some pa := by
  unfold mtimeIn
  rw [List.range_succ_eq_map, List.map_cons, List.find?_cons_of_pos]
  · rfl
  · simp [h]

/-- The `n` bytes from address `a` up are the bytes of register `r` from number `k` up (R63 to R65). -/
def BytesOf (c : Params) (r : PlatformReg) (a k n : Nat) : Prop := ∀ j, j < n → platformAt c (a + j) = some (r, k + j)

theorem BytesOf.head {c : Params} {r : PlatformReg} {a k n : Nat} (h : BytesOf c r a k (n + 1)) : platformAt c a = some (r, k) :=
  h 0 (Nat.succ_pos n)

theorem BytesOf.tail {c : Params} {r : PlatformReg} {a k n : Nat} (h : BytesOf c r a k (n + 1)) : BytesOf c r (a + 1) (k + 1) n := by
  intro j hj
  have hp := h (j + 1) (by omega)
  rwa [Nat.add_comm j 1, ← Nat.add_assoc, ← Nat.add_assoc] at hp

/-- An access whose every byte belongs to another register has none in mtime. -/
theorem BytesOf.mtimeIn {c : Params} {r : PlatformReg} {a k n : Nat} (h : BytesOf c r a k n) (hr : r ≠ .mtime) :
    mtimeIn c a n = none := by
  unfold Machine.mtimeIn
  rw [List.find?_eq_none]
  intro b hb
  obtain ⟨j, hj, rfl⟩ := List.mem_map.1 hb
  rw [h j (List.mem_range.1 hj)]
  cases r with
  | mtime => exact absurd rfl hr
  | mtimecmp => simp
  | msip => simp

/-! ### Bytes of mtimecmp and msip -/

/-- Byte `k` of a word replaced, bit by bit. -/
theorem bit_withByte (v : Word) {k : Nat} (b : Byte) (hk : k < 8) {i : Nat} (hi : i < 64) :
    bit (withByte v k b) i = if i / 8 = k then b.getLsbD (i % 8) else bit v i := by
  have hq : 8 * (i / 8) + i % 8 = i := Nat.div_add_mod i 8
  have hr : i % 8 < 8 := Nat.mod_lt _ (by decide)
  have hext : ∀ w : Word, bit w i = (w.extractLsb' (8 * (i / 8)) 8).getLsbD (i % 8) := fun w => by
    rw [BitVec.getLsbD_extractLsb', hq, decide_eq_true hr, Bool.true_and]; rfl
  rw [hext, extract_withByte v k b _ hk (by omega), hext v]
  split <;> rfl

theorem setByte_mtimecmp {s : State} {a k : Nat} (b : Byte) (h : platformAt s.cfg a = some (.mtimecmp, k)) :
    s.setByte a b = { s with mtimecmp := withByte s.mtimecmp k b } := by
  unfold State.setByte; rw [h]

theorem setByte_msip {s : State} {a k : Nat} (b : Byte) (h : platformAt s.cfg a = some (.msip, k)) :
    s.setByte a b = if k = 0 then { s with msip := b.getLsbD 0 } else s := by
  unfold State.setByte; rw [h]

/-- `v` with the bytes from number `k` up replaced. -/
def withBytes (v : Word) (k : Nat) : List Byte → Word
  | [] => v
  | b :: bs => withBytes (withByte v k b) (k + 1) bs

theorem bit_withBytes (v : Word) (k : Nat) (bs : List Byte) (hk : k + bs.length ≤ 8) {i : Nat} (hi : i < 64) :
    bit (withBytes v k bs) i =
      if k ≤ i / 8 ∧ i / 8 < k + bs.length then (bs[i / 8 - k]?.getD 0#8).getLsbD (i % 8) else bit v i := by
  induction bs generalizing v k with
  | nil => rw [if_neg (by simp)]; rfl
  | cons b rest ih =>
    simp only [List.length_cons] at hk ⊢
    simp only [withBytes]
    rw [ih _ _ (by omega), bit_withByte v b (by omega) hi]
    rcases lt_trichotomy (i / 8) k with hlt | rfl | hgt
    · rw [if_neg (by omega), if_neg (by omega), if_neg (by omega)]
    · rw [if_neg (by omega), if_pos rfl, if_pos (by omega)]
      simp
    · obtain ⟨j, hj⟩ : ∃ j, i / 8 - k = j + 1 := ⟨i / 8 - k - 1, by omega⟩
      have hj' : i / 8 - (k + 1) = j := by omega
      rw [hj, hj', List.getElem?_cons_succ]
      by_cases hin : i / 8 < k + (rest.length + 1)
      · rw [if_pos (by omega), if_pos (by omega)]
      · rw [if_neg (by omega), if_neg (by omega), if_neg (by omega)]

/-- The low four bytes of `x` put into `v` from byte `k` up. -/
theorem bit_withBytes_word (v x : Word) {k : Nat} (hk : k ≤ 4) {i : Nat} (hi : i < 64) :
    bit (withBytes v k (wordToBytes x 4)) i = if 8 * k ≤ i ∧ i < 8 * k + 32 then bit x (i - 8 * k) else bit v i := by
  rw [bit_withBytes v k _ (by rw [wordToBytes_length]; omega) hi, wordToBytes_length]
  by_cases hin : 8 * k ≤ i ∧ i < 8 * k + 32
  · have hj : i / 8 - k < 4 := by omega
    have hbit : 8 * (i / 8 - k) + i % 8 = i - 8 * k := by omega
    have hr : i % 8 < 8 := Nat.mod_lt _ (by decide)
    rw [if_pos (by omega), if_pos hin, wordToBytes, List.getElem?_map, List.getElem?_range hj]
    simp [hbit, hr, bit]
  · rw [if_neg (by omega), if_neg hin]

theorem setBytes_mtimecmp {s : State} {a k : Nat} {bs : List Byte} (h : BytesOf s.cfg .mtimecmp a k bs.length) :
    s.setBytes a bs = { s with mtimecmp := withBytes s.mtimecmp k bs } := by
  induction bs generalizing s a k with
  | nil => rfl
  | cons b rest ih =>
    unfold State.setBytes
    rw [setByte_mtimecmp b h.head]
    exact ih h.tail

/-- Of the bytes of msip past the first no store changes anything (R65). -/
theorem setBytes_msip_rest {s : State} {a k : Nat} {bs : List Byte} (hk : k ≠ 0) (h : BytesOf s.cfg .msip a k bs.length) :
    s.setBytes a bs = s := by
  induction bs generalizing a k with
  | nil => rfl
  | cons b rest ih =>
    unfold State.setBytes
    rw [setByte_msip b h.head, if_neg hk]
    exact ih (Nat.succ_ne_zero k) h.tail

theorem wordToBytes_succ (v : Word) (n : Nat) : ∃ bs, wordToBytes v (n + 1) = v.extractLsb' 0 8 :: bs ∧ bs.length = n :=
  ⟨_, by rw [wordToBytes, List.range_succ_eq_map, List.map_cons], by simp⟩

/-- A store from the first byte of msip up sets its one significant bit (R65). -/
theorem setBytes_msip {s : State} {a n : Nat} (v : Word) (h : BytesOf s.cfg .msip a 0 (n + 1)) :
    s.setBytes a (wordToBytes v (n + 1)) = { s with msip := bit v 0 } := by
  obtain ⟨bs, hbs, hlen⟩ := wordToBytes_succ v n
  have hbit : (v.extractLsb' 0 8).getLsbD 0 = bit v 0 := by simp [bit]
  rw [hbs]
  unfold State.setBytes
  rw [setByte_msip _ h.head, if_pos rfl, hbit]
  exact setBytes_msip_rest (k := 1) (by decide) (by rw [hlen]; exact h.tail)

/-- The low and the high half of mtimecmp replaced. -/
theorem withBytes_low_half (v x : Word) :
    withBytes v 0 (wordToBytes ((x.setWidth 32).setWidth 64) 4) = v.extractLsb' 32 32 ++ x.setWidth 32 := by
  apply word_ext
  intro i hi
  rw [bit_withBytes_word _ _ (by decide) hi]
  unfold bit
  rw [BitVec.getLsbD_append]
  by_cases h : i < 32
  · simp [h, hi]
  · have hi' : i - 32 < 32 := by omega
    have hadd : 32 + (i - 32) = i := by omega
    simp [h, hi', hadd]

theorem withBytes_high_half (v x : Word) :
    withBytes v 4 (wordToBytes ((x.setWidth 32).setWidth 64) 4) = x.setWidth 32 ++ v.extractLsb' 0 32 := by
  apply word_ext
  intro i hi
  rw [bit_withBytes_word _ _ (by decide) hi]
  unfold bit
  rw [BitVec.getLsbD_append]
  by_cases h : i < 32
  · have hlow : ¬ 32 ≤ i := by omega
    simp [h, hlow]
  · have hi' : i - 32 < 32 := by omega
    have hlow : 32 ≤ i := by omega
    have hi64 : i - 32 < 64 := by omega
    have hle : ¬ 64 ≤ i := by omega
    simp [h, hi', hi64, hlow, hle]

/-! ### What `sw` leaves -/

/-- Beside the two registers a store can reach, nothing changes but the pc. -/
theorem unchanged_after_store (s : State) (cmp : BitVec 64) (b : Bool) :
    let t := ({ s with mtimecmp := cmp, msip := b } : State).advance
    t.mtime = s.mtime ∧ sameLines s t ∧ t.mem = s.mem ∧ t.stored = s.stored ∧ t.pc = s.following ∧ sameRegs s t ∧ sameCsrs s t ∧
      sameWait s t ∧ sameCache s t :=
  ⟨rfl, ⟨rfl, rfl⟩, rfl, rfl, nextPc_eq s, fun _ => rfl, by simp [sameCsrs], by simp [sameWait], rfl⟩

section
variable {s : State} {rs1 rs2 : Reg} {imm : BitVec 12} (ha : (s.effAddr rs1 imm).toNat % 4 = 0) (hu : untranslated s s.effPriv)
  (hp : physAllowed s (s.effAddr rs1 imm).toNat 4 .store s.effPriv = true) (hd : deviceIn s.cfg (s.effAddr rs1 imm).toNat 4 = none)
include ha hu hp hd

theorem execSw_mtimecmp {k : Nat} (h : BytesOf s.cfg .mtimecmp (s.effAddr rs1 imm).toNat k 4) :
    exec (.sw rs2 rs1 imm) s =
      .next ({ s with mtimecmp := withBytes s.mtimecmp k (wordToBytes (((s.reg rs2).setWidth 32).setWidth 64) 4) } : State).advance := by
  refine execSw_next ha hu hp ?_
  rw [physWrite_allowed _ hd (h.mtimeIn (by decide)), setBytes_mtimecmp (by rwa [wordToBytes_length])]

theorem execSw_msip (h : BytesOf s.cfg .msip (s.effAddr rs1 imm).toNat 0 4) :
    exec (.sw rs2 rs1 imm) s = .next ({ s with msip := bit (s.reg rs2) 0 } : State).advance := by
  have hbit : bit (((s.reg rs2).setWidth 32).setWidth 64) 0 = bit (s.reg rs2) 0 := by simp [bit]
  refine execSw_next ha hu hp ?_
  rw [physWrite_allowed _ hd (h.mtimeIn (by decide)), setBytes_msip _ h, ← hbit]

end

/-- Settles O17: each store is a physical write, refused on a device and on mtime, and otherwise four bytes of one register. -/
theorem storeToPlatform : Obligations.StoreToPlatform := by
  unfold Obligations.StoreToPlatform
  rintro s rd rs1 rs2 imm va rfl
  rw [← effAddr_eq]
  intro ha hu
  refine ⟨fun hp => ⟨fun hd => ⟨fun hreg => ?_, fun hreg => ?_, fun hreg => ?_, fun k hreg => ?_⟩, fun a hd => ?_⟩, fun hp a hd => ?_⟩
  · have hbytes : BytesOf s.cfg .mtimecmp (s.effAddr rs1 imm).toNat 0 4 := fun j hj => by rw [hreg j hj, Nat.zero_add]
    exact ⟨_, execSw_mtimecmp ha hu hp hd hbytes, withBytes_low_half _ _, rfl, unchanged_after_store s _ s.msip⟩
  · exact ⟨_, execSw_mtimecmp ha hu hp hd hreg, withBytes_high_half _ _, rfl, unchanged_after_store s _ s.msip⟩
  · have hbytes : BytesOf s.cfg .msip (s.effAddr rs1 imm).toNat 0 4 := fun j hj => by rw [hreg j hj, Nat.zero_add]
    exact ⟨_, execSw_msip ha hu hp hd hbytes, rfl, rfl, unchanged_after_store s s.mtimecmp _⟩
  · exact execSw_refused ha hu hp (physWrite_mtime _ hd (mtimeIn_first 3 hreg))
  · exact execSw_refused ha hu hp (physWrite_device _ hd)
  · exact execLw_refused ha hu hp (physRead_device hd)

end Sys2Proof.Proofs.PlatformStore

/-! PROOF of O51. What a step may do to memory, to the record of stored-to locations and to time is a relation between the state at its
start and any later one; the primitive updates keep it, hence every step does. -/

namespace Sys2Proof.Proofs.MemoryInvariant
open Sys2Proof Sys2Proof.Machine

/-- What `t` may have done since `s`: the canonical forms are kept, no stored-to location is forgotten, time has not gone back, and the
parameters are the same (R100, R132, R350). -/
structure Progress (s t : State) : Prop where
  memory : memInv s → memInv t
  stored : ∀ a ∈ s.stored, a ∈ t.stored
  time : s.mtime.toNat ≤ t.mtime.toNat
  cfg : t.cfg = s.cfg

theorem Progress.refl (s : State) : Progress s s := ⟨id, fun _ h => h, le_rfl, rfl⟩

/-- An update that leaves memory, the record and the parameters as they are, and time no earlier, makes progress. -/
theorem Progress.still {s t u : State} (h : Progress s t) (hmem : u.mem = t.mem) (hstored : u.stored = t.stored)
    (htime : t.mtime.toNat ≤ u.mtime.toNat) (hcfg : u.cfg = t.cfg) : Progress s u where
  memory hs := by unfold memInv; rw [hmem, hstored]; exact h.memory hs
  stored := by rw [hstored]; exact h.stored
  time := h.time.trans htime
  cfg := hcfg.trans h.cfg

/-- The environment's new time is never before the old one (R350). -/
theorem mtime_le_environment (s : State) : s.mtime.toNat ≤ (environment s).mtime.toNat := by
  unfold environment
  dsimp only
  split
  · assumption
  · exact le_rfl

theorem Progress.access {s t u : State} (h : Progress s t) (f : AccessFrame t u) : Progress s u where
  memory hs := ⟨f.wf (h.memory hs).1, f.rising (h.memory hs).2⟩
  stored a ha := f.grows a (h.stored a ha)
  time := by rw [f.mtime]; exact h.time
  cfg := f.cfg.trans h.cfg

/-- The primitive updates make progress from any earlier state. -/
theorem progress_kept (s : State) : Kept (Progress s) where
  draw t h := h.still (by simp) (by simp) (by simp) (by simp)
  env t h := h.still rfl rfl (mtime_le_environment t) rfl
  access _ _ h f := h.access f
  setReg _ _ _ h := h.still (by simp) (by simp) (by simp) (by simp)
  advance _ h := h.still rfl rfl le_rfl rfl
  jump _ _ h _ _ := h.still rfl rfl le_rfl rfl
  trap _ _ _ h _ := h.still (by simp) (by simp) (by simp) (by simp)
  mret _ h _ := h.still rfl rfl le_rfl rfl
  sret _ h _ _ := h.still rfl rfl le_rfl rfl
  csr _ _ _ _ _ h _ _ _ hw := by
    have f := csrWrite_frame hw
    have ⟨htime, _⟩ := f.samePlatform
    exact h.still f.mem f.stored (by rw [htime]) f.cfg
  wait _ _ _ h := h.still rfl rfl le_rfl rfl

/-- Settles O51: every step makes progress, since the primitive updates it is made of do. -/
theorem memoryInvariantStep : Obligations.MemoryInvariantStep := by
  unfold Obligations.MemoryInvariantStep
  intro s t hs
  obtain ⟨hmem, hstored, htime, hcfg⟩ := (progress_kept s).step (Progress.refl s) hs
  exact ⟨hmem, hstored, htime, hcfg⟩

end Sys2Proof.Proofs.MemoryInvariant

/-! PROOFS of O12 and O14. Jumps and branches to a misaligned target; where instructions are aligned to two bytes, no target of an even
offset from an even pc is misaligned. -/

namespace Sys2Proof.Proofs.MisalignedTargets
open Sys2Proof Sys2Proof.Machine

/-- With the C extension an address is aligned when it is even (R107). -/
theorem alignedTo_iff_even {c : Params} (hc : c.cExt = true) (v : Word) : alignedTo c v ↔ v.toNat % 2 = 0 := by
  unfold alignedTo Params.ialign; rw [if_pos hc]

/-- A number modulo 2^XLEN has the parity of the number. -/
theorem modXlen_even (x : Xlen) {z : Int} (h : z % 2 = 0) : (modXlen x z).toNat % 2 = 0 := by
  have hz := modXlen_toNat x z
  cases x <;> norm_num only [Xlen.bits] at hz <;> omega

/-- An offset whose bit 0 is clear is an even number. -/
theorem evenOffset_toInt {n : Nat} {off : BitVec (n + 1)} (h : evenOffset off = true) : off.toInt % 2 = 0 := by
  have hbit : off.toNat % 2 = 0 := by
    have h0 : off.getLsbD 0 = false := by simpa [evenOffset] using h
    simpa [BitVec.getLsbD, Nat.testBit_zero] using h0
  have hpow : (2 : Int) ^ (n + 1) = 2 * 2 ^ n := by ring
  rw [BitVec.toInt_eq_toNat_cond]
  push_cast
  split <;> omega

/-- With the C extension every target of an even offset from an even pc is aligned (R107). -/
theorem alignedTo_pcTarget {s : State} {n : Nat} {off : BitVec (n + 1)} (hc : s.cfg.cExt = true) (hpc : s.pc.toNat % 2 = 0)
    (hoff : evenOffset off = true) : alignedTo s.cfg (modXlen s.cfg.xlen (unsigned s.pc + off.toInt)) := by
  have hoff := evenOffset_toInt hoff
  exact (alignedTo_iff_even hc _).2 (modXlen_even _ (by unfold unsigned; omega))

/-- The target of `jalr`: the sum with its low bit dropped (R253). -/
theorem jalrTarget_eq (s : State) (rs1 : Reg) (imm : BitVec 12) :
    s.jalrTarget rs1 imm = BitVec.ofNat 64 (2 * ((modXlen s.cfg.xlen (unsigned (s.reg rs1) + imm.toInt)).toNat / 2)) := by
  unfold State.jalrTarget
  rw [effAddr_eq]
  apply BitVec.eq_of_toNat_eq
  rw [toNat_clear_low1, BitVec.toNat_ofNat]
  have := (modXlen s.cfg.xlen (unsigned (s.reg rs1) + imm.toInt)).isLt
  omega

/-- Settles O12: both are jumps to a computed target, which trap where it is misaligned. -/
theorem jumpMisaligned : Obligations.JumpMisaligned := by
  unfold Obligations.JumpMisaligned
  rintro s rd rs1 off imm j r rfl rfl
  rw [← pcTarget_eq s off (by decide), ← jalrTarget_eq]
  refine ⟨jump_misaligned rd _ s, jump_misaligned rd _ s, fun hc => ⟨?_, fun hpc hoff => ?_⟩⟩
  · rw [alignedTo_iff_even hc, State.jalrTarget, toNat_clear_low1]; omega
  · rw [pcTarget_eq s off (by decide)]; exact alignedTo_pcTarget hc hpc hoff

/-- Each branch of the table is the shared branch operation, taken where the table's condition holds (R254 to R259). -/
theorem branchTable_exec {s : State} {a b : Reg} {off : BitVec 13} {i : Instr} {cond : Prop} (h : (i, cond) ∈ branchTable s a b off) :
    ∃ taken : Bool, exec i s = branch taken (s.pcTarget off) s ∧ (taken = true ↔ cond) := by
  simp only [branchTable, List.mem_cons, Prod.mk.injEq, List.not_mem_nil, or_false] at h
  rcases h with ⟨rfl, rfl⟩ | ⟨rfl, rfl⟩ | ⟨rfl, rfl⟩ | ⟨rfl, rfl⟩ | ⟨rfl, rfl⟩ | ⟨rfl, rfl⟩ <;>
    refine ⟨_, rfl, ?_⟩ <;> simp [signedValue_eq, unsigned]

/-- Settles O14: a taken branch goes to its target, which traps where it is misaligned. -/
theorem branchMisaligned : Obligations.BranchMisaligned := by
  unfold Obligations.BranchMisaligned
  intro s a b off i cond hi
  obtain ⟨taken, hexec, htaken⟩ := branchTable_exec hi
  refine ⟨fun hcond hmis => ?_, fun hc hpc hoff => alignedTo_pcTarget hc hpc hoff⟩
  rw [← pcTarget_eq s off (by decide)] at hmis ⊢
  rw [hexec, htaken.2 hcond]
  exact branch_misaligned _ s hmis

end Sys2Proof.Proofs.MisalignedTargets

/-! The address path of one access (20_memory.md R112): how it ends, translated or not, and which bytes a translation changes. -/

namespace Sys2Proof.Proofs.AccessPath
open Sys2Proof Sys2Proof.Machine

/-! ### What an access shares with its start -/

theorem sameCsrs_trans {s t u : State} (h : sameCsrs s t) (k : sameCsrs t u) : sameCsrs s u := by
  unfold sameCsrs at *; simp_all only [and_self]

theorem sameWait_trans {s t u : State} (h : sameWait s t) (k : sameWait t u) : sameWait s u := by
  unfold sameWait at *; simp_all only [and_self]

theorem sameMemory_refl (s : State) : sameMemory s s := ⟨fun _ => rfl, rfl⟩

theorem sameMemory_trans {s t u : State} (h : sameMemory s t) (k : sameMemory t u) : sameMemory s u :=
  ⟨fun a => (k.1 a).trans (h.1 a), k.2.trans h.2⟩

theorem sameWait_of_accessFrame {s t : State} (f : AccessFrame s t) : sameWait s t := by
  rw [f.core]; simp [sameWait]

theorem sameLines_of_accessFrame {s t : State} (f : AccessFrame s t) : sameLines s t := by
  rw [f.core]; simp [sameLines]

theorem following_of_accessFrame {s t : State} (f : AccessFrame s t) : t.following = s.following := by
  unfold State.following; rw [f.cfg, f.pc]

/-- A trap after a translation is the trap entry from the state the translation leaves. -/
theorem trappedAfter_raise {s u : State} (f : AccessFrame s u) (e : Exc) (v : Word) : trappedAfter e v s u (raise e v u) :=
  ⟨trapped_raise e v u, f.sameRegs, f.sameCsrs, sameWait_of_accessFrame f, sameLines_of_accessFrame f, f.mtime, f.pc⟩

theorem byteAt_raise (e : Exc) (v : Word) (s : State) (a : Nat) : (raise e v s).byteAt a = s.byteAt a := byteAt_takeTrap _ _ _ s a

/-! ### How the address path ends -/

section
variable {s : State} {va : Word} {n : Nat} {kind : AccessKind} {ep : Priv} (w : WalkChoice)

theorem accessAddr_denied (hu : untranslated s ep) (hp : physAllowed s va.toNat n kind ep = false) :
    accessAddr w va n kind ep s = .trap (accessFault kind) va s := by
  unfold accessAddr
  rcases hu with rfl | hbare
  · simp [Access.bind, hp]
  · simp [hbare, Access.bind, hp]

theorem accessAddr_translated {sch : Scheme} (hm : ep ≠ .M) (hs : schemeOf s.satpMode = some sch) :
    accessAddr w va n kind ep s = (translate sch w va kind ep s).bind fun pa u =>
      if physAllowed u pa n kind ep then .done pa u else .trap (accessFault kind) va u := by
  unfold accessAddr; simp [hm, hs]

variable {w} {sch : Scheme} (hm : ep ≠ .M) (hs : schemeOf s.satpMode = some sch)
include hm hs

theorem accessAddr_translated_done {pa : Nat} {u : State} (ht : translate sch w va kind ep s = .done pa u)
    (hp : physAllowed u pa n kind ep = true) : accessAddr w va n kind ep s = .done pa u := by
  rw [accessAddr_translated w hm hs, ht]; simp [Access.bind, hp]

theorem accessAddr_translated_denied {pa : Nat} {u : State} (ht : translate sch w va kind ep s = .done pa u)
    (hp : physAllowed u pa n kind ep = false) : accessAddr w va n kind ep s = .trap (accessFault kind) va u := by
  rw [accessAddr_translated w hm hs, ht]; simp [Access.bind, hp]

theorem accessAddr_translated_trap {e : Exc} {v : Word} {u : State} (ht : translate sch w va kind ep s = .trap e v u) :
    accessAddr w va n kind ep s = .trap e v u := by
  rw [accessAddr_translated w hm hs, ht]; rfl

theorem accessAddr_translated_refused {r : Refusal} (ht : translate sch w va kind ep s = .refused r) :
    accessAddr w va n kind ep s = .refused r := by
  rw [accessAddr_translated w hm hs, ht]; rfl

end

theorem accessFrame_of_translate {sch : Scheme} {w : WalkChoice} {va : Word} {kind : AccessKind} {ep : Priv} {s u : State} {pa : Nat}
    (h : translate sch w va kind ep s = .done pa u) : AccessFrame s u := by
  have hsat := translate_sat sch w va kind ep s
  rwa [h] at hsat

theorem pathTrap_of_translate {sch : Scheme} {w : WalkChoice} {va v : Word} {kind : AccessKind} {ep : Priv} {s u : State} {e : Exc}
    (h : translate sch w va kind ep s = .trap e v u) : pathTrap kind va s e v u := by
  have hsat := translate_sat sch w va kind ep s
  rwa [h] at hsat

theorem accessFrame_of_accessAddr {w : WalkChoice} {va : Word} {n : Nat} {kind : AccessKind} {ep : Priv} {s u : State} {pa : Nat}
    (h : accessAddr w va n kind ep s = .done pa u) : AccessFrame s u := by
  have hsat := accessAddr_sat w va n kind ep s
  rw [h] at hsat; exact hsat.1

/-! ### The bytes a translation changes -/

theorem sameMemory_tlbAdd (s : State) (e : TlbEntry) : sameMemory s (s.tlbAdd e) := by
  unfold State.tlbAdd; split <;> exact ⟨fun _ => rfl, rfl⟩

/-- Reading a page-table entry changes no byte. -/
theorem readPte_memory (sch : Scheme) (w : WalkChoice) (va : Word) (kind : AccessKind) (i pa : Nat) (s : State) :
    (readPte sch w va kind i pa s).sat (fun _ t => sameMemory s t) (fun _ _ t => sameMemory s t) := by
  unfold readPte
  split
  · exact sameMemory_refl s
  · unfold readPteMem
    split
    · split
      · exact sameMemory_tlbAdd s _
      · trivial
    · exact sameMemory_refl s

/-- The update of A and D changes only the bytes of the entry. -/
theorem updateAD_memory (sch : Scheme) (va : Word) (kind : AccessKind) (i pa : Nat) (p : Word) (s : State) :
    (updateAD sch va kind i pa p s).sat (fun _ t => ∀ a, a < pa ∨ pa + sch.pteBytes ≤ a → t.byteAt a = s.byteAt a)
      (fun _ _ t => sameMemory s t) := by
  unfold updateAD
  split
  · split
    · next hw =>
      obtain ⟨-, -, rfl⟩ := physWrite_ok hw
      intro a ha
      rw [(sameMemory_tlbAdd _ _).1 a]
      exact byteAt_setBytes_out s pa _ a (by rwa [wordToBytes_length])
    · trivial
  · exact sameMemory_refl s

theorem finishLeaf_memory (sch : Scheme) (w : WalkChoice) (va : Word) (kind : AccessKind) (ep : Priv) (i pa : Nat) (p : Word)
    (s : State) :
    (finishLeaf sch w va kind ep i pa p s).sat
      (fun _ t => ∀ a,
        (pagePermits s p kind ep ∧ ¬misalignedSuperpage sch i p ∧ pteNeedsAD p kind ∧ s.setsAD w → a < pa ∨ pa + sch.pteBytes ≤ a) →
          t.byteAt a = s.byteAt a)
      (fun _ _ t => sameMemory s t) := by
  unfold finishLeaf
  split
  · exact sameMemory_refl s
  next hperm =>
  split
  · exact sameMemory_refl s
  next hsuper =>
  split
  · next hneeds =>
    split
    · next hsets =>
      refine Access.sat_bind (updateAD_memory sch va kind i pa p s) fun _ t ht a ha => ht a (ha ⟨?_, hsuper, hneeds, hsets⟩)
      simpa using hperm
    · exact sameMemory_refl s
  · exact fun _ _ => rfl

/-- A walk that ends in an address changes no byte outside the entry whose A or D bit it sets; one that traps changes none. -/
theorem walk_memory (sch : Scheme) (w : WalkChoice) (va : Word) (kind : AccessKind) (ep : Priv) (n base : Nat) (s : State) :
    (walk sch w va kind ep n base s).sat
      (fun _ t => ∀ a, (∀ slot, adSlot sch w va kind ep n base s = some slot → a < slot ∨ slot + sch.pteBytes ≤ a) →
        t.byteAt a = s.byteAt a)
      (fun _ _ t => sameMemory s t) := by
  induction n generalizing base s with
  | zero => exact sameMemory_refl s
  | succ i ih =>
    have hread := readPte_memory sch w va kind i (base + vpn sch va i * sch.pteBytes) s
    unfold walk adSlot
    dsimp only
    cases hr : readPte sch w va kind i (base + vpn sch va i * sch.pteBytes) s with
    | trap e v u => rw [hr] at hread; exact hread
    | refused r => trivial
    | done p u =>
      rw [hr] at hread
      have hu : sameMemory s u := hread
      simp only [Access.bind]
      by_cases hinvalid : pteInvalid p = true
      · rw [if_pos hinvalid]; exact hu
      by_cases hreserved : pteReserved p ≠ 0
      · rw [if_neg hinvalid, if_pos hreserved]; trivial
      rw [if_neg hinvalid, if_neg hreserved, if_neg (not_or.2 ⟨hinvalid, hreserved⟩)]
      split
      · refine Access.sat_mono (finishLeaf_memory sch w va kind ep i _ p u) (fun _ t ht a ha => ?_) (fun _ _ _ ht => sameMemory_trans hu ht)
        rw [ht a fun hsets => ha _ (if_pos hsets), hu.1 a]
      · refine Access.sat_mono (ih _ u) (fun _ t ht a ha => ?_) (fun _ _ _ ht => sameMemory_trans hu ht)
        rw [ht a ha, hu.1 a]

theorem translate_memory (sch : Scheme) (w : WalkChoice) (va : Word) (kind : AccessKind) (ep : Priv) (s : State) :
    (translate sch w va kind ep s).sat (fun _ t => ∀ a, besideSlot sch w va kind ep s a → t.byteAt a = s.byteAt a)
      (fun _ _ t => sameMemory s t) := by
  unfold Machine.translate
  split
  · exact walk_memory sch w va kind ep _ _ s
  · exact sameMemory_refl s

theorem byteAt_of_translate {sch : Scheme} {w : WalkChoice} {va : Word} {kind : AccessKind} {ep : Priv} {s u : State} {pa : Nat}
    (h : translate sch w va kind ep s = .done pa u) {a : Nat} (ha : besideSlot sch w va kind ep s a) : u.byteAt a = s.byteAt a := by
  have hsat := translate_memory sch w va kind ep s
  rw [h] at hsat; exact hsat a ha

theorem sameMemory_of_translate {sch : Scheme} {w : WalkChoice} {va v : Word} {kind : AccessKind} {ep : Priv} {s u : State} {e : Exc}
    (h : translate sch w va kind ep s = .trap e v u) : sameMemory s u := by
  have hsat := translate_memory sch w va kind ep s
  rwa [h] at hsat

end Sys2Proof.Proofs.AccessPath

/-! PROOFS of O15, O16, O18 and O19. What an aligned `lw` or `sw` does follows from how its address path ends (`AccessPath`): the word is
read or stored at the physical address, or the exception is raised in the state the path leaves. -/

namespace Sys2Proof.Proofs.LoadStore
open Sys2Proof Sys2Proof.Machine Sys2Proof.Proofs.AccessPath

/-! ### Storing a word in plain memory -/

theorem mtimeIn_none {c : Params} {pa n : Nat} (h : ∀ k, k < n → platformAt c (pa + k) = none) : mtimeIn c pa n = none := by
  unfold mtimeIn
  rw [List.find?_eq_none]
  intro b hb
  obtain ⟨k, hk, rfl⟩ := List.mem_map.1 hb
  simp [h k (List.mem_range.1 hk)]

theorem setByte_plain {s : State} {a : Nat} (b : Byte) (h : platformAt s.cfg a = none) :
    s.setByte a b = { s with mem := memWrite s.mem a b, stored := insertAddr a s.stored } := by
  unfold State.setByte; rw [h]

/-- A store to plain memory changes memory and the record of stored-to locations. -/
theorem setBytes_plain {s : State} {a : Nat} {bs : List Byte} (h : ∀ k, k < bs.length → platformAt s.cfg (a + k) = none) :
    ∃ m l, s.setBytes a bs = { s with mem := m, stored := l } ∧ ∀ b, b ∈ l ↔ b ∈ s.stored ∨ (a ≤ b ∧ b < a + bs.length) := by
  induction bs generalizing s a with
  | nil =>
    have hempty : ∀ b, ¬(a ≤ b ∧ b < a + 0) := fun b => by omega
    exact ⟨s.mem, s.stored, rfl, fun b => (or_iff_left (hempty b)).symm⟩
  | cons v rest ih =>
    simp only [List.length_cons] at h ⊢
    have hrest : ∀ k, k < rest.length → platformAt (s.setByte a v).cfg (a + 1 + k) = none := fun k hk => by
      rw [setByte_cfg, Nat.add_assoc, Nat.add_comm 1 k]; exact h (k + 1) (by omega)
    obtain ⟨m, l, hset, hl⟩ := ih hrest
    have hhead := setByte_plain (s := s) (a := a) v (h 0 (by omega))
    rw [hhead] at hset hl
    refine ⟨m, l, by rw [State.setBytes, hhead]; exact hset, fun b => ?_⟩
    rw [hl, mem_insertAddr]
    by_cases hb : b ∈ s.stored
    · simp [hb]
    · simp only [hb, or_false, false_or]; omega

/-- The low 32 bits of a word are its four low bytes (R104). -/
theorem low_word_bytes (v : Word) :
    v.extractLsb' 24 8 ++ (v.extractLsb' 16 8 ++ (v.extractLsb' 8 8 ++ v.extractLsb' 0 8)) = v.setWidth 32 := by
  rw [BitVec.extractLsb'_append_extractLsb'_eq_extractLsb' (by rfl), BitVec.extractLsb'_append_extractLsb'_eq_extractLsb' (by rfl),
    BitVec.extractLsb'_append_extractLsb'_eq_extractLsb' (by rfl)]
  apply BitVec.eq_of_getLsbD_eq
  intro i hi
  simp [hi]

/-- What `t` holds once the word `w` is stored at `pa` of plain memory in `u`, and nothing else is changed. -/
structure StoredWord (pa : Nat) (w : BitVec 32) (u t : State) : Prop where
  word : wordAt t pa = w
  bytes : ∀ a, a < pa ∨ pa + 4 ≤ a → t.byteAt a = u.byteAt a
  stored : ∀ a, a ∈ t.stored ↔ a ∈ u.stored ∨ (pa ≤ a ∧ a < pa + 4)
  pc : t.pc = u.following
  regs : sameRegs u t
  csrs : sameCsrs u t
  wait : sameWait u t
  cache : sameCache u t
  platform : samePlatform u t

theorem storedWord_setBytes {u : State} {pa : Nat} (v : Word) (h : ∀ k, k < 4 → platformAt u.cfg (pa + k) = none) :
    StoredWord pa (v.setWidth 32) u (u.setBytes pa (wordToBytes v 4)).advance := by
  have hlen : (wordToBytes v 4).length = 4 := wordToBytes_length v 4
  have hbyte : ∀ k, k < 4 → (u.setBytes pa (wordToBytes v 4)).byteAt (pa + k) = v.extractLsb' (8 * k) 8 := fun k hk => by
    rw [byteAt_setBytes_mem u pa _ k (by omega) (h k hk)]; simp [wordToBytes]
  have hout : ∀ a, a < pa ∨ pa + 4 ≤ a → (u.setBytes pa (wordToBytes v 4)).byteAt a = u.byteAt a := fun a ha =>
    byteAt_setBytes_out u pa _ a (by rwa [hlen])
  have hword : wordAt (u.setBytes pa (wordToBytes v 4)) pa = v.setWidth 32 := by
    have hfirst := hbyte 0 (by decide)
    rw [Nat.add_zero] at hfirst
    unfold wordAt
    rw [hbyte 3 (by decide), hbyte 2 (by decide), hbyte 1 (by decide), hfirst, ← low_word_bytes]
  obtain ⟨m, l, hset, hl⟩ := setBytes_plain (s := u) (a := pa) (bs := wordToBytes v 4) (by rwa [hlen])
  rw [hlen] at hl
  rw [hset] at hword hout ⊢
  exact ⟨hword, hout, hl, nextPc_eq u, fun _ => rfl, by simp [sameCsrs], by simp [sameWait], rfl, by simp [samePlatform]⟩

/-! ### `lw` and `sw` by the end of their address path -/

section
variable {s u : State} {rd rs1 rs2 : Reg} {imm : BitVec 12} {pa : Nat}

section
variable (ha : (s.effAddr rs1 imm).toNat % 4 = 0)
include ha

theorem execLw_aligned : exec (.lw rd rs1 imm) s =
    (loadPart 0 (s.effAddr rs1 imm) 4 s).finish fun v u => writeAdvance rd (sext s.cfg.xlen (v.setWidth 32)) u := by
  simp only [exec, execLw, memLoad, if_pos ha]

theorem execSw_aligned : exec (.sw rs2 rs1 imm) s =
    (storePart 0 (s.effAddr rs1 imm) 4 (((s.reg rs2).setWidth 32).setWidth 64) s).finish fun _ u => .next u.advance := by
  simp only [exec, execSw, memStore, if_pos ha]

theorem execLw_trap {e : Exc} {v : Word} (h : accessAddr (s.dataWalk 0) (s.effAddr rs1 imm) 4 .load s.effPriv s = .trap e v u) :
    exec (.lw rd rs1 imm) s = .next (raise e v u) := by
  rw [execLw_aligned ha, loadPart, h]; rfl

theorem execSw_trap {e : Exc} {v : Word} (h : accessAddr (s.dataWalk 0) (s.effAddr rs1 imm) 4 .store s.effPriv s = .trap e v u) :
    exec (.sw rs2 rs1 imm) s = .next (raise e v u) := by
  rw [execSw_aligned ha, storePart, h]; rfl

theorem execLw_of_refused {r : Refusal} (h : accessAddr (s.dataWalk 0) (s.effAddr rs1 imm) 4 .load s.effPriv s = .refused r) :
    exec (.lw rd rs1 imm) s = .refused r := by
  rw [execLw_aligned ha, loadPart, h]; rfl

theorem execSw_of_refused {r : Refusal} (h : accessAddr (s.dataWalk 0) (s.effAddr rs1 imm) 4 .store s.effPriv s = .refused r) :
    exec (.sw rs2 rs1 imm) s = .refused r := by
  rw [execSw_aligned ha, storePart, h]; rfl

theorem execLw_device {d : Nat} (h : accessAddr (s.dataWalk 0) (s.effAddr rs1 imm) 4 .load s.effPriv s = .done pa u)
    (hd : deviceIn s.cfg pa 4 = some d) : exec (.lw rd rs1 imm) s = .refused (.deviceRegion d) := by
  rw [← (accessFrame_of_accessAddr h).cfg] at hd
  rw [execLw_aligned ha, loadPart, h]
  simp only [Access.bind, PlatformStore.physRead_device hd]; rfl

theorem execSw_device {d : Nat} (h : accessAddr (s.dataWalk 0) (s.effAddr rs1 imm) 4 .store s.effPriv s = .done pa u)
    (hd : deviceIn s.cfg pa 4 = some d) : exec (.sw rs2 rs1 imm) s = .refused (.deviceRegion d) := by
  rw [← (accessFrame_of_accessAddr h).cfg] at hd
  rw [execSw_aligned ha, storePart, h]
  simp only [Access.bind, PlatformStore.physWrite_device _ hd]; rfl

/-- `lw` writes the sign-extended word at the physical address of its access. -/
theorem execLw_completes (h : accessAddr (s.dataWalk 0) (s.effAddr rs1 imm) 4 .load s.effPriv s = .done pa u)
    (hd : deviceIn s.cfg pa 4 = none) :
    ∃ t, exec (.lw rd rs1 imm) s = .next t ∧ wroteReg rd (modXlen s.cfg.xlen (wordAt u pa).toInt) u t := by
  have hcfg := (accessFrame_of_accessAddr h).cfg
  rw [← hcfg] at hd
  obtain ⟨v, hread, hv⟩ := physRead_word hd
  obtain ⟨t, ht, hwrote⟩ := writeAdvance_spec rd (sext s.cfg.xlen (wordAt u pa)) u
  have hval : u.cfg.xlen.wrap (sext s.cfg.xlen (wordAt u pa)) = modXlen s.cfg.xlen (wordAt u pa).toInt := by
    rw [hcfg, wrap_of_fits (fits_sext _ _), sext_eq_modXlen _ _ (by decide)]
  refine ⟨t, ?_, hval ▸ hwrote⟩
  rw [execLw_aligned ha, loadPart, h]
  simp only [Access.bind, hread, Access.finish, hv, ht]

/-- `sw` stores the low word of its register at the physical address of its access. -/
theorem execSw_completes (h : accessAddr (s.dataWalk 0) (s.effAddr rs1 imm) 4 .store s.effPriv s = .done pa u)
    (hd : deviceIn s.cfg pa 4 = none) (hp : ∀ k, k < 4 → platformAt s.cfg (pa + k) = none) :
    ∃ t, exec (.sw rs2 rs1 imm) s = .next t ∧ StoredWord pa ((s.reg rs2).setWidth 32) u t := by
  rw [← (accessFrame_of_accessAddr h).cfg] at hd hp
  have hw := PlatformStore.physWrite_allowed (((s.reg rs2).setWidth 32).setWidth 64) hd (mtimeIn_none hp)
  have hword := storedWord_setBytes (((s.reg rs2).setWidth 32).setWidth 64) hp
  rw [BitVec.setWidth_setWidth_of_le _ (by decide), BitVec.setWidth_eq] at hword
  refine ⟨_, ?_, hword⟩
  rw [execSw_aligned ha, storePart, h]
  simp only [Access.bind, hw, Access.finish]

end

/-- A misaligned access that hardware does not perform traps before anything else (R105). -/
theorem execLw_misaligned (ha : (s.effAddr rs1 imm).toNat % 4 ≠ 0) (hw : s.cfg.misalignedHw = false) :
    exec (.lw rd rs1 imm) s = .next (raise .loadAddressMisaligned (s.effAddr rs1 imm) s) := by
  simp [exec, execLw, memLoad, ha, hw, Access.finish]

theorem execSw_misaligned (ha : (s.effAddr rs1 imm).toNat % 4 ≠ 0) (hw : s.cfg.misalignedHw = false) :
    exec (.sw rs2 rs1 imm) s = .next (raise .storeAddressMisaligned (s.effAddr rs1 imm) s) := by
  simp [exec, execSw, memStore, ha, hw, Access.finish]

end

/-! ### The obligations -/

/-- Settles O15: the address path of an untranslated access leaves the state as it is. -/
theorem loadWordResult : Obligations.LoadWordResult := by
  unfold Obligations.LoadWordResult
  rintro s rd rs1 imm va rfl
  rw [← effAddr_eq]
  exact fun ha hu hp hd => execLw_completes ha (PlatformStore.accessAddr_untranslated _ hu hp) hd

/-- Settles O16: the store of `sw` is that of four bytes of plain memory. -/
theorem storeWordResult : Obligations.StoreWordResult := by
  unfold Obligations.StoreWordResult
  rintro s rs1 rs2 imm va rfl
  rw [← effAddr_eq]
  intro ha hu hp hd hplain
  obtain ⟨t, hexec, ⟨word, bytes, stored, pc, regs, csrs, wait, cache, platform⟩⟩ :=
    execSw_completes (rs2 := rs2) ha (PlatformStore.accessAddr_untranslated _ hu hp) hd hplain
  exact ⟨t, hexec, word, bytes, stored, pc, regs, csrs, wait, cache, platform⟩

/-- Settles O18: what the instruction does at the physical address, and what the walk before it left. -/
theorem translatedAccess : Obligations.TranslatedAccess := by
  unfold Obligations.TranslatedAccess
  rintro s rd rs1 rs2 imm va sch rfl
  rw [← effAddr_eq]
  intro ha hm hs
  refine ⟨fun pa u ht hp => ?_, fun pa u ht hp => ?_, fun r ht => execLw_of_refused ha (accessAddr_translated_refused hm hs ht),
    fun r ht => execSw_of_refused ha (accessAddr_translated_refused hm hs ht)⟩
  · have haddr := accessAddr_translated_done hm hs ht hp
    have f := accessFrame_of_translate ht
    refine ⟨fun hd => ?_, fun d hd => execLw_device ha haddr hd⟩
    obtain ⟨t, hexec, hrd, hregs, hpc, hcsrs, hwait, -, -, hmem, -⟩ := execLw_completes (rd := rd) ha haddr hd
    exact ⟨t, hexec, hrd, fun r hr => (hregs r hr).trans (f.reg r), hpc.trans (following_of_accessFrame f),
      sameCsrs_trans f.sameCsrs hcsrs, sameWait_trans (sameWait_of_accessFrame f) hwait,
      fun a hb => (hmem a).trans (byteAt_of_translate ht hb)⟩
  · have haddr := accessAddr_translated_done hm hs ht hp
    have f := accessFrame_of_translate ht
    refine ⟨fun hd hplain => ?_, fun d hd => execSw_device ha haddr hd⟩
    obtain ⟨t, hexec, h⟩ := execSw_completes (rs2 := rs2) ha haddr hd hplain
    exact ⟨t, hexec, h.word, fun r => (h.regs r).trans (f.reg r), h.pc.trans (following_of_accessFrame f),
      sameCsrs_trans f.sameCsrs h.csrs, sameWait_trans (sameWait_of_accessFrame f) h.wait,
      fun a hout hb => (h.bytes a hout).trans (byteAt_of_translate ht hb)⟩

/-- Settles O19: each trap is the one the address path ends in, or the alignment check before it. -/
theorem loadStoreTraps : Obligations.LoadStoreTraps := by
  unfold Obligations.LoadStoreTraps
  rintro s rd rs1 rs2 imm va rfl
  rw [← effAddr_eq]
  refine ⟨fun ha hw => ⟨⟨_, execLw_misaligned ha hw, trapped_raise _ _ _⟩, ⟨_, execSw_misaligned ha hw, trapped_raise _ _ _⟩⟩,
    fun ha hu => ⟨fun hp => ⟨_, execLw_trap ha (accessAddr_denied _ hu hp), trapped_raise _ _ _⟩,
      fun hp => ⟨_, execSw_trap ha (accessAddr_denied _ hu hp), trapped_raise _ _ _⟩⟩,
    fun ha hm sch hs => ⟨fun e v u ht => ?_, fun e v u ht => ?_, fun pa u ht hp => ?_, fun pa u ht hp => ?_⟩⟩
  · obtain ⟨f, he, rfl⟩ := pathTrap_of_translate ht
    exact ⟨he.symm, sameMemory_of_translate ht, _, execLw_trap ha (accessAddr_translated_trap hm hs ht), trappedAfter_raise f _ _⟩
  · obtain ⟨f, he, rfl⟩ := pathTrap_of_translate ht
    exact ⟨he.symm, sameMemory_of_translate ht, _, execSw_trap ha (accessAddr_translated_trap hm hs ht), trappedAfter_raise f _ _⟩
  · exact ⟨_, execLw_trap ha (accessAddr_translated_denied hm hs ht hp), trappedAfter_raise (accessFrame_of_translate ht) _ _,
      fun a hb => (byteAt_raise _ _ u a).trans (byteAt_of_translate ht hb)⟩
  · exact ⟨_, execSw_trap ha (accessAddr_translated_denied hm hs ht hp), trappedAfter_raise (accessFrame_of_translate ht) _ _,
      fun a hb => (byteAt_raise _ _ u a).trans (byteAt_of_translate ht hb)⟩

end Sys2Proof.Proofs.LoadStore

/-! PROOF of O20. A misaligned access that hardware performs is one access to each byte, in some order that names each byte; each byte
access is untranslated and allowed, whatever the ones before it stored. -/

namespace Sys2Proof.Proofs.MisalignedAccess
open Sys2Proof Sys2Proof.Machine Sys2Proof.Proofs.AccessPath Sys2Proof.Proofs.LoadStore

/-! ### The addresses of the bytes -/

/-- The address of a byte of the access: a sum modulo 2^XLEN (R106). -/
theorem wrap_add_ofNat (x : Xlen) (va : Word) (k : Nat) : x.wrap (va + BitVec.ofNat 64 k) = modXlen x (unsigned va + k) := by
  apply wrap_eq_modXlen
  have hk : ((BitVec.ofNat 64 k).toNat : Int) % 2 ^ x.bits = (k : Int) % 2 ^ x.bits := by
    rw [BitVec.toNat_ofNat]; push_cast; exact Int.emod_emod_of_dvd _ (pow_bits_dvd x)
  rw [add_emod, Int.add_emod, hk, ← Int.add_emod]; rfl

/-- The four bytes of an access have four addresses. -/
theorem byteAddress_inj {x : Xlen} {va : Word} {i k : Nat} (hi : i < 4) (hk : k < 4)
    (h : (modXlen x (unsigned va + i)).toNat = (modXlen x (unsigned va + k)).toNat) : i = k := by
  have hi' := modXlen_toNat x (unsigned va + i)
  have hk' := modXlen_toNat x (unsigned va + k)
  rw [h] at hi'
  cases x <;> norm_num only [Xlen.bits] at hi' hk' <;> omega

theorem mem_byteOrder (s : State) (n k : Nat) : k ∈ byteOrder s n ↔ k < n := by
  refine ⟨byteOrder_lt s n k, fun hk => ?_⟩
  unfold byteOrder
  simp only [List.mem_append, List.mem_filter, List.mem_range, decide_eq_true_eq]
  exact (em _).imp_right fun hnot => ⟨hk, hnot⟩

/-! ### One byte -/

/-- An access of the kind to the byte at physical address `a` is neither translated, denied nor refused as a device. -/
structure BytePasses (s : State) (kind : AccessKind) (a : Nat) : Prop where
  untranslated : untranslated s s.effPriv
  allowed : physAllowed s a 1 kind s.effPriv = true
  memory : deviceIn s.cfg a 1 = none

theorem physAllowed_of_accessFrame {s t : State} (f : AccessFrame s t) (pa n : Nat) (kind : AccessKind) (ep : Priv) :
    physAllowed t pa n kind ep = physAllowed s pa n kind ep := by
  have h : ∀ l, pmpDecide t pa n kind ep l = pmpDecide s pa n kind ep l := by
    intro l
    rw [f.core]
    induction l with
    | nil => rfl
    | cons i rest ih => unfold pmpDecide; rw [ih]; rfl
  unfold physAllowed pmpCheck; rw [h, f.cfg]

/-- What an access leaves does not decide whether later accesses pass. -/
theorem BytePasses.of_accessFrame {s t : State} {kind : AccessKind} {a : Nat} (h : BytePasses s kind a) (f : AccessFrame s t) :
    BytePasses t kind a := by
  have hep : t.effPriv = s.effPriv := by unfold State.effPriv; rw [f.mstatus, f.priv]
  refine ⟨?_, by rw [physAllowed_of_accessFrame f, hep]; exact h.allowed, by rw [f.cfg]; exact h.memory⟩
  rw [hep, f.core]; exact h.untranslated

theorem loadPart_byte {s : State} {va : Word} (h : BytePasses s .load va.toNat) (j : Nat) :
    ∃ v, loadPart j va 1 s = .done v s ∧ v.setWidth 8 = s.byteAt va.toNat := by
  refine ⟨(s.byteAt va.toNat).setWidth 64, ?_, by simp⟩
  simp [loadPart, PlatformStore.accessAddr_untranslated _ h.untranslated h.allowed, Access.bind, physRead, h.memory, bytesToWord]

theorem storePart_byte {s : State} {va : Word} (h : BytePasses s .store va.toNat) (hplain : platformAt s.cfg va.toNat = none) (j : Nat)
    (b : Byte) : storePart j va 1 (b.setWidth 64) s = .done () (s.setByte va.toNat b) := by
  have hw := PlatformStore.physWrite_allowed (n := 1) (b.setWidth 64) h.memory
    (mtimeIn_none fun k hk => by rw [Nat.lt_one_iff.1 hk]; exact hplain)
  have hb : (b.setWidth 64).extractLsb' 0 8 = b := by
    rw [← BitVec.setWidth_eq_extractLsb' (by decide), BitVec.setWidth_setWidth_of_le _ (by decide), BitVec.setWidth_eq]
  simp [hb, storePart, PlatformStore.accessAddr_untranslated _ h.untranslated h.allowed, Access.bind, hw, wordToBytes, State.setBytes]

/-! ### The bytes one after another -/

section
variable {va : Word} {p : Nat → Nat}

/-- The byte loads put the bytes at their addresses into the bytes of the result, and leave the state as it is. -/
theorem loadBytes_passing {s : State} (hp : ∀ k, p k = (s.cfg.xlen.wrap (va + BitVec.ofNat 64 k)).toNat) {ks : List Nat} (acc : Word)
    (j : Nat) (hks : ∀ k ∈ ks, k < 8 ∧ BytePasses s .load (p k)) :
    ∃ v, loadBytes va j ks acc s = .done v s ∧
      ∀ i, i < 8 → v.extractLsb' (8 * i) 8 = if i ∈ ks then s.byteAt (p i) else acc.extractLsb' (8 * i) 8 := by
  induction ks generalizing acc j with
  | nil => exact ⟨acc, rfl, fun i _ => by simp⟩
  | cons k rest ih =>
    obtain ⟨hk, hpass⟩ := hks k List.mem_cons_self
    obtain ⟨b, hload, hb⟩ := loadPart_byte (hp k ▸ hpass) j
    obtain ⟨v, hrest, hv⟩ := ih (withByte acc k (b.setWidth 8)) (j + 1) fun k' hk' => hks k' (List.mem_cons_of_mem k hk')
    refine ⟨v, by simp only [loadBytes, hload, Access.bind, hrest], fun i hi => ?_⟩
    rw [hv i hi, extract_withByte _ _ _ _ hk hi, hb, ← hp k]
    by_cases hmem : i ∈ rest
    · simp [hmem]
    · by_cases hik : i = k <;> simp [hmem, hik]

/-- The byte stores put the bytes of the value at their addresses, and change no other byte. -/
theorem storeBytes_passing {s : State} (hp : ∀ k, p k = (s.cfg.xlen.wrap (va + BitVec.ofNat 64 k)).toNat) {ks : List Nat} (v : Word)
    (j : Nat) (hks : ∀ k ∈ ks, BytePasses s .store (p k) ∧ platformAt s.cfg (p k) = none)
    (hinj : ∀ i ∈ ks, ∀ k ∈ ks, p i = p k → i = k) :
    ∃ t, storeBytes va v j ks s = .done () t ∧ AccessFrame s t ∧ (∀ k ∈ ks, t.byteAt (p k) = v.extractLsb' (8 * k) 8) ∧
      ∀ a, (∀ k ∈ ks, a ≠ p k) → t.byteAt a = s.byteAt a := by
  induction ks generalizing j s with
  | nil => exact ⟨s, rfl, .refl s, by simp, fun _ _ => rfl⟩
  | cons k rest ih =>
    obtain ⟨hpass, hplain⟩ := hks k List.mem_cons_self
    have hstore := storePart_byte (hp k ▸ hpass) (hp k ▸ hplain) j (v.extractLsb' (8 * k) 8)
    rw [← hp k] at hstore
    have f := accessFrame_setByte s (p k) (v.extractLsb' (8 * k) 8)
    obtain ⟨t, hrest, ft, hin, hout⟩ := ih (s := s.setByte (p k) (v.extractLsb' (8 * k) 8)) (by rw [f.cfg]; exact hp) (j + 1)
      (fun i hi => by
        obtain ⟨hi1, hi2⟩ := hks i (List.mem_cons_of_mem k hi)
        exact ⟨hi1.of_accessFrame f, by rw [f.cfg]; exact hi2⟩)
      (fun i hi k' hk' => hinj i (List.mem_cons_of_mem k hi) k' (List.mem_cons_of_mem k hk'))
    refine ⟨t, by simp only [storeBytes, hstore, Access.bind, hrest], f.trans ft, fun i hi => ?_, fun a ha => ?_⟩
    · by_cases hmem : i ∈ rest
      · exact hin i hmem
      · obtain rfl : i = k := (List.mem_cons.1 hi).resolve_right hmem
        rw [hout _ fun k' hk' he => hmem (hinj _ List.mem_cons_self k' (List.mem_cons_of_mem _ hk') he ▸ hk'),
          byteAt_setByte_mem s _ _ hplain]
    · rw [hout a fun k' hk' => ha k' (List.mem_cons_of_mem k hk'), byteAt_setByte_ne s _ _ a (ha k List.mem_cons_self)]

end

/-! ### The instructions -/

section
variable {s : State} {rd rs1 rs2 : Reg} {imm : BitVec 12} {p : Nat → Nat} (ha : (s.effAddr rs1 imm).toNat % 4 ≠ 0)
  (hw : s.cfg.misalignedHw = true) (hp : ∀ k, p k = (modXlen s.cfg.xlen (unsigned (s.effAddr rs1 imm) + k)).toNat)
include ha hw hp

theorem execLw_byHardware (hpass : ∀ k, k < 4 → BytePasses s .load (p k)) :
    ∃ t, exec (.lw rd rs1 imm) s = .next t ∧
      wroteReg rd (modXlen s.cfg.xlen (s.byteAt (p 3) ++ (s.byteAt (p 2) ++ (s.byteAt (p 1) ++ s.byteAt (p 0)))).toInt) s t := by
  obtain ⟨v, hload, hv⟩ := loadBytes_passing (va := s.effAddr rs1 imm) (ks := byteOrder s 4) (fun k => by rw [wrap_add_ofNat, hp k]) 0#64 0
    fun k hk => ⟨by have := byteOrder_lt s 4 k hk; omega, hpass k (byteOrder_lt s 4 k hk)⟩
  have hbyte : ∀ k, k < 4 → s.byteAt (p k) = v.extractLsb' (8 * k) 8 := fun k hk => by
    rw [hv k (by omega), if_pos ((mem_byteOrder s 4 k).2 hk)]
  obtain ⟨t, ht, hwrote⟩ := writeAdvance_spec rd (sext s.cfg.xlen (v.setWidth 32)) s
  rw [wrap_of_fits (fits_sext _ _), sext_eq_modXlen _ _ (by decide), ← low_word_bytes] at hwrote
  rw [hbyte 0 (by decide), hbyte 1 (by decide), hbyte 2 (by decide), hbyte 3 (by decide)]
  refine ⟨t, ?_, hwrote⟩
  simp only [exec, execLw, memLoad, if_neg ha, hw, if_true, hload, Access.finish, ht]

theorem execSw_byHardware (hpass : ∀ k, k < 4 → BytePasses s .store (p k)) (hplain : ∀ k, k < 4 → platformAt s.cfg (p k) = none) :
    ∃ u, exec (.sw rs2 rs1 imm) s = .next u.advance ∧ AccessFrame s u ∧
      (u.byteAt (p 3) ++ (u.byteAt (p 2) ++ (u.byteAt (p 1) ++ u.byteAt (p 0)))) = (s.reg rs2).setWidth 32 ∧
      ∀ a, (∀ k, k < 4 → a ≠ p k) → u.byteAt a = s.byteAt a := by
  have horder := mem_byteOrder s 4
  obtain ⟨u, hstore, f, hin, hout⟩ := storeBytes_passing (va := s.effAddr rs1 imm) (ks := byteOrder s 4)
    (fun k => by rw [wrap_add_ofNat, hp k]) (((s.reg rs2).setWidth 32).setWidth 64) 0
    (fun k hk => ⟨hpass k ((horder k).1 hk), hplain k ((horder k).1 hk)⟩)
    (fun i hi k hk he => byteAddress_inj ((horder i).1 hi) ((horder k).1 hk) (by rw [← hp, ← hp]; exact he))
  refine ⟨u, ?_, f, ?_, fun a hne => hout a fun k hk => hne k ((horder k).1 hk)⟩
  · simp only [exec, execSw, memStore, if_neg ha, hw, if_true, hstore, Access.finish]
  · have hbyte := fun k hk => hin k ((horder k).2 hk)
    rw [hbyte 0 (by decide), hbyte 1 (by decide), hbyte 2 (by decide), hbyte 3 (by decide), low_word_bytes,
      BitVec.setWidth_setWidth_of_le _ (by decide), BitVec.setWidth_eq]

end

/-- Settles O20: the byte accesses of each instruction, whose order names each of the four bytes. -/
theorem misalignedByHardware : Obligations.MisalignedByHardware := by
  unfold Obligations.MisalignedByHardware
  rintro s rd rs1 rs2 imm va p rfl
  rw [← effAddr_eq]
  intro ha hw hu hp hd
  refine ⟨fun hallowed => execLw_byHardware ha hw hp fun k hk => ⟨hu, hallowed k hk, hd k hk⟩, fun hallowed hplain => ?_⟩
  obtain ⟨u, hexec, f, hword, hout⟩ := execSw_byHardware (rs2 := rs2) ha hw hp (fun k hk => ⟨hu, hallowed k hk, hd k hk⟩) hplain
  obtain ⟨hpc, hregs, hcsrs, hwait, -⟩ := movedTo_advance u
  exact ⟨u.advance, hexec, hword, hout, hpc.trans (following_of_accessFrame f), fun r => (hregs r).trans (f.reg r),
    sameCsrs_trans f.sameCsrs hcsrs, sameWait_trans (sameWait_of_accessFrame f) hwait⟩

end Sys2Proof.Proofs.MisalignedAccess

/-! PROOFS of O6 and O22. What the fetch of an instruction does follows from how its address path ends (`AccessPath`). -/

namespace Sys2Proof.Proofs.InstructionFetch
open Sys2Proof Sys2Proof.Machine Sys2Proof.Proofs.AccessPath

/-! ### The fetch by the end of its address path -/

section
variable {s u : State} {pa : Nat}

theorem runInstruction_trap {e : Exc} {v : Word} (h : accessAddr s.now.fetchWalk s.pc 4 .fetch s.priv s = .trap e v u) :
    runInstruction s = .next (raise e v u) := by
  rw [runInstruction, fetch, h]; rfl

theorem runInstruction_refused {r : Refusal} (h : accessAddr s.now.fetchWalk s.pc 4 .fetch s.priv s = .refused r) :
    runInstruction s = .refused r := by
  rw [runInstruction, fetch, h]; rfl

variable (h : accessAddr s.now.fetchWalk s.pc 4 .fetch s.priv s = .done pa u)
include h

theorem runInstruction_stored {a : Nat} (hst : storedIn u pa 4 = some a) : runInstruction s = .refused (.fetchOfStoredLocation a) := by
  rw [runInstruction, fetch, h]; simp only [Access.bind, hst, Access.finish]

theorem runInstruction_device {d : Nat} (hst : storedIn u pa 4 = none) (hd : deviceIn s.cfg pa 4 = some d) :
    runInstruction s = .refused (.deviceRegion d) := by
  rw [← (accessFrame_of_accessAddr h).cfg] at hd
  rw [runInstruction, fetch, h]; simp only [Access.bind, hst, PlatformStore.physRead_device hd, Access.finish]

/-- A fetch that is neither refused nor trapped reads the word at its physical address. -/
theorem runInstruction_word (hst : storedIn u pa 4 = none) (hd : deviceIn u.cfg pa 4 = none) :
    runInstruction s = execWord (wordAt u pa) u := by
  obtain ⟨v, hread, hv⟩ := physRead_word hd
  rw [runInstruction, fetch, h]; simp only [Access.bind, hst, hread, Access.finish, hv]

end

/-- The bytes an instruction decodes from are those of the word read (R104, R180). -/
theorem decode_of_decodeBytes {x : Xlen} {b0 b1 b2 b3 : Byte} {i : Instr} (h : decodeBytes x [b0, b1, b2, b3] = .ok (i, [])) :
    decode x (b3 ++ (b2 ++ (b1 ++ b0))) = .ok i := by
  simp only [decodeBytes] at h
  split at h
  · next hdec => cases h; exact hdec
  · cases h

theorem execWord_decoded {w : BitVec 32} {s : State} {i : Instr} (h : decode s.cfg.xlen w = .ok i) : execWord w s = exec i s := by
  unfold execWord; rw [h]

/-! ### The step of a hart that does not wait -/

theorem hartStep_awake {u : State} (h : u.waiting = false) : hartStep u = atBoundary u := by
  simp [hartStep, h]

theorem atBoundary_runs {u : State} (h : u.selectIrq = none ∨ u.now.takeInterrupt = false) : atBoundary u = runInstruction u := by
  unfold atBoundary
  rcases h with hnone | hno
  · rw [hnone]
  · split
    · rw [hno]; rfl
    · rfl

theorem atBoundary_interrupt {u : State} {j : Irq} (h : u.selectIrq = some j) (ht : u.now.takeInterrupt = true) :
    atBoundary u = .next (takeTrap (.irq j) 0#64 u.pc u) := by
  unfold atBoundary; rw [h]; simp [ht]

/-- Settles O6: the step is the hart's after the environment's move, and the fetch leaves the registers as they were. -/
theorem stepRunsInstruction : Obligations.StepRunsInstruction := by
  unfold Obligations.StepRunsInstruction
  rintro s u rfl hawake
  have hstep : Machine.step s = atBoundary (environment (drawChoices s)) := hartStep_awake hawake
  rw [hstep]
  refine ⟨fun hrun pa v i haddr hst hd hdec => ?_, fun j hj htake => atBoundary_interrupt hj htake⟩
  have f := accessFrame_of_accessAddr haddr
  rw [atBoundary_runs hrun, runInstruction_word haddr hst hd]
  exact ⟨execWord_decoded (decode_of_decodeBytes hdec), f.sameRegs, f.sameCsrs, sameWait_of_accessFrame f, f.pc⟩

/-- Settles O22: each trap or refusal is the one the address path ends in, or that of the checks on the physical address after it. -/
theorem fetchFaults : Obligations.FetchFaults := by
  unfold Obligations.FetchFaults
  refine fun s => ⟨fun hu => ⟨fun hp => ?_, fun hp => ?_⟩,
    fun hm sch hs => ⟨fun e v u ht => ?_, fun r ht => runInstruction_refused (accessAddr_translated_refused hm hs ht),
      fun pa u ht => ⟨fun hp => ?_, fun hp => ?_⟩⟩⟩
  · exact ⟨_, runInstruction_trap (accessAddr_denied _ hu hp), trapped_raise _ _ s⟩
  · have haddr := PlatformStore.accessAddr_untranslated s.now.fetchWalk hu hp
    exact ⟨fun a hst => runInstruction_stored haddr hst, fun hst d hd => runInstruction_device haddr hst hd⟩
  · obtain ⟨f, he, rfl⟩ := pathTrap_of_translate ht
    exact ⟨he.symm, sameMemory_of_translate ht, _, runInstruction_trap (accessAddr_translated_trap hm hs ht), trappedAfter_raise f _ _⟩
  · exact ⟨_, runInstruction_trap (accessAddr_translated_denied hm hs ht hp), trappedAfter_raise (accessFrame_of_translate ht) _ _,
      fun a hb => (byteAt_raise _ _ u a).trans (byteAt_of_translate ht hb)⟩
  · have haddr := accessAddr_translated_done hm hs ht hp
    exact ⟨fun a hst => runInstruction_stored haddr hst, fun hst d hd => runInstruction_device haddr hst hd⟩

end Sys2Proof.Proofs.InstructionFetch

/-! PROOF of O47. The region of an entry is the set of bytes that it covers; the scan of the entries passes over those that cover no byte
of the access, and the first other one decides. -/

namespace Sys2Proof.Proofs.PmpDecision
open Sys2Proof Sys2Proof.Machine

/-! ### The trailing ones of an address register (R122) -/

/-- Appending a 1 bit to a number puts a 1 bit below its trailing ones. -/
theorem odd_eq_iff {a q k : Nat} (h : a % 2 = 1) : a = q * 2 ^ (k + 2) + (2 ^ (k + 1) - 1) ↔ a / 2 = q * 2 ^ (k + 1) + (2 ^ k - 1) := by
  have hpos := Nat.two_pow_pos k
  have h1 : 2 ^ (k + 1) = 2 * 2 ^ k := by ring
  have h2 : q * 2 ^ (k + 2) = 2 * (q * 2 ^ (k + 1)) := by ring
  omega

/-- A number that ends in a 0 bit and `k` 1 bits has `k` trailing ones, and the bits above those are its quotient. -/
theorem trailingOnes_iff {fuel a : Nat} (h : a < 2 ^ fuel) (k q : Nat) :
    a = q * 2 ^ (k + 1) + (2 ^ k - 1) ↔ k = trailingOnes fuel a ∧ q = a / 2 ^ (k + 1) := by
  induction fuel generalizing a k with
  | zero =>
    obtain rfl : a = 0 := by omega
    have hpow : 2 ^ k = 1 ↔ k = 0 := by simp
    have hpos := Nat.two_pow_pos k
    have hq : q * 2 ^ (k + 1) = 0 ↔ q = 0 := by simp
    simp only [trailingOnes, Nat.zero_div]
    omega
  | succ fuel ih =>
    unfold trailingOnes
    rcases Nat.mod_two_eq_zero_or_one a with heven | hodd
    · rw [if_neg (by omega)]
      cases k with
      | zero => simp only [zero_add, pow_one, pow_zero, true_and]; omega
      | succ k =>
        have hpos := Nat.two_pow_pos k
        have h1 : 2 ^ (k + 1) = 2 * 2 ^ k := by ring
        have h2 : q * 2 ^ (k + 1 + 1) = 2 * (q * 2 ^ (k + 1)) := by ring
        omega
    · rw [if_pos hodd]
      cases k with
      | zero => simp only [zero_add, pow_one, pow_zero]; omega
      | succ k =>
        rw [odd_eq_iff hodd, ih (by omega), Nat.div_div_eq_div_mul, ← Nat.pow_succ', Nat.add_right_cancel_iff]

/-! ### The bytes an entry covers -/

/-- The field A of each matching mode (R57). -/
def matchField : PmpMatch → BitVec 2
  | .off => 0#2
  | .tor => 1#2
  | .na4 => 2#2
  | .napot => 3#2

theorem extract_pmpMatch (b : Byte) : b.extractLsb' 3 2 = matchField (pmpMatch b) := by
  revert b; decide

/-- The aligned region of 2^(k+3) bytes that an address register with `k` trailing ones names (R122). -/
theorem napot_region {v : Nat} (hv : v < 2 ^ 64) (a : Nat) :
    (∃ k q, v = q * 2 ^ (k + 1) + (2 ^ k - 1) ∧ a / 2 ^ (k + 3) = q) ↔
      4 * (v - v % 2 ^ (trailingOnes 64 v + 1)) ≤ a ∧
        a < 4 * (v - v % 2 ^ (trailingOnes 64 v + 1)) + 2 ^ (trailingOnes 64 v + 3) := by
  simp only [trailingOnes_iff hv]
  generalize trailingOnes 64 v = k
  have hlow : 4 * (v - v % 2 ^ (k + 1)) = v / 2 ^ (k + 1) * 2 ^ (k + 3) := by
    have hdiv : v - v % 2 ^ (k + 1) = 2 ^ (k + 1) * (v / 2 ^ (k + 1)) := by have := Nat.div_add_mod v (2 ^ (k + 1)); omega
    rw [hdiv]; ring
  have hsame : (∃ k' q, (k' = k ∧ q = v / 2 ^ (k' + 1)) ∧ a / 2 ^ (k' + 3) = q) ↔ a / 2 ^ (k + 3) = v / 2 ^ (k + 1) :=
    ⟨by rintro ⟨_, _, ⟨rfl, rfl⟩, h⟩; exact h, fun h => ⟨k, _, ⟨rfl, rfl⟩, h⟩⟩
  rw [hsame, hlow, Nat.div_eq_iff (Nat.two_pow_pos _)]
  have hpos := Nat.two_pow_pos (k + 3)
  omega

/-- The region of an entry is the set of the bytes it covers; an entry that is off covers none (R121, R122). -/
theorem pmpCovers_iff (s : State) (i a : Nat) : pmpCovers s i a ↔ (pmpRegion s i).1 ≤ a ∧ a < (pmpRegion s i).2 := by
  unfold pmpCovers pmpRegion
  rw [extract_pmpMatch]
  cases pmpMatch (s.pmpCfg i) with
  | off => simp [matchField]
  | tor =>
    by_cases hi : i = 0
    · simp [matchField, hi]
    · simp [matchField, hi]
  | na4 => simp only [matchField, BitVec.reduceEq, false_and, true_and, or_false, false_or]; omega
  | napot =>
    simp only [matchField, BitVec.reduceEq, false_and, true_and, false_or]
    exact napot_region (s.pmpAddr i).isLt a

/-! ### How many bytes of an access a region holds -/

theorem bytesInside_eq_zero_iff (lo hi pa : Nat) {n : Nat} :
    bytesInside lo hi pa n = 0 ↔ ∀ a, pa ≤ a → a < pa + n → ¬(lo ≤ a ∧ a < hi) := by
  unfold bytesInside
  refine ⟨fun h a h1 h2 => by omega, fun h => ?_⟩
  have := h (max lo pa)
  omega

theorem bytesInside_lt_iff (lo hi pa : Nat) {n : Nat} (hn : 0 < n) :
    bytesInside lo hi pa n < n ↔ ¬∀ a, pa ≤ a → a < pa + n → lo ≤ a ∧ a < hi := by
  unfold bytesInside
  refine ⟨fun h hall => ?_, fun h => ?_⟩
  · have hfirst := hall pa
    have hlast := hall (pa + n - 1)
    omega
  · by_contra hge
    exact h fun a h1 h2 => by omega

/-! ### The scan of the entries -/

section
variable {s : State} {pa n : Nat} (kind : AccessKind) (ep : Priv)

/-- An entry that covers no byte of the access is passed over (R123). -/
theorem pmpDecide_skip {i : Nat} {rest : List Nat} (h : ∀ a, pa ≤ a → a < pa + n → ¬pmpCovers s i a) :
    pmpDecide s pa n kind ep (i :: rest) = pmpDecide s pa n kind ep rest := by
  simp only [pmpCovers_iff] at h
  exact if_pos (Or.inr ((bytesInside_eq_zero_iff _ _ _).2 h))

theorem pmpDecide_skips {pre rest : List Nat} (h : ∀ i ∈ pre, ∀ a, pa ≤ a → a < pa + n → ¬pmpCovers s i a) :
    pmpDecide s pa n kind ep (pre ++ rest) = pmpDecide s pa n kind ep rest := by
  induction pre with
  | nil => rfl
  | cons i pre ih =>
    rw [List.cons_append, pmpDecide_skip kind ep (h i List.mem_cons_self), ih fun j hj => h j (List.mem_cons_of_mem i hj)]

/-- An entry that covers a byte of the access decides it (R123 to R125). -/
theorem pmpDecide_first {i : Nat} {rest : List Nat} (hn : 0 < n) (h : ∃ a, pa ≤ a ∧ a < pa + n ∧ pmpCovers s i a) :
    pmpDecide s pa n kind ep (i :: rest) = true ↔
      (∀ a, pa ≤ a → a < pa + n → pmpCovers s i a) ∧
      ((ep = .M ∧ (s.pmpCfg i).getLsbD 7 = false) ∨ pmpBitFor (s.pmpCfg i) kind = true) := by
  have hpermits : pmpPermits (s.pmpCfg i) kind = pmpBitFor (s.pmpCfg i) kind := by cases kind <;> rfl
  obtain ⟨a, hlo, hhi, hcovers⟩ := h
  simp only [pmpCovers_iff] at hcovers ⊢
  have hon : pmpMatch (s.pmpCfg i) ≠ .off := fun hoff => by simp [pmpRegion, hoff] at hcovers
  have hsome : bytesInside (pmpRegion s i).1 (pmpRegion s i).2 pa n ≠ 0 := fun hzero =>
    (bytesInside_eq_zero_iff _ _ _).1 hzero a hlo hhi hcovers
  unfold pmpDecide
  dsimp only
  rw [if_neg (not_or.2 ⟨hon, hsome⟩), hpermits]
  by_cases hpart : bytesInside (pmpRegion s i).1 (pmpRegion s i).2 pa n < n
  · simp only [if_pos hpart, (bytesInside_lt_iff _ _ _ hn).1 hpart, Bool.false_eq_true, false_and]
  · have hall := not_not.1 (mt (bytesInside_lt_iff _ _ _ hn).2 hpart)
    rw [if_neg hpart, and_iff_right hall]
    by_cases hmachine : ep = .M ∧ pmpL (s.pmpCfg i) = false
    · simp only [if_pos hmachine, true_iff]; exact .inl hmachine
    · rw [if_neg hmachine]; exact (or_iff_right hmachine).symm

end

/-- The entries below `n` are those below `i`, then `i`, then others. -/
theorem range_split {i n : Nat} (h : i < n) : ∃ rest, List.range n = List.range i ++ i :: rest := by
  obtain ⟨m, rfl⟩ := Nat.exists_eq_add_of_lt h
  rw [Nat.add_assoc, List.range_add, List.range_succ_eq_map]
  exact ⟨_, rfl⟩

/-- Settles O47: the scan passes over the entries before the first that covers a byte, and over all of them where none does. -/
theorem pmpDecision : Obligations.PmpDecision := by
  unfold Obligations.PmpDecision
  intro s pa n kind ep hn hcount
  have hcheck : 0 < s.cfg.pmpCount → pmpCheck s pa n kind ep = pmpDecide s pa n kind ep (List.range s.cfg.pmpCount) := fun hpos => by
    unfold pmpCheck
    rw [if_neg (by omega), Nat.min_eq_left hcount]
  refine ⟨fun hzero => if_pos hzero, fun hpos hnone => ?_, fun i hi hfirst hbefore => ?_⟩
  · rw [hcheck hpos, ← List.append_nil (List.range s.cfg.pmpCount),
      pmpDecide_skips kind ep fun i hi a => hnone i a (List.mem_range.1 hi)]
    rfl
  · obtain ⟨rest, hrange⟩ := range_split hi
    rw [hcheck (by omega), hrange, pmpDecide_skips kind ep fun j hj a => hbefore j a (List.mem_range.1 hj)]
    exact pmpDecide_first kind ep hn hfirst

end Sys2Proof.Proofs.PmpDecision

/-! PROOF of O49. A walk that draws no cached entry reads each entry from memory and changes nothing but the translation cache until it
reaches a leaf; the pointers in memory lead it to the entry that decides, and that entry's fields decide. -/

namespace Sys2Proof.Proofs.PageWalk
open Sys2Proof Sys2Proof.Machine Sys2Proof.Proofs.AccessPath

/-! ### The value of bytes in memory (20_memory.md R104) -/

theorem bytesToWord_cons_toNat (b : Byte) {bs : List Byte} (h : bs.length ≤ 7) :
    (bytesToWord (b :: bs)).toNat = b.toNat + 256 * (bytesToWord bs).toNat := by
  have hb := b.isLt
  have hbs : (bytesToWord bs).toNat < 2 ^ 56 := lt_of_lt_of_le fits_bytesToWord (Nat.pow_le_pow_right (by decide) (by omega))
  have hlow : (b.setWidth 64).toNat = b.toNat := by rw [BitVec.toNat_setWidth]; omega
  have hhigh : (bytesToWord bs <<< 8).toNat = 2 ^ 8 * (bytesToWord bs).toNat := by
    rw [BitVec.toNat_shiftLeft, Nat.shiftLeft_eq]; omega
  rw [bytesToWord, BitVec.toNat_or, hlow, hhigh, Nat.or_comm, ← Nat.two_pow_add_eq_or_of_lt hb, Nat.add_comm]

/-- A page-table entry is the little-endian value of its bytes. -/
theorem bytesToWord_toNat (s : State) {n : Nat} (hn : n ≤ 8) (a : Nat) :
    (bytesToWord ((List.range n).map fun k => s.byteAt (a + k))).toNat = littleEndian s n a := by
  induction n generalizing a with
  | zero => rfl
  | succ n ih =>
    have htail : (List.range n).map ((fun k => s.byteAt (a + k)) ∘ Nat.succ) = (List.range n).map fun k => s.byteAt (a + 1 + k) :=
      List.map_congr_left fun k _ => congrArg s.byteAt (Nat.add_right_comm a k 1 ▸ rfl)
    rw [List.range_succ_eq_map, List.map_cons, List.map_map, htail, bytesToWord_cons_toNat _ (by simpa using Nat.le_of_lt_succ hn), ih (by omega)]
    rfl

/-- Bytes that are the digits of a number to the base 256 have that number as their value. -/
theorem littleEndian_of_digits {s : State} {n a v : Nat} (h : ∀ k, k < n → (s.byteAt (a + k)).toNat = v / 2 ^ (8 * k) % 256) :
    littleEndian s n a = v % 2 ^ (8 * n) := by
  induction n generalizing a v with
  | zero => simp [littleEndian, Nat.mod_one]
  | succ n ih =>
    have hrest : ∀ k, k < n → (s.byteAt (a + 1 + k)).toNat = v / 256 / 2 ^ (8 * k) % 256 := fun k hk => by
      rw [Nat.add_right_comm, Nat.add_assoc, h (k + 1) (by omega), Nat.div_div_eq_div_mul, Nat.mul_add, Nat.pow_add, Nat.mul_comm]
    have hfirst := h 0 (by omega)
    rw [Nat.add_zero, Nat.mul_zero, Nat.pow_zero, Nat.div_one] at hfirst
    rw [littleEndian, hfirst, ih hrest, Nat.mul_add, Nat.add_comm (8 * n), Nat.pow_add, Nat.mod_mul]

theorem littleEndian_setBytes {s : State} {n a : Nat} (v : Word) (h : ∀ k, k < n → platformAt s.cfg (a + k) = none) :
    littleEndian (s.setBytes a (wordToBytes v n)) n a = v.toNat % 2 ^ (8 * n) := by
  refine littleEndian_of_digits fun k hk => ?_
  rw [byteAt_setBytes_mem s a _ k (by rwa [wordToBytes_length]) (h k hk)]
  simp [wordToBytes, BitVec.extractLsb'_toNat, Nat.shiftRight_eq_div_pow]

theorem littleEndian_lt (s : State) (n a : Nat) : littleEndian s n a < 2 ^ (8 * n) := by
  induction n generalizing a with
  | zero => exact Nat.one_pos
  | succ n ih =>
    have hb := (s.byteAt a).isLt
    have hrest := ih (a + 1)
    rw [littleEndian, Nat.mul_add, Nat.pow_add]
    omega

theorem littleEndian_congr {s t : State} (h : ∀ a, t.byteAt a = s.byteAt a) (n a : Nat) : littleEndian t n a = littleEndian s n a := by
  induction n generalizing a with
  | zero => rfl
  | succ n ih => rw [littleEndian, littleEndian, h, ih]

/-! ### States that differ in the translation cache only -/

/-- `t` is `s` with another translation cache. -/
def CacheOnly (s t : State) : Prop := ∃ l, t = { s with tlb := l }

theorem CacheOnly.refl (s : State) : CacheOnly s s := ⟨s.tlb, rfl⟩

theorem CacheOnly.tlbAdd {s t : State} (h : CacheOnly s t) (e : TlbEntry) : CacheOnly s (t.tlbAdd e) := by
  obtain ⟨l, rfl⟩ := h
  unfold State.tlbAdd
  split
  · exact ⟨l, rfl⟩
  · exact ⟨_, rfl⟩

theorem CacheOnly.sameMemory {s t : State} (h : CacheOnly s t) : sameMemory s t := by
  obtain ⟨l, rfl⟩ := h; exact ⟨fun _ => rfl, rfl⟩

theorem CacheOnly.sameCsrs {s t : State} (h : CacheOnly s t) : sameCsrs s t := by
  obtain ⟨l, rfl⟩ := h; simp [Machine.sameCsrs]

theorem CacheOnly.sameRegs {s t : State} (h : CacheOnly s t) : sameRegs s t := by
  obtain ⟨l, rfl⟩ := h; exact fun _ => rfl

theorem CacheOnly.cfg {s t : State} (h : CacheOnly s t) : t.cfg = s.cfg := by
  obtain ⟨l, rfl⟩ := h; rfl

theorem CacheOnly.physAllowed {s t : State} (h : CacheOnly s t) (pa n : Nat) (kind : AccessKind) (ep : Priv) :
    physAllowed t pa n kind ep = physAllowed s pa n kind ep := by
  obtain ⟨l, rfl⟩ := h; exact physAllowed_tlb s l pa n kind ep

theorem CacheOnly.pagePermits {s t : State} (h : CacheOnly s t) (p : Word) (kind : AccessKind) (ep : Priv) :
    pagePermits t p kind ep = pagePermits s p kind ep := by
  obtain ⟨l, rfl⟩ := h; rfl

theorem CacheOnly.setsAD {s t : State} (h : CacheOnly s t) (w : WalkChoice) : t.setsAD w = s.setsAD w := by
  obtain ⟨l, rfl⟩ := h; rfl

/-! ### One entry read from memory -/

theorem pteBytes_cases {m : SatpMode} {sch : Scheme} (h : schemeOf m = some sch) : sch.pteBytes = 4 ∨ sch.pteBytes = 8 := by
  cases m <;> cases h
  · exact .inl rfl
  · exact .inr rfl
  · exact .inr rfl

section
variable {s t : State} {sch : Scheme} {w : WalkChoice} {va : Word} (kind : AccessKind) (ep : Priv) {i a : Nat} {p : Word}

/-- A walk that draws no cached entry reads memory (R161 (d)). -/
theorem readPte_uncached (hw : w.useCached = []) (pa : Nat) : readPte sch w va kind i pa t = readPteMem sch va kind i pa t := by
  simp [readPte, State.tlbLookup, hw]

theorem readPte_denied (hw : w.useCached = []) (hc : CacheOnly s t)
    (h : physAllowed s (entryAt sch va i a) sch.pteBytes .load .S = false) :
    readPte sch w va kind i (entryAt sch va i a) t = .trap (accessFault kind) va t := by
  rw [readPte_uncached kind hw, readPteMem, hc.physAllowed, h]; rfl

theorem readPte_entry (hn : sch.pteBytes ≤ 8) (hw : w.useCached = []) (hc : CacheOnly s t) (h : holdsEntry s sch va i a p) :
    ∃ u, CacheOnly s u ∧ readPte sch w va kind i (entryAt sch va i a) t = .done p u := by
  obtain ⟨hallowed, hmemory, hvalue⟩ := h
  have hword : bytesToWord ((List.range sch.pteBytes).map fun k => t.byteAt (entryAt sch va i a + k)) = p :=
    BitVec.eq_of_toNat_eq (by rw [bytesToWord_toNat t hn, littleEndian_congr hc.sameMemory.1, hvalue])
  refine ⟨t.tlbAdd (t.tlbEntry sch va i p), hc.tlbAdd _, ?_⟩
  rw [readPte_uncached kind hw, readPteMem, hc.physAllowed, if_pos hallowed, physRead, hc.cfg, hmemory]
  simp only [hword]

/-! ### The walk to the entry that decides -/

/-- One level of the walk, at an entry in memory (R150 steps 2 to 4). -/
theorem walk_entry (hn : sch.pteBytes ≤ 8) (hw : w.useCached = []) (hc : CacheOnly s t) (h : holdsEntry s sch va i a p) :
    ∃ u, CacheOnly s u ∧ walk sch w va kind ep (i + 1) a t =
      if pteInvalid p then .trap (pageFault kind) va u
      else if pteReserved p ≠ 0 then .refused (.reservedPteBits p)
      else if pteLeaf p then finishLeaf sch w va kind ep i (entryAt sch va i a) p u
      else walk sch w va kind ep i (ptePpn sch p * 4096) u := by
  obtain ⟨u, hu, hread⟩ := readPte_entry kind hn hw hc h
  refine ⟨u, hu, ?_⟩
  simp only [entryAt] at hread
  simp only [walk, hread, Access.bind]; rfl

/-- The fields of an entry as its bits (R144, R146, R152). -/
theorem pteInvalid_iff (p : Word) : pteInvalid p = true ↔ bit p 0 = false ∨ (bit p 1 = false ∧ bit p 2 = true) := by
  simp [pteInvalid, pteV, pteR, pteW]

theorem pteReserved_ne_zero_iff (p : Word) : pteReserved p ≠ 0 ↔ 2 ^ 54 ≤ p.toNat := by
  unfold pteReserved
  rw [Ne, Nat.div_eq_zero_iff]; omega

theorem pteLeaf_iff (p : Word) : pteLeaf p = true ↔ bit p 1 = true ∨ bit p 3 = true := by
  simp [pteLeaf, pteR, pteX]

/-- The pointers in memory lead the walk down (R150, R152). -/
theorem walk_path {n b : Nat} (hn : sch.pteBytes ≤ 8) (hw : w.useCached = []) (hc : CacheOnly s t) (h : PointerPath s sch va i a n b) :
    ∃ u, CacheOnly s u ∧ walk sch w va kind ep i a t = walk sch w va kind ep n b u := by
  induction h generalizing t with
  | here i a => exact ⟨t, hc, rfl⟩
  | down i a n b p hentry hv hr hw' hx hlow _ ih =>
    obtain ⟨u, hu, hwalk⟩ := walk_entry kind ep hn hw hc hentry
    have hvalid : ¬pteInvalid p = true := by simp [pteInvalid_iff, hv, hr, hw']
    have hreserved : ¬pteReserved p ≠ 0 := by rw [pteReserved_ne_zero_iff]; omega
    have hpointer : ¬pteLeaf p = true := by simp [pteLeaf_iff, hr, hx]
    rw [if_neg hvalid, if_neg hreserved, if_neg hpointer] at hwalk
    rw [hwalk]
    exact ih hu

end

/-! ### The address space (R148) -/

/-- A word is the sign extension of its low `n` bits when its two's-complement value fits them. -/
theorem eq_signExtend_iff (v : Word) {n : Nat} (h0 : 0 < n) (hn : n ≤ 64) :
    v = (v.setWidth n).signExtend 64 ↔ -(2 : Int) ^ (n - 1) ≤ v.toInt ∧ v.toInt < (2 : Int) ^ (n - 1) := by
  rw [← BitVec.toInt_inj, BitVec.toInt_signExtend_of_le hn]
  refine ⟨fun h => h ▸ ⟨BitVec.le_toInt _, BitVec.toInt_lt⟩, fun ⟨hlo, hhi⟩ => ?_⟩
  have hpow : ((2 ^ n : Nat) : Int) = 2 * 2 ^ (n - 1) := by rw [← Int.pow_succ', Nat.sub_add_cancel h0]; norm_cast
  rw [BitVec.toInt_setWidth, ← Int.bmod_bmod_of_dvd (Nat.pow_dvd_pow 2 hn), ← BitVec.toInt_eq_toNat_bmod]
  exact (Int.bmod_eq_of_le_mul_two (by omega) (by omega)).symm

/-- An address is canonical when, under RV64, it lies within the translated width as a two's-complement number. -/
theorem canonical_iff {x : Xlen} {m : SatpMode} {sch : Scheme} (h : schemeOf m = some sch) (va : Word) :
    canonical x sch va = true ↔ (x = .rv64 → -(2 : Int) ^ (sch.vaBits - 1) ≤ va.toInt ∧ va.toInt < (2 : Int) ^ (sch.vaBits - 1)) := by
  cases x with
  | rv32 => simp [canonical]
  | rv64 =>
    have hbits : 0 < sch.vaBits ∧ sch.vaBits ≤ 64 := by cases m <;> cases h <;> decide
    simp only [canonical, decide_eq_true_eq, true_imp_iff]
    exact eq_signExtend_iff va hbits.1 hbits.2

/-! ### The bits A and D (R157) -/

/-- Setting a bit that is 0 adds its weight. -/
theorem withBit_true_toNat (v : Word) {i : Nat} (hi : i < 64) : (withBit v i true).toNat = v.toNat + if bit v i then 0 else 2 ^ i := by
  by_cases hbit : bit v i = true
  · have hsame : withBit v i true = v := word_ext fun j _ => by
      rw [bit_withBit v i true j hi]
      split
      · next hj => rw [hj, hbit]
      · rfl
    rw [hsame, if_pos hbit, Nat.add_zero]
  · have hdisjoint : v &&& 1#64 <<< i = 0#64 := by
      rw [← BitVec.twoPow_eq]
      apply word_ext
      intro j hj
      rw [bit_and]
      by_cases hji : j = i
      · rw [hji, Bool.eq_false_iff.2 hbit]; simp [bit]
      · simp [bit, BitVec.getLsbD_twoPow, Ne.symm hji]
    have hweight : (1#64 <<< i).toNat = 2 ^ i := by
      rw [BitVec.toNat_shiftLeft, Nat.shiftLeft_eq, BitVec.toNat_ofNat]
      have := Nat.pow_lt_pow_right (a := 2) (by decide) hi
      omega
    have hor : withBit v i true = v + 1#64 <<< i := (BitVec.add_eq_or_of_and_eq_zero _ _ hdisjoint).symm
    rw [hor, BitVec.toNat_add_of_and_eq_zero hdisjoint, hweight, if_neg hbit]

theorem pteNeedsAD_iff (p : Word) (kind : AccessKind) :
    pteNeedsAD p kind = true ↔ ¬(bit p 6 = true ∧ (kind = .store → bit p 7 = true)) := by
  simp only [pteNeedsAD, pteA, pteD, Bool.or_eq_true, Bool.not_eq_true', Bool.and_eq_true, decide_eq_true_eq]
  cases bit p 6 <;> cases bit p 7 <;> simp

/-- The updated entry as a number. -/
theorem pteWithAD_toNat (p : Word) (kind : AccessKind) : (pteWithAD p kind).toNat =
    p.toNat + (if bit p 6 then 0 else 64) + (if kind = .store ∧ bit p 7 = false then 128 else 0) := by
  have hA := withBit_true_toNat p (i := 6) (by decide)
  cases kind with
  | fetch => exact hA
  | load => exact hA
  | store =>
    have hD : bit (withBit p 6 true) 7 = bit p 7 := by simp [bit_withBit]
    rw [pteWithAD, withBit_true_toNat _ (by decide), hA, hD]
    cases bit p 7 <;> simp

/-- The updated entry has the width of the entry. -/
theorem pteWithAD_lt {p : Word} {n : Nat} (hn : n = 4 ∨ n = 8) (h : p.toNat < 2 ^ (8 * n)) (kind : AccessKind) :
    (pteWithAD p kind).toNat < 2 ^ (8 * n) := by
  rcases hn with rfl | rfl
  · have hA : fits .rv32 (withBit p 6 true) := fits_withBit 6 true (by decide) h
    cases kind with
    | fetch => exact hA
    | load => exact hA
    | store => exact fits_withBit 7 true (by decide) hA
  · exact (pteWithAD p kind).isLt

section
variable {s u : State} {sch : Scheme} {w : WalkChoice} {va : Word} {kind : AccessKind} (ep : Priv) {i a : Nat} {p : Word}

theorem updateAD_denied (hc : CacheOnly s u) (h : physAllowed s a sch.pteBytes .store .S = false) :
    updateAD sch va kind i a p u = .trap (accessFault kind) va u := by
  rw [updateAD, hc.physAllowed, h]; rfl

theorem updateAD_mtime (hc : CacheOnly s u) (h : physAllowed s a sch.pteBytes .store .S = true)
    (hd : deviceIn s.cfg a sch.pteBytes = none) {m : Nat} (hm : mtimeIn s.cfg a sch.pteBytes = some m) :
    updateAD sch va kind i a p u = .refused (.mtimeStore m) := by
  rw [← hc.cfg] at hd hm
  rw [updateAD, hc.physAllowed, if_pos h, PlatformStore.physWrite_mtime _ hd hm]

/-- An update that is made leaves the bytes of its store. -/
theorem updateAD_done (hc : CacheOnly s u) (h : physAllowed s a sch.pteBytes .store .S = true) {v : State}
    (hv : physWrite u a sch.pteBytes (pteWithAD p kind) = .ok v) :
    ∃ t, updateAD sch va kind i a p u = .done () t ∧ sameMemory v t := by
  rw [updateAD, hc.physAllowed, if_pos h, hv]
  exact ⟨_, rfl, sameMemory_tlbAdd _ _⟩

/-- The update of an entry in plain memory leaves the entry with its bits set. -/
theorem updateAD_plain (hn : sch.pteBytes = 4 ∨ sch.pteBytes = 8) (hc : CacheOnly s u)
    (h : physAllowed s a sch.pteBytes .store .S = true) (hd : deviceIn s.cfg a sch.pteBytes = none)
    (hp : p.toNat < 2 ^ (8 * sch.pteBytes)) (hplain : ∀ k, k < sch.pteBytes → platformAt s.cfg (a + k) = none) :
    ∃ t, updateAD sch va kind i a p u = .done () t ∧ littleEndian t sch.pteBytes a = (pteWithAD p kind).toNat ∧
      (∀ b, b < a ∨ a + sch.pteBytes ≤ b → t.byteAt b = s.byteAt b) ∧ sameCsrs s t ∧ sameRegs s t := by
  rw [← hc.cfg] at hd hplain
  obtain ⟨t, hupdate, hstored⟩ := updateAD_done (va := va) (i := i) (kind := kind) (p := p) hc h
    (PlatformStore.physWrite_allowed _ hd (LoadStore.mtimeIn_none hplain))
  have hframe := updateAD_sat sch va kind i a p u
  have hmemory := updateAD_memory sch va kind i a p u
  rw [hupdate] at hframe hmemory
  have f : AccessFrame u t := hframe
  refine ⟨t, hupdate, ?_, fun b hb => (hmemory b hb).trans (hc.sameMemory.1 b), sameCsrs_trans hc.sameCsrs f.sameCsrs,
    fun r => (f.reg r).trans (hc.sameRegs r)⟩
  rw [littleEndian_congr hstored.1, littleEndian_setBytes _ hplain, Nat.mod_eq_of_lt (pteWithAD_lt hn hp kind)]

/-! ### The leaf (R150 steps 5 to 8) -/

/-- The address an aligned leaf gives (R158). -/
theorem leafAddress_eq (h : ptePpn sch p % 2 ^ (sch.vpnBits * i) = 0) :
    leafAddress sch va i p = ptePpn sch p * 4096 + va.toNat % 2 ^ (12 + sch.vpnBits * i) := by
  rw [leafAddress, h, Nat.sub_zero, Nat.pow_add, Nat.mod_mul]
  ring

theorem finishLeaf_denied (hc : CacheOnly s u)
    (h : pagePermits s p kind ep = false ∨ ptePpn sch p % 2 ^ (sch.vpnBits * i) ≠ 0) :
    finishLeaf sch w va kind ep i a p u = .trap (pageFault kind) va u := by
  rw [finishLeaf, hc.pagePermits]
  rcases h with hdenied | hsuper
  · rw [hdenied]; rfl
  · have hmis : misalignedSuperpage sch i p = true := decide_eq_true hsuper
    rw [hmis, if_pos rfl, ite_self]

/-- A leaf that permits the access and is aligned gives the address, after the update of A and D where one is due. -/
theorem finishLeaf_permitted (hc : CacheOnly s u) (hperm : pagePermits s p kind ep = true)
    (hsuper : ptePpn sch p % 2 ^ (sch.vpnBits * i) = 0) :
    finishLeaf sch w va kind ep i a p u =
      if pteNeedsAD p kind then
        if s.setsAD w then
          (updateAD sch va kind i a p u).bind fun _ t => .done (ptePpn sch p * 4096 + va.toNat % 2 ^ (12 + sch.vpnBits * i)) t
        else .trap (pageFault kind) va u
      else .done (ptePpn sch p * 4096 + va.toNat % 2 ^ (12 + sch.vpnBits * i)) u := by
  have hmis : misalignedSuperpage sch i p = false := decide_eq_false (not_not.2 hsuper)
  rw [finishLeaf, hc.pagePermits, hc.setsAD, hperm, hmis, leafAddress_eq hsuper]; rfl

/-! ### The whole translation -/

theorem translate_noncanonical (h : ¬canonical s.cfg.xlen sch va = true) :
    Machine.translate sch w va kind ep s = .trap (pageFault kind) va s := if_neg h

variable {n b : Nat} (hs : schemeOf s.satpMode = some sch) (hw : w.useCached = [])
  (hpath : PointerPath s sch va sch.levels (satpPpn s.cfg.xlen s.satp * 4096) n b) (hcanon : canonical s.cfg.xlen sch va = true)
include hs hw hpath hcanon

theorem translate_walk : ∃ u, CacheOnly s u ∧ Machine.translate sch w va kind ep s = walk sch w va kind ep n b u := by
  rw [Machine.translate, if_pos hcanon]
  have hn := pteBytes_cases hs
  exact walk_path kind ep (by omega) hw (CacheOnly.refl s) hpath

theorem translate_unreadable (hn : n = i + 1) (h : physAllowed s (entryAt sch va i b) sch.pteBytes .load .S = false) :
    ∃ u, CacheOnly s u ∧ Machine.translate sch w va kind ep s = .trap (accessFault kind) va u := by
  obtain ⟨u, hu, hwalk⟩ := translate_walk (kind := kind) ep hs hw hpath hcanon
  have hread := readPte_denied kind hw hu h
  simp only [entryAt] at hread
  subst hn
  exact ⟨u, hu, by simp only [hwalk, walk, hread, Access.bind]⟩

theorem translate_entry (hn : n = i + 1) (h : holdsEntry s sch va i b p) :
    ∃ u, CacheOnly s u ∧ Machine.translate sch w va kind ep s =
      if pteInvalid p then .trap (pageFault kind) va u
      else if pteReserved p ≠ 0 then .refused (.reservedPteBits p)
      else if pteLeaf p then finishLeaf sch w va kind ep i (entryAt sch va i b) p u
      else walk sch w va kind ep i (ptePpn sch p * 4096) u := by
  obtain ⟨u, hu, hwalk⟩ := translate_walk (kind := kind) ep hs hw hpath hcanon
  have hbytes := pteBytes_cases hs
  subst hn
  rw [hwalk]
  exact walk_entry kind ep (by omega) hw hu h

theorem translate_leaf (hn : n = i + 1) (h : holdsEntry s sch va i b p) (hvalid : bit p 0 = true)
    (hrw : ¬(bit p 1 = false ∧ bit p 2 = true)) (hlow : p.toNat < 2 ^ 54) (hleaf : bit p 1 = true ∨ bit p 3 = true) :
    ∃ u, CacheOnly s u ∧
      Machine.translate sch w va kind ep s = finishLeaf sch w va kind ep i (entryAt sch va i b) p u := by
  obtain ⟨u, hu, hwalk⟩ := translate_entry (kind := kind) ep hs hw hpath hcanon hn h
  have hinvalid : ¬pteInvalid p = true := by rw [pteInvalid_iff, hvalid]; simpa using hrw
  have hreserved : ¬pteReserved p ≠ 0 := by rw [pteReserved_ne_zero_iff]; omega
  rw [if_neg hinvalid, if_neg hreserved, if_pos ((pteLeaf_iff p).2 hleaf)] at hwalk
  exact ⟨u, hu, hwalk⟩

end

/-- Settles O49: the walk ends at the entry its pointers lead to, as the fields of that entry say. -/
theorem pageWalk : Obligations.PageWalk := by
  unfold Obligations.PageWalk
  intro s sch w va kind ep n b hs hw hpath
  refine ⟨fun hx hout => ?_, fun hin => ?_⟩
  · refine ⟨s, translate_noncanonical ep fun hcanon => ?_, sameMemory_refl s⟩
    have hrange := (canonical_iff hs va).1 hcanon hx
    omega
  have hcanon := (canonical_iff hs va).2 hin
  have hbytes := pteBytes_cases hs
  refine ⟨fun hn => ?_, fun i hn => ⟨fun hdenied => ?_, fun p hentry => ⟨fun hinvalid => ?_, fun hv hrw hres => ?_,
    fun hv hrw hlow hleaf => ?_⟩⟩⟩
  · obtain ⟨u, hu, hwalk⟩ := translate_walk (kind := kind) ep hs hw hpath hcanon
    subst hn
    exact ⟨u, hwalk, hu.sameMemory⟩
  · obtain ⟨u, hu, hwalk⟩ := translate_unreadable (kind := kind) ep hs hw hpath hcanon hn hdenied
    exact ⟨u, hwalk, hu.sameMemory⟩
  · obtain ⟨u, hu, hwalk⟩ := translate_entry (kind := kind) ep hs hw hpath hcanon hn hentry
    exact ⟨u, hwalk.trans (if_pos ((pteInvalid_iff p).2 hinvalid)), hu.sameMemory⟩
  · obtain ⟨u, -, hwalk⟩ := translate_entry (kind := kind) ep hs hw hpath hcanon hn hentry
    have hvalid : ¬pteInvalid p = true := by rw [pteInvalid_iff, hv]; simpa using hrw
    rw [hwalk, if_neg hvalid, if_pos ((pteReserved_ne_zero_iff p).2 hres)]
  obtain ⟨u, hu, hwalk⟩ := translate_leaf (kind := kind) ep hs hw hpath hcanon hn hentry hv hrw hlow hleaf
  refine ⟨fun hdenied => ⟨u, hwalk.trans (finishLeaf_denied ep hu hdenied), hu.sameMemory⟩, fun hperm hsuper => ?_⟩
  rw [finishLeaf_permitted ep hu hperm hsuper] at hwalk
  simp only [← pteNeedsAD_iff]
  obtain ⟨-, hdevice, hvalue⟩ := hentry
  refine ⟨fun hset => ?_, fun hneeds hsets => ?_, fun hneeds hsets hdenied => ?_, fun hneeds hsets hallowed a hm => ?_,
    fun hneeds hsets hallowed hplain => ?_⟩
  · rw [if_neg (by rw [pteNeedsAD_iff]; exact not_not.2 hset)] at hwalk
    exact ⟨u, hwalk, hu.sameMemory, hu.sameCsrs, hu.sameRegs⟩
  · rw [if_pos hneeds, hsets] at hwalk
    exact ⟨u, hwalk, hu.sameMemory⟩
  · rw [if_pos hneeds, if_pos hsets, updateAD_denied hu hdenied] at hwalk
    exact ⟨u, hwalk, hu.sameMemory⟩
  · rw [if_pos hneeds, if_pos hsets, updateAD_mtime hu hallowed hdevice hm] at hwalk
    exact hwalk
  · have hp : p.toNat < 2 ^ (8 * sch.pteBytes) := hvalue ▸ littleEndian_lt s _ _
    obtain ⟨t, hupdate, hentry', hout, hcsrs, hregs⟩ := updateAD_plain hbytes hu hallowed hdevice hp hplain
    rw [if_pos hneeds, if_pos hsets, hupdate] at hwalk
    exact ⟨t, hwalk, hentry'.trans (pteWithAD_toNat p kind), hout, hcsrs, hregs⟩

end Sys2Proof.Proofs.PageWalk

/-! PROOF of O48. The check refuses by mode first, on the U bit of the page, and then asks for the bit of the access's kind. -/

namespace Sys2Proof.Proofs.PagePermissions
open Sys2Proof Sys2Proof.Machine

/-- The bits a kind of access needs, apart from the mode (R155). -/
def KindAllowed (s : State) (p : Word) (kind : AccessKind) : Prop :=
  (kind = .fetch → bit p 3 = true) ∧
  (kind = .load → bit p 1 = true ∨ (statusBit s.mstatus .MXR = true ∧ bit p 3 = true)) ∧
  (kind = .store → bit p 2 = true)

/-- Where neither rule on the U bit refuses, the bits of the kind decide. -/
theorem pagePermits_iff_kindAllowed {s : State} {p : Word} {kind : AccessKind} {ep : Priv} (hU : ¬(ep = .U ∧ bit p 4 = false))
    (hS : ¬(ep = .S ∧ bit p 4 = true ∧ (kind = .fetch ∨ statusBit s.mstatus .SUM = false))) :
    pagePermits s p kind ep = true ↔ KindAllowed s p kind := by
  unfold pagePermits KindAllowed
  rw [pteU, if_neg hU, if_neg hS]
  cases kind with
  | fetch => simp [pteX]
  | load => simp [pteR, pteX]
  | store => simp [pteW]

theorem pagePermits_userDenied {s : State} {p : Word} {kind : AccessKind} {ep : Priv} (hU : ep = .U ∧ bit p 4 = false) :
    ¬pagePermits s p kind ep = true := by
  unfold pagePermits
  rw [pteU, if_pos hU]
  exact Bool.false_ne_true

theorem pagePermits_supervisorDenied {s : State} {p : Word} {kind : AccessKind} {ep : Priv}
    (hS : ep = .S ∧ bit p 4 = true ∧ (kind = .fetch ∨ statusBit s.mstatus .SUM = false)) : ¬pagePermits s p kind ep = true := by
  have hU : ¬(ep = .U ∧ bit p 4 = false) := by simp [hS.1]
  unfold pagePermits
  rw [pteU, if_neg hU, if_pos hS]
  exact Bool.false_ne_true

/-- Settles O48: the two rules on the U bit, and where neither refuses the bits of the kind. -/
theorem pagePermissions : Obligations.PagePermissions := by
  unfold Obligations.PagePermissions
  intro s p kind ep
  by_cases hU : ep = .U ∧ bit p 4 = false
  · refine iff_of_false (pagePermits_userDenied hU) fun ⟨huser, _⟩ => ?_
    exact Bool.false_ne_true (hU.2.symm.trans (huser hU.1))
  by_cases hS : ep = .S ∧ bit p 4 = true ∧ (kind = .fetch ∨ statusBit s.mstatus .SUM = false)
  · refine iff_of_false (pagePermits_supervisorDenied hS) fun ⟨_, hsupervisor, _⟩ => ?_
    obtain ⟨hep, hbit, hwhy⟩ := hS
    obtain ⟨hnofetch, hsum⟩ := hsupervisor hep hbit
    exact Bool.false_ne_true ((hwhy.resolve_left hnofetch).symm.trans hsum)
  · rw [pagePermits_iff_kindAllowed hU hS]
    refine ⟨fun hkind => ⟨fun hep => ?_, fun hep hbit => ⟨fun hk => hS ⟨hep, hbit, .inl hk⟩, ?_⟩, hkind⟩, fun ⟨_, _, hkind⟩ => hkind⟩
    · exact eq_true_of_ne_false fun hbit => hU ⟨hep, hbit⟩
    · exact eq_true_of_ne_false fun hsum => hS ⟨hep, hbit, .inr hsum⟩

end Sys2Proof.Proofs.PagePermissions

/-! PROOF of O50. An entry is the cached one that the walk draws, where one matches, and else the bytes in memory, which enter the cache. -/

namespace Sys2Proof.Proofs.EntrySource
open Sys2Proof Sys2Proof.Machine Sys2Proof.Proofs.AccessPath Sys2Proof.Proofs.PageWalk

/-! ### The entry in memory -/

/-- A read of physical memory answers the little-endian value of its bytes, outside device regions. -/
theorem physRead_eq_ok_iff {s : State} {pa n : Nat} {p : Word} (hn : n ≤ 8) :
    physRead s pa n = .ok p ↔ deviceIn s.cfg pa n = none ∧ p.toNat = littleEndian s n pa := by
  rw [← bytesToWord_toNat s hn]
  refine ⟨fun h => ?_, fun ⟨hdevice, hvalue⟩ => ?_⟩
  · obtain ⟨hdevice, rfl⟩ := physRead_ok h
    exact ⟨hdevice, rfl⟩
  · rw [physRead, hdevice, BitVec.eq_of_toNat_eq hvalue]

/-- What a walk may read at an address of a table, as the checks and the read that the walk makes there. -/
theorem holdsEntry_iff {s : State} {sch : Scheme} {va p : Word} {i a : Nat} (hn : sch.pteBytes ≤ 8) :
    holdsEntry s sch va i a p ↔ physAllowed s (entryAt sch va i a) sch.pteBytes .load .S = true ∧
      physRead s (entryAt sch va i a) sch.pteBytes = .ok p := by
  rw [holdsEntry, physRead_eq_ok_iff hn]

/-- A read of an entry from memory that answers: the value read has entered the cache (R161 (a)). -/
theorem readPteMem_eq_done_iff {s u : State} {sch : Scheme} {va p : Word} {kind : AccessKind} {i pa : Nat} :
    readPteMem sch va kind i pa s = .done p u ↔ physAllowed s pa sch.pteBytes .load .S = true ∧
      physRead s pa sch.pteBytes = .ok p ∧ u = s.tlbAdd (s.tlbEntry sch va i p) := by
  unfold readPteMem
  split
  · next hallowed =>
    cases hread : physRead s pa sch.pteBytes with
    | ok q =>
      simp only [hallowed, true_and, Access.done.injEq, Except.ok.injEq]
      exact and_congr_right fun hq => by rw [hq, eq_comm]
    | error r => simp
  · next hdenied => simp [hdenied]

/-! ### The entry in the cache -/

theorem mem_tlbAdd (s : State) (f e : TlbEntry) : e ∈ (s.tlbAdd f).tlb ↔ e ∈ s.tlb ∨ e = f := by
  unfold State.tlbAdd
  split
  · next hf => exact ⟨.inl, fun h => h.elim id fun he => he ▸ hf⟩
  · rw [List.mem_cons, or_comm]

/-- When an entry serves a walk (R161 (d), (e), R165). -/
theorem tlbMatches_iff {s : State} {sch : Scheme} {va : Word} {kind : AccessKind} {i : Nat} {e : TlbEntry} :
    s.tlbMatches sch va kind i e = true ↔ e.level = i ∧ e.prefixVpn = vpnPrefix sch va i ∧
      (e.asid = satpAsid s.cfg.xlen s.satp ∨ pteG e.pte = true) ∧
      ¬(pteV e.pte = true ∧ pteLeaf e.pte = true ∧ pteNeedsAD e.pte kind = true) := by
  simp only [State.tlbMatches, Bool.and_eq_true, Bool.or_eq_true, Bool.not_eq_true', decide_eq_true_eq, ← Bool.not_eq_true, and_assoc]

/-- A value the walk takes from the cache is that of a drawn, cached, matching entry. -/
theorem tlbLookup_some {s : State} {sch : Scheme} {w : WalkChoice} {va p : Word} {kind : AccessKind} {i : Nat}
    (h : s.tlbLookup sch w va kind i = some p) :
    ∃ e ∈ s.tlb, e ∈ w.useCached ∧ e.pte = p ∧ s.tlbMatches sch va kind i e = true := by
  obtain ⟨e, hfind, hpte⟩ := Option.map_eq_some_iff.1 h
  have hserves := List.find?_some hfind
  rw [Bool.and_eq_true, decide_eq_true_eq] at hserves
  exact ⟨e, hserves.1, List.mem_of_find?_eq_some hfind, hpte, hserves.2⟩

/-- The one entry the walk draws is used where it is cached and matches. -/
theorem tlbLookup_drawn {s : State} {sch : Scheme} {w : WalkChoice} {va : Word} {kind : AccessKind} {i : Nat} {e : TlbEntry}
    (hw : w.useCached = [e]) (he : e ∈ s.tlb) (hm : s.tlbMatches sch va kind i e = true) :
    s.tlbLookup sch w va kind i = some e.pte := by
  simp [State.tlbLookup, hw, he, hm]

/-- The one entry the walk draws serves no other level than its own. -/
theorem tlbLookup_other_level {s : State} {sch : Scheme} {w : WalkChoice} {va : Word} {kind : AccessKind} {i : Nat} {e : TlbEntry}
    (hw : w.useCached = [e]) (hlevel : e.level ≠ i) : s.tlbLookup sch w va kind i = none := by
  simp [State.tlbLookup, hw, State.tlbMatches, hlevel]

/-! ### The entry the walk reads -/

theorem readPte_of_cached {s : State} {sch : Scheme} {w : WalkChoice} {va p : Word} {kind : AccessKind} {i : Nat} (pa : Nat)
    (h : s.tlbLookup sch w va kind i = some p) : readPte sch w va kind i pa s = .done p s := by
  rw [readPte, h]

theorem readPte_of_memory {s : State} {sch : Scheme} {w : WalkChoice} {va : Word} {kind : AccessKind} {i : Nat} (pa : Nat)
    (h : s.tlbLookup sch w va kind i = none) : readPte sch w va kind i pa s = readPteMem sch va kind i pa s := by
  rw [readPte, h]

/-- Settles O50: the two sources of an entry, and the use of a drawn one. -/
theorem entrySource : Obligations.EntrySource := by
  unfold Obligations.EntrySource
  intro s sch w va kind i pa hn
  refine ⟨fun p u hread => ?_, fun e he hw hlevel hprefix hasid hbits => ?_⟩
  · cases hcached : s.tlbLookup sch w va kind i with
    | some q =>
      rw [readPte_of_cached pa hcached] at hread
      cases hread
      obtain ⟨e, hmem, hdrawn, hpte, hmatches⟩ := tlbLookup_some hcached
      obtain ⟨hlevel, hprefix, hasid, hbits⟩ := tlbMatches_iff.1 hmatches
      rw [hpte] at hasid hbits
      exact .inl ⟨rfl, e, hmem, hdrawn, hpte, hlevel, hprefix, hasid, hbits⟩
    | none =>
      rw [readPte_of_memory pa hcached] at hread
      obtain ⟨hallowed, hvalue, rfl⟩ := readPteMem_eq_done_iff.1 hread
      exact .inr ⟨hallowed, ((physRead_eq_ok_iff hn).1 hvalue).2, sameMemory_tlbAdd _ _, (accessFrame_tlbAdd _ _).sameCsrs,
        mem_tlbAdd s _⟩
  · exact readPte_of_cached pa (tlbLookup_drawn hw he (tlbMatches_iff.2 ⟨hlevel, hprefix, hasid, hbits⟩))

end Sys2Proof.Proofs.EntrySource

/-! PROOF of O60. The environment's move writes the platform's registers and the cache alone; what enters the cache is what the speculative
walks read (`CacheGrowth`), and such a walk goes from a cached pointer on to the table it names. -/

namespace Sys2Proof.Proofs.PlatformMoves
open Sys2Proof Sys2Proof.Machine Sys2Proof.Proofs.PageWalk Sys2Proof.Proofs.EntrySource

/-! ### What the environment's move leaves and gains -/

theorem environment_msip {s : State} (h : s.cfg.externalMsip = false) : (environment s).msip = s.msip := by
  simp [environment, h]

theorem environment_sameRegs (s : State) : sameRegs s (environment s) := fun _ => rfl

theorem environment_sameCsrs (s : State) : sameCsrs s (environment s) := by simp [sameCsrs]

theorem environment_sameWait (s : State) : sameWait s (environment s) := by simp [sameWait]

/-- The cache after the move: what the speculative walks leave, without the entries that vanish (R161 (b), (c)). -/
theorem mem_environment_tlb (s : State) (e : TlbEntry) :
    e ∈ (environment s).tlb ↔ e ∈ (speculateAll s s.now.speculate).tlb ∧ e ∉ s.now.evict := by
  simp [environment]

/-- While satp.MODE is Bare, no speculative walk brings anything in (R161 (b)). -/
theorem mem_tlb_of_growth_bare {s t : State} (h : CacheGrowth s t) (hbare : schemeOf s.satpMode = none) {e : TlbEntry} (he : e ∈ t.tlb) :
    e ∈ s.tlb := by
  refine (h.gains e he).resolve_right ?_
  rintro ⟨-, sch, va, a, hs, -⟩
  rw [hbare] at hs
  cases hs

/-- Under a scheme, what the cache gains is what a walk reads in some table (R161 (a), (b)). -/
theorem holdsEntry_of_growth {s t : State} {sch : Scheme} (h : CacheGrowth s t) (hs : schemeOf s.satpMode = some sch) {e : TlbEntry}
    (he : e ∈ t.tlb) : e ∈ s.tlb ∨ (e.asid = satpAsid s.cfg.xlen s.satp ∧ e.level < sch.levels ∧
      ∃ va a, e.prefixVpn = vpnPrefix sch va e.level ∧ holdsEntry s sch va e.level a e.pte) := by
  refine (h.gains e he).imp_right ?_
  rintro ⟨hasid, sch', va, a, hs', hlevel, hprefix, hallowed, hread⟩
  obtain rfl : sch = sch' := Option.some.inj (hs.symm.trans hs')
  have hbytes := pteBytes_cases hs
  exact ⟨hasid, hlevel, va, a, hprefix, (holdsEntry_iff (by omega)).2 ⟨hallowed, hread⟩⟩

/-! ### A speculative walk through a cached pointer -/

section
variable {s : State} {sch : Scheme} {w : WalkChoice} {va p : Word} {i a : Nat}

/-- A valid entry with R = W = X = 0 and a zero Reserved field: a pointer to the next table (R150, R152). -/
def IsPointer (p : Word) : Prop :=
  bit p 0 = true ∧ bit p 1 = false ∧ bit p 2 = false ∧ bit p 3 = false ∧ p.toNat < 2 ^ 54

/-- None of the tests of R150 stops a walk at a pointer. -/
theorem IsPointer.goesOn (h : IsPointer p) : (pteInvalid p || decide (pteReserved p ≠ 0) || pteLeaf p) = false := by
  obtain ⟨hv, hr, hw, hx, hlow⟩ := h
  have hreserved : ¬pteReserved p ≠ 0 := by rw [pteReserved_ne_zero_iff]; omega
  rw [decide_eq_false hreserved]
  simp [pteInvalid, pteLeaf, pteV, pteR, pteW, pteX, hv, hr, hw, hx]

/-- A pointer is never a leaf, so that a cached one of the current address space serves every kind of access (R161 (e)). -/
theorem IsPointer.tlbMatches {c : TlbEntry} (h : IsPointer c.pte) (kind : AccessKind) (hlevel : c.level = i)
    (hprefix : c.prefixVpn = vpnPrefix sch va i) (hasid : c.asid = satpAsid s.cfg.xlen s.satp) :
    s.tlbMatches sch va kind i c = true := by
  obtain ⟨-, hr, -, hx, -⟩ := h
  exact tlbMatches_iff.2 ⟨hlevel, hprefix, .inl hasid, by simp [pteLeaf_iff, hr, hx]⟩

/-- A walk that takes a pointer from the cache goes on in the table it names, whatever memory holds (R161 (d)). -/
theorem speculateFrom_cached (hp : IsPointer p) (h : s.tlbLookup sch w va .load i = some p) :
    speculateFrom sch w va (i + 1) a s = speculateFrom sch w va i (ptePpn sch p * 4096) s := by
  rw [speculateFrom, readPte_of_cached _ h]
  simp only [hp.goesOn, Bool.false_eq_true, if_false]

/-- An entry that a walk reads from memory is in the cache at its end. -/
theorem mem_speculateFrom_of_memory (hs : schemeOf s.satpMode = some sch) (hi : i < sch.levels)
    (h : s.tlbLookup sch w va .load i = none) (hentry : holdsEntry s sch va i a p) :
    s.tlbEntry sch va i p ∈ (speculateFrom sch w va (i + 1) a s).tlb := by
  have hbytes := pteBytes_cases hs
  obtain ⟨hallowed, hvalue⟩ := (holdsEntry_iff (by omega)).1 hentry
  have hread : readPte sch w va .load i (entryAt sch va i a) s = .done p (s.tlbAdd (s.tlbEntry sch va i p)) :=
    (readPte_of_memory _ h).trans (readPteMem_eq_done_iff.2 ⟨hallowed, hvalue, rfl⟩)
  have hadded : s.tlbEntry sch va i p ∈ (s.tlbAdd (s.tlbEntry sch va i p)).tlb := (mem_tlbAdd _ _ _).2 (.inr rfl)
  have hscheme : schemeOf (s.tlbAdd (s.tlbEntry sch va i p)).satpMode = some sch := by
    rw [(readPte_growth hs hi hread).satpMode, hs]
  rw [entryAt] at hread
  rw [speculateFrom, hread]
  dsimp only
  split
  · exact hadded
  · exact (speculateFrom_growth sch w va i _ _ hscheme (Nat.le_of_lt hi)).keeps _ hadded

/-- The one walk through a cached pointer at the root level, stale or not, brings in the entry of the table the pointer names. -/
theorem mem_speculateAll_of_pointer {c : TlbEntry} (hs : schemeOf s.satpMode = some sch) (hva : fits s.cfg.xlen va) (hc : c ∈ s.tlb)
    (hlevels : sch.levels = i + 2) (hlevel : c.level = i + 1) (hprefix : c.prefixVpn = vpnPrefix sch va (i + 1))
    (hasid : c.asid = satpAsid s.cfg.xlen s.satp) (hpointer : IsPointer c.pte)
    (hentry : holdsEntry s sch va i (ptePpn sch c.pte * 4096) p) :
    s.tlbEntry sch va i p ∈ (speculateAll s [{ va := va, useCached := [c] }]).tlb := by
  have hroot : s.tlbLookup sch { useCached := [c], setAD := false } va .load (i + 1) = some c.pte :=
    tlbLookup_drawn rfl hc (hpointer.tlbMatches .load hlevel hprefix hasid)
  have hbelow : s.tlbLookup sch { useCached := [c], setAD := false } va .load i = none :=
    tlbLookup_other_level rfl (by omega)
  simp only [speculateAll, List.foldl_cons, List.foldl_nil, speculateOne, hs, SpeculativeWalk.choice, wrap_of_fits hva, hlevels]
  rw [speculateFrom_cached hpointer hroot]
  exact mem_speculateFrom_of_memory hs (by omega) hbelow hentry

end

/-- Settles O60: the frame of the environment's move, and the entries its speculative walks bring in. -/
theorem platformMoves : Obligations.PlatformMoves := by
  unfold Obligations.PlatformMoves
  intro s
  have hgrowth := speculateAll_growth s s.now.speculate
  refine ⟨MemoryInvariant.mtime_le_environment s, rfl, environment_msip, rfl, rfl, rfl, environment_sameRegs s, environment_sameCsrs s,
    environment_sameWait s, fun hbare e he => ?_, fun sch hs => ⟨fun e he => ?_, ?_⟩⟩
  · exact mem_tlb_of_growth_bare hgrowth hbare ((mem_environment_tlb s e).1 he).1
  · exact holdsEntry_of_growth hgrowth hs ((mem_environment_tlb s e).1 he).1
  · rintro va c i p f hdrawn hva hc hlevels hlevel hprefix hasid hv hr hw hx hlow hentry rfl hkept
    refine (mem_environment_tlb s _).2 ⟨?_, hkept⟩
    rw [hdrawn]
    exact mem_speculateAll_of_pointer hs hva hc hlevels hlevel hprefix hasid ⟨hv, hr, hw, hx, hlow⟩ hentry

end Sys2Proof.Proofs.PlatformMoves

/-! PROOFS of O1, O2 and O5. Every word is either the encoding of one well-formed instruction, which the decoder answers, or rejected by
the one name that its opcode and its low two bits call for (`decode_faithful`). -/

namespace Sys2Proof.Proofs.Decoding
open Sys2Proof Sys2Proof.Machine

/-! ### A word from the values of its fields (R181 to R184, R265) -/

section
variable {w : BitVec 32} {f7 : BitVec 7} {rs2 rs1 rd : Reg} {f3 : BitVec 3} {op : BitVec 7} {imm : BitVec 12} {off : BitVec 13}
  {imm20 : BitVec 20} {joff : BitVec 21} {shamt : BitVec 6}

theorem encR_of_fields (hf7 : fFunct7 w = f7) (hrs2 : fRs2 w = rs2) (hrs1 : fRs1 w = rs1) (hf3 : fFunct3 w = f3) (hrd : fRd w = rd)
    (hop : fOpcode w = op) : encR f7 rs2 rs1 f3 rd op = w := by
  subst hf7 hrs2 hrs1 hf3 hrd hop; exact encR_fields w

theorem encI_of_fields (himm : fImmI w = imm) (hrs1 : fRs1 w = rs1) (hf3 : fFunct3 w = f3) (hrd : fRd w = rd) (hop : fOpcode w = op) :
    encI imm rs1 f3 rd op = w := by
  subst himm hrs1 hf3 hrd hop; exact encI_fields w

theorem encS_of_fields (himm : fImmS w = imm) (hrs2 : fRs2 w = rs2) (hrs1 : fRs1 w = rs1) (hf3 : fFunct3 w = f3) (hop : fOpcode w = op) :
    encS imm rs2 rs1 f3 op = w := by
  subst himm hrs2 hrs1 hf3 hop; exact encS_fields w

theorem encB_of_fields (himm : fImmB w = off) (hrs2 : fRs2 w = rs2) (hrs1 : fRs1 w = rs1) (hf3 : fFunct3 w = f3) (hop : fOpcode w = op) :
    encB off rs2 rs1 f3 op = w := by
  subst himm hrs2 hrs1 hf3 hop; exact encB_fields w

theorem encU_of_fields (himm : fImmU w = imm20) (hrd : fRd w = rd) (hop : fOpcode w = op) : encU imm20 rd op = w := by
  subst himm hrd hop; exact encU_fields w

theorem encJ_of_fields (himm : fImmJ w = joff) (hrd : fRd w = rd) (hop : fOpcode w = op) : encJ joff rd op = w := by
  subst himm hrd hop; exact encJ_fields w

theorem encShift_of_fields (hzeros : field w 26 6 = 0#6) (hshamt : field w 20 6 = shamt) (hrs1 : fRs1 w = rs1) (hf3 : fFunct3 w = f3)
    (hrd : fRd w = rd) (hop : fOpcode w = op) : encShift shamt rs1 f3 rd op = w := by
  subst hshamt hrs1 hf3 hrd hop; exact encShift_fields w hzeros

end

/-! ### What a faithful reading of a word is -/

/-- A reading of `w` that answers only a well-formed instruction whose encoding is `w`, and rejects only as `e`. -/
def Faithful (x : Xlen) (w : BitVec 32) (e : DecodeError) (r : Except DecodeError Instr) : Prop :=
  (∀ i, r = .ok i → i.wf x = true ∧ encode i = w) ∧ ∀ e', r = .error e' → e' = e

section
variable {x : Xlen} {w : BitVec 32} {e : DecodeError}

theorem Faithful.ok {i : Instr} (hwf : i.wf x = true) (henc : encode i = w) : Faithful x w e (.ok i) :=
  ⟨fun _ h => Except.ok.inj h ▸ ⟨hwf, henc⟩, fun _ h => nomatch h⟩

theorem Faithful.error {e' : DecodeError} (h : e' = e) : Faithful x w e (.error e') :=
  ⟨fun _ h' => (nomatch h'), fun _ h' => Except.error.inj h' ▸ h⟩

theorem Faithful.ite {c : Prop} [Decidable c] {r r' : Except DecodeError Instr} (h : c → Faithful x w e r) (h' : ¬c → Faithful x w e r') :
    Faithful x w e (if c then r else r') := by
  split
  · next hc => exact h hc
  · next hc => exact h' hc

/-! ### The decoder, major opcode by major opcode (R185 to R190) -/

/-! The decoder reads the upper 12 bits of these words (R186) as one field. -/

theorem encode_sret_eq_encI : encode .sret = encI 0x102#12 0#5 0b000#3 0#5 0b1110011#7 := by decide
theorem encode_mret_eq_encI : encode .mret = encI 0x302#12 0#5 0b000#3 0#5 0b1110011#7 := by decide
theorem encode_wfi_eq_encI : encode .wfi = encI 0x105#12 0#5 0b000#3 0#5 0b1110011#7 := by decide

theorem decodePriv_faithful (hop : fOpcode w = 0b1110011#7) (hf3 : fFunct3 w = 0b000#3) :
    Faithful x w .illegalSystem (decodePriv w) := by
  unfold decodePriv
  exact .ite (fun hrd =>
    .ite (fun hf7 => .ok rfl (encR_of_fields hf7 rfl rfl hf3 hrd hop)) fun _ =>
    .ite (fun hrs1 =>
      .ite (fun himm => .ok rfl (encode_sret_eq_encI.trans (encI_of_fields himm hrs1 hf3 hrd hop))) fun _ =>
      .ite (fun himm => .ok rfl (encode_mret_eq_encI.trans (encI_of_fields himm hrs1 hf3 hrd hop))) fun _ =>
      .ite (fun himm => .ok rfl (encode_wfi_eq_encI.trans (encI_of_fields himm hrs1 hf3 hrd hop))) fun _ =>
      .ite (fun himm => .ok rfl (encI_of_fields himm hrs1 hf3 hrd hop)) fun _ =>
      .ite (fun himm => .ok rfl (encI_of_fields himm hrs1 hf3 hrd hop)) fun _ => .error rfl)
    fun _ => .error rfl)
    fun _ => .error rfl

theorem decodeSystem_faithful (hop : fOpcode w = 0b1110011#7) : Faithful x w .illegalSystem (decodeSystem w) := by
  unfold decodeSystem
  exact .ite (fun hf3 => decodePriv_faithful hop hf3) fun _ =>
    .ite (fun hf3 => .ok rfl (encI_of_fields rfl rfl hf3 rfl hop)) fun _ =>
    .ite (fun hf3 => .ok rfl (encI_of_fields rfl rfl hf3 rfl hop)) fun _ =>
    .ite (fun hf3 => .ok rfl (encI_of_fields rfl rfl hf3 rfl hop)) fun _ =>
    .ite (fun hf3 => .ok rfl (encI_of_fields rfl rfl hf3 rfl hop)) fun _ =>
    .ite (fun hf3 => .ok rfl (encI_of_fields rfl rfl hf3 rfl hop)) fun _ =>
    .ite (fun hf3 => .ok rfl (encI_of_fields rfl rfl hf3 rfl hop)) fun _ => .error rfl

theorem decodeBranch_faithful (hop : fOpcode w = 0b1100011#7) : Faithful x w .uncovered (decodeBranch w) := by
  unfold decodeBranch
  have heven := fImmB_even w
  exact .ite (fun hf3 => .ok heven (encB_of_fields rfl rfl rfl hf3 hop)) fun _ =>
    .ite (fun hf3 => .ok heven (encB_of_fields rfl rfl rfl hf3 hop)) fun _ =>
    .ite (fun hf3 => .ok heven (encB_of_fields rfl rfl rfl hf3 hop)) fun _ =>
    .ite (fun hf3 => .ok heven (encB_of_fields rfl rfl rfl hf3 hop)) fun _ =>
    .ite (fun hf3 => .ok heven (encB_of_fields rfl rfl rfl hf3 hop)) fun _ =>
    .ite (fun hf3 => .ok heven (encB_of_fields rfl rfl rfl hf3 hop)) fun _ => .error rfl

theorem decodeOpImm_faithful (hop : fOpcode w = 0b0010011#7) : Faithful x w .uncovered (decodeOpImm x w) := by
  unfold decodeOpImm
  exact .ite (fun hf3 => .ok rfl (encI_of_fields rfl rfl hf3 rfl hop)) fun _ =>
    .ite (fun hf3 => .ok rfl (encI_of_fields rfl rfl hf3 rfl hop)) fun _ =>
    .ite (fun hf3 => .ok rfl (encI_of_fields rfl rfl hf3 rfl hop)) fun _ =>
    .ite (fun hf3 =>
      .ite (fun ⟨hzeros, hshamt⟩ => .ok hshamt (encShift_of_fields hzeros rfl rfl hf3 rfl hop)) fun _ => .error rfl)
    fun _ => .error rfl

theorem decodeOp_faithful (hop : fOpcode w = 0b0110011#7) : Faithful x w .uncovered (decodeOp w) := by
  unfold decodeOp
  exact .ite (fun hf7 =>
    .ite (fun hf3 => .ok rfl (encR_of_fields hf7 rfl rfl hf3 rfl hop)) fun _ =>
    .ite (fun hf3 => .ok rfl (encR_of_fields hf7 rfl rfl hf3 rfl hop)) fun _ =>
    .ite (fun hf3 => .ok rfl (encR_of_fields hf7 rfl rfl hf3 rfl hop)) fun _ =>
    .ite (fun hf3 => .ok rfl (encR_of_fields hf7 rfl rfl hf3 rfl hop)) fun _ => .error rfl) fun _ =>
    .ite (fun ⟨hf7, hf3⟩ => .ok rfl (encR_of_fields hf7 rfl rfl hf3 rfl hop)) fun _ => .error rfl

/-! ### The whole decoder -/

/-- The name by which a word that is no instruction is rejected (R180, R190). -/
def rejection (w : BitVec 32) : DecodeError :=
  if fOpcode w = 0b1110011#7 then .illegalSystem else if field w 0 2 = 0b11#2 then .uncovered else .notThirtyTwoBit

theorem rejection_system (h : fOpcode w = 0b1110011#7) : rejection w = .illegalSystem := if_pos h

/-- The low two bits of a word are those of its opcode. -/
theorem field_low (w : BitVec 32) : field w 0 2 = (fOpcode w).extractLsb' 0 2 := by
  exact (BitVec.extractLsb'_extractLsb'_of_le (by decide)).symm

/-- Every opcode of the table has the low bits of a 32-bit instruction, so that a gap within it is uncovered. -/
theorem uncovered_of_opcode {op : BitVec 7} (h : fOpcode w = op) (hsystem : op ≠ 0b1110011#7 := by decide)
    (hlow : op.extractLsb' 0 2 = 0b11#2 := by decide) : .uncovered = rejection w := by
  unfold rejection
  rw [field_low, h, if_neg hsystem, if_pos hlow]

theorem decode_faithful (x : Xlen) (w : BitVec 32) : Faithful x w (rejection w) (decode x w) := by
  unfold decode
  exact .ite (fun hop => (rejection_system hop).symm ▸ decodeSystem_faithful hop) fun hsystem =>
    .ite (fun hop => .ok rfl (encU_of_fields rfl rfl hop)) fun _ =>
    .ite (fun hop => .ok rfl (encU_of_fields rfl rfl hop)) fun _ =>
    .ite (fun hop => .ok (fImmJ_even w) (encJ_of_fields rfl rfl hop)) fun _ =>
    .ite (fun hop => .ite (fun hf3 => .ok rfl (encI_of_fields rfl rfl hf3 rfl hop)) fun _ => .error (uncovered_of_opcode hop)) fun _ =>
    .ite (fun hop => uncovered_of_opcode hop ▸ decodeBranch_faithful hop) fun _ =>
    .ite (fun hop => .ite (fun hf3 => .ok rfl (encI_of_fields rfl rfl hf3 rfl hop)) fun _ => .error (uncovered_of_opcode hop)) fun _ =>
    .ite (fun hop => .ite (fun hf3 => .ok rfl (encS_of_fields rfl rfl rfl hf3 hop)) fun _ => .error (uncovered_of_opcode hop)) fun _ =>
    .ite (fun hop => uncovered_of_opcode hop ▸ decodeOpImm_faithful hop) fun _ =>
    .ite (fun hop => uncovered_of_opcode hop ▸ decodeOp_faithful hop) fun _ =>
    .ite (fun hlow => .error (by simp [rejection, hsystem, hlow])) fun hlow => .error (by simp [rejection, hsystem, hlow])

/-- A word that no well-formed instruction encodes to is rejected, by its one name. -/
theorem decode_unencoded (h : ∀ i : Instr, i.wf x = true → encode i ≠ w) : decode x w = .error (rejection w) := by
  obtain ⟨hok, herror⟩ := decode_faithful x w
  cases hd : decode x w with
  | ok i => obtain ⟨hwf, henc⟩ := hok i hd; exact absurd henc (h i hwf)
  | error e => rw [herror e hd]

end

/-! ### The obligations -/

/-- Settles O1: one lemma per instruction (`Laws.RoundTrip`). -/
theorem roundTrip : Obligations.RoundTrip := by
  unfold Obligations.RoundTrip
  intro x i h
  cases i with
  | sret => exact Laws.RoundTrip.sret x h
  | mret => exact Laws.RoundTrip.mret x h
  | wfi => exact Laws.RoundTrip.wfi x h
  | sfenceVma rs1 rs2 => exact Laws.RoundTrip.sfenceVma rs1 rs2 x h
  | ecall => exact Laws.RoundTrip.ecall x h
  | ebreak => exact Laws.RoundTrip.ebreak x h
  | csrrw rd csr rs1 => exact Laws.RoundTrip.csrrw rd csr rs1 x h
  | csrrs rd csr rs1 => exact Laws.RoundTrip.csrrs rd csr rs1 x h
  | csrrc rd csr rs1 => exact Laws.RoundTrip.csrrc rd csr rs1 x h
  | csrrwi rd csr uimm => exact Laws.RoundTrip.csrrwi rd csr uimm x h
  | csrrsi rd csr uimm => exact Laws.RoundTrip.csrrsi rd csr uimm x h
  | csrrci rd csr uimm => exact Laws.RoundTrip.csrrci rd csr uimm x h
  | lui rd imm => exact Laws.RoundTrip.lui rd imm x h
  | auipc rd imm => exact Laws.RoundTrip.auipc rd imm x h
  | jal rd off => exact Laws.RoundTrip.jal rd off x h
  | jalr rd rs1 imm => exact Laws.RoundTrip.jalr rd rs1 imm x h
  | beq rs1 rs2 off => exact Laws.RoundTrip.beq rs1 rs2 off x h
  | bne rs1 rs2 off => exact Laws.RoundTrip.bne rs1 rs2 off x h
  | blt rs1 rs2 off => exact Laws.RoundTrip.blt rs1 rs2 off x h
  | bge rs1 rs2 off => exact Laws.RoundTrip.bge rs1 rs2 off x h
  | bltu rs1 rs2 off => exact Laws.RoundTrip.bltu rs1 rs2 off x h
  | bgeu rs1 rs2 off => exact Laws.RoundTrip.bgeu rs1 rs2 off x h
  | lw rd rs1 imm => exact Laws.RoundTrip.lw rd rs1 imm x h
  | sw rs2 rs1 imm => exact Laws.RoundTrip.sw rs2 rs1 imm x h
  | addi rd rs1 imm => exact Laws.RoundTrip.addi rd rs1 imm x h
  | ori rd rs1 imm => exact Laws.RoundTrip.ori rd rs1 imm x h
  | andi rd rs1 imm => exact Laws.RoundTrip.andi rd rs1 imm x h
  | slli rd rs1 shamt => exact Laws.RoundTrip.slli rd rs1 shamt x h
  | add rd rs1 rs2 => exact Laws.RoundTrip.add rd rs1 rs2 x h
  | sub rd rs1 rs2 => exact Laws.RoundTrip.sub rd rs1 rs2 x h
  | sltu rd rs1 rs2 => exact Laws.RoundTrip.sltu rd rs1 rs2 x h
  | or rd rs1 rs2 => exact Laws.RoundTrip.or rd rs1 rs2 x h
  | and rd rs1 rs2 => exact Laws.RoundTrip.and rd rs1 rs2 x h

/-- Settles O2: the decoder reads faithfully. -/
theorem decodeReadsEveryBit : Obligations.DecodeReadsEveryBit := by
  unfold Obligations.DecodeReadsEveryBit
  intro x w i h
  exact (decode_faithful x w).1 i h

/-- Settles O5: outside SYSTEM the low two bits choose between the two refusals. -/
theorem outsideTableRefused : Obligations.OutsideTableRefused := by
  unfold Obligations.OutsideTableRefused
  intro s w hsystem hunencoded
  have hsystem : fOpcode w ≠ 0b1110011#7 := hsystem
  unfold execWord
  rw [decode_unencoded hunencoded, rejection, if_neg hsystem]
  change _ = Host.Outcome.refused (if field w 0 2 = 0b11#2 then _ else _)
  by_cases hlow : field w 0 2 = 0b11#2
  · rw [if_pos hlow, if_pos hlow]
  · rw [if_neg hlow, if_neg hlow]

/-- Settles O3: each word is decoded by evaluation. -/
theorem writtenWordsDecode : Obligations.WrittenWordsDecode := by
  unfold Obligations.WrittenWordsDecode
  decide

end Sys2Proof.Proofs.Decoding

/-! PROOFS of O4, O24 and O41: what raises Illegal instruction with its own word as trap value. -/

namespace Sys2Proof.Proofs.IllegalInstruction
open Sys2Proof Sys2Proof.Machine Sys2Proof.Proofs.Decoding

/-- The instructions within SYSTEM that are no CSR instruction (R186, R187). -/
theorem privileged_of_fields {i : Instr} (hop : fOpcode (encode i) = 0b1110011#7)
    (hf3 : fFunct3 (encode i) = 0b000#3 ∨ fFunct3 (encode i) = 0b100#3) :
    i = .sret ∨ i = .mret ∨ i = .wfi ∨ i = .ecall ∨ i = .ebreak ∨ ∃ rs1 rs2, i = .sfenceVma rs1 rs2 := by
  cases i
  case sret | mret | wfi | ecall | ebreak | sfenceVma => simp
  case csrrw | csrrs | csrrc | csrrwi | csrrsi | csrrci => simp [encode, encI_funct3] at hf3
  all_goals
    simp [encode, encR_opcode, encI_opcode, encS_opcode, encB_opcode, encU_opcode, encJ_opcode, encShift_opcode] at hop

/-- Settles O4: a gap is the encoding of no instruction, so that the decoder rejects it as a SYSTEM gap. -/
theorem systemGapsAreIllegal : Obligations.SystemGapsAreIllegal := by
  unfold Obligations.SystemGapsAreIllegal
  intro s w hop hf3 hsret hmret hwfi hecall hebreak hsfence
  have hunencoded : ∀ i : Instr, i.wf s.cfg.xlen = true → encode i ≠ w := by
    rintro i - rfl
    obtain rfl | rfl | rfl | rfl | rfl | ⟨rs1, rs2, rfl⟩ := privileged_of_fields hop hf3
    · exact hsret rfl
    · exact hmret rfl
    · exact hwfi rfl
    · exact hecall rfl
    · exact hebreak rfl
    · exact hsfence ⟨encR_funct7 .., encR_funct3 .., encR_rd ..⟩
  refine ⟨_, ?_, trapped_raise _ _ s⟩
  unfold execWord
  rw [decode_unencoded hunencoded, rejection_system hop]

/-! ### CSR instructions -/

/-- Each CSR form is the shared CSR operation (R233 to R238). -/
theorem csrForms_exec {s : State} {rd : Reg} {csr : BitVec 12} {f : BitVec 5} {i : Instr} {writes : Bool} {new : Word → Word}
    (h : (i, writes, new) ∈ csrForms s rd csr f) : exec i s = csrOp i csr rd writes new s := by
  simp only [csrForms, List.mem_cons, Prod.mk.injEq, List.not_mem_nil, or_false] at h
  rcases h with ⟨rfl, rfl, rfl⟩ | ⟨rfl, rfl, rfl⟩ | ⟨rfl, rfl, rfl⟩ | ⟨rfl, rfl, rfl⟩ | ⟨rfl, rfl, rfl⟩ | ⟨rfl, rfl, rfl⟩ <;> rfl

/-- Bits 9:8 of an address, which say the least mode that may use it, by arithmetic. -/
theorem addressMode_toNat (a : BitVec 12) : (a.extractLsb' 8 2).toNat = a.toNat / 256 % 4 := by
  simp [BitVec.extractLsb'_toNat, Nat.shiftRight_eq_div_pow]

/-- A listed address is a supervisor one below 0x300, and a machine one from there on (R25). -/
theorem csrAt_mode {a : BitVec 12} {c : Csr} (h : csrAt a = some c) :
    (a.extractLsb' 8 2).toNat = if a.toNat < 0x300 then 1 else 3 := by
  rw [addressMode_toNat]
  unfold csrAt at h
  split at h
  · rw [if_neg (by bv_omega)]; bv_omega
  · split at h
    · rw [if_neg (by bv_omega)]; bv_omega
    · obtain ⟨e, hfind, -⟩ := Option.map_eq_some_iff.1 h
      have htable : ∀ e ∈ csrTable, e.1 / 256 % 4 = if e.1 < 0x300 then 1 else 3 := by decide
      have haddr : e.1 = a.toNat := by simpa using List.find?_some hfind
      rw [← haddr]
      exact htable e (List.mem_of_find?_eq_some hfind)

/-- Settles O24: the check of R232 fails, in U mode and on a machine CSR in S mode because the mode is too low for the address. -/
theorem csrIllegal : Obligations.CsrIllegal := by
  unfold Obligations.CsrIllegal
  intro s rd csr f c i writes new hform hcsr hfails
  have hmode := csrAt_mode hcsr
  have hillegal : csrAllowed s csr c writes = false := by
    rw [← Bool.not_eq_true, csrAllowed_iff]
    rintro ⟨hexists, hlevel, -, hsatp⟩
    rcases hfails with hmissing | hlow | htvm | hU | ⟨hS, haddr⟩
    · rw [hmissing] at hexists; cases hexists
    · omega
    · exact hsatp htvm
    · rw [hU, Priv.code] at hlevel; split at hmode <;> omega
    · rw [hS, Priv.code] at hlevel; split at hmode <;> omega
  exact ⟨_, (csrForms_exec hform).trans (csrOp_illegal hcsr hillegal), trapped_raise _ _ s⟩

/-! ### Privileged instructions -/

/-- Two words side by side, as a number. -/
theorem append_toNat {m n : Nat} (a : BitVec m) (b : BitVec n) : (a ++ b).toNat = a.toNat * 2 ^ n + b.toNat := by
  rw [BitVec.toNat_append, ← Nat.shiftLeft_add_eq_or_of_lt b.isLt, Nat.shiftLeft_eq]

theorem sfenceVma_word (rs1 rs2 : Reg) : (encode (.sfenceVma rs1 rs2)).setWidth 64 =
    BitVec.ofNat 64 (0x12000073 + rs2.toNat * 2 ^ 20 + rs1.toNat * 2 ^ 15) := by
  have h1 := rs1.isLt
  have h2 := rs2.isLt
  apply BitVec.eq_of_toNat_eq
  simp only [encode, encR, BitVec.toNat_setWidth, append_toNat, BitVec.toNat_ofNat]
  omega

/-- Settles O41: each of the four tests the mode first. -/
theorem privilegedInstructionsTrap : Obligations.PrivilegedInstructionsTrap := by
  unfold Obligations.PrivilegedInstructionsTrap
  intro s rs1 rs2
  refine ⟨fun h => ⟨_, if_neg h, trapped_raise _ _ s⟩, fun h => ⟨_, if_pos h, trapped_raise _ _ s⟩,
    fun h => ⟨_, if_pos h, trapped_raise _ _ s⟩, fun h => ⟨_, if_pos h, ?_⟩⟩
  rw [← sfenceVma_word]
  exact trapped_raise _ _ s

end Sys2Proof.Proofs.IllegalInstruction

/-! PROOFS of O38, O39 and O40. The returns from a trap, and how they undo the trap's entry. -/

namespace Sys2Proof.Proofs.TrapReturn
open Sys2Proof Sys2Proof.Machine

/-! ### The returns (R200, R201) -/

section
variable {s : State}

theorem exec_mret (h : s.priv = .M) : exec .mret s = .next (returnM s) := if_pos h

theorem exec_sret (hmodes : s.cfg.modes = .msu) (hU : s.priv ≠ .U) (hTSR : ¬(s.priv = .S ∧ statusBit s.mstatus .TSR = true)) :
    exec .sret s = .next (returnS s) := if_neg (by tauto)

/-- Both returns write the mode, the pc and mstatus, and nothing else. -/
theorem same_of_status_priv_pc {t : State} {m pc : Word} {p : Priv} (h : t = { s with mstatus := m, priv := p, pc := pc }) :
    sameMTrap s t ∧ sameSTrap s t ∧ sameUntrapped s t ∧ sameRegs s t ∧ sameMemory s t ∧ sameWait s t ∧ sameCache s t ∧
      samePlatform s t := by
  subst h
  refine ⟨?_, ?_, ?_, fun _ => rfl, ⟨fun _ => rfl, rfl⟩, ?_, rfl, ?_⟩
  · simp [sameMTrap]
  · simp [sameSTrap]
  · simp [sameUntrapped]
  · simp [sameWait]
  · simp [samePlatform]

/-- mstatus after `mret`, bit by bit. -/
theorem bit_returnM (s : State) (i : Nat) : bit (returnM s).mstatus i =
    if s.cfg.modes ≠ .m ∧ (i = 11 ∨ i = 12) then false
    else if i = 7 then true else if i = 3 then bit s.mstatus 7 else bit s.mstatus i := by
  by_cases hm : s.cfg.modes = .m
  · rw [if_neg (fun h => h.1 hm)]
    simp only [returnM, if_pos hm, bit_withStatusBit]
    rfl
  · simp only [returnM, if_neg hm, bit_withMpp, bit_withStatusBit]
    by_cases hmpp : i = 11 ∨ i = 12
    · rcases hmpp with rfl | rfl <;> simp [hm]
    · obtain ⟨h11, h12⟩ := not_or.1 hmpp
      simp only [if_neg h12, if_neg h11, hmpp, and_false, if_false]
      rfl

/-- mstatus after `sret`, bit by bit. -/
theorem bit_returnS (s : State) (i : Nat) : bit (returnS s).mstatus i =
    if i = 8 then false else if i = 5 then true else if i = 1 then bit s.mstatus 5 else bit s.mstatus i := by
  simp only [returnS, bit_withStatusBit]
  rfl

theorem returnM_priv (s : State) : (returnM s).priv = if s.cfg.modes = .m then .M else mppOf s.mstatus := rfl

theorem returnM_MIE (s : State) : statusBit (returnM s).mstatus .MIE = statusBit s.mstatus .MPIE := by
  simp [statusBit, StatusField.pos, bit_returnM]

theorem returnS_SIE (s : State) : statusBit (returnS s).mstatus .SIE = statusBit s.mstatus .SPIE := by
  simp [statusBit, StatusField.pos, bit_returnS]

end

/-- Settles O38: the bits of mstatus after the return, and its frame. -/
theorem machineReturn : Obligations.MachineReturn := by
  unfold Obligations.MachineReturn
  intro s hM
  refine ⟨returnM s, exec_mret hM, returnM_MIE s, ?_, fun hm => ?_, fun hm => ?_, fun i hi => ?_, rfl, same_of_status_priv_pc rfl⟩
  · simp [statusBit, StatusField.pos, bit_returnM]
  · simp [bit_returnM, returnM_priv, hm]
  · simp [bit_returnM, returnM_priv, hm]
  · simp only [List.mem_cons, List.not_mem_nil, or_false, not_or] at hi
    simp [bit_returnM, hi]

/-- Settles O39: the bits of mstatus after the return, and its frame. -/
theorem supervisorReturn : Obligations.SupervisorReturn := by
  unfold Obligations.SupervisorReturn
  intro s hmodes hU hTSR
  refine ⟨returnS s, exec_sret hmodes hU hTSR, returnS_SIE s, ?_, ?_, rfl, fun i hi => ?_, rfl, same_of_status_priv_pc rfl⟩
  · simp [statusBit, StatusField.pos, bit_returnS]
  · simp [statusBit, StatusField.pos, bit_returnS]
  · simp only [List.mem_cons, List.not_mem_nil, or_false, not_or] at hi
    simp [bit_returnS, hi]

/-! ### The entry a return undoes (R202, R320, R325) -/

section
variable {s : State} {c : Cause} {tval epc : Word}

/-- A trap enters M mode, or it enters S mode, from below M where S mode exists (R321). -/
theorem takeTrap_cases (c : Cause) (tval epc : Word) (s : State) : takeTrap c tval epc s = enterM c tval epc s ∨
    (s.cfg.modes = .msu ∧ s.priv ≠ .M ∧ takeTrap c tval epc s = enterS c tval epc s) := by
  unfold takeTrap
  split
  · next hd =>
    simp only [delegated, Bool.and_eq_true, decide_eq_true_eq] at hd
    obtain ⟨⟨hmodes, hpriv⟩, -⟩ := hd
    exact .inr ⟨hmodes, hpriv, rfl⟩
  · exact .inl rfl

/-- MPP saves the mode, where there is more than one (R320). -/
theorem mppOf_enterM (h : s.cfg.modes ≠ .m) : mppOf (enterM c tval epc s).mstatus = s.priv := by
  simp [enterM, h]

theorem enterM_MPIE : statusBit (enterM c tval epc s).mstatus .MPIE = statusBit s.mstatus .MIE := by
  unfold enterM
  split <;> simp

/-- SPP saves a mode below M (R325). -/
theorem sppOf_enterS (h : s.priv ≠ .M) : sppOf (enterS c tval epc s).mstatus = s.priv := by
  cases hp : s.priv
  case M => exact absurd hp h
  all_goals simp [sppOf, enterS, hp]

theorem enterS_SPIE : statusBit (enterS c tval epc s).mstatus .SPIE = statusBit s.mstatus .SIE := by
  simp [enterS]

theorem enterS_TSR : statusBit (enterS c tval epc s).mstatus .TSR = statusBit s.mstatus .TSR := by
  simp [enterS]

/-- `mret` goes back to the mode the trap came from; under MODES = M there is no other than M. -/
theorem returnM_enterM_priv (h : s.cfg.modes.has s.priv = true) : (returnM (enterM c tval epc s)).priv = s.priv := by
  rw [returnM_priv, State.enterM_cfg]
  by_cases hm : s.cfg.modes = .m
  · rw [if_pos hm]
    cases hp : s.priv
    case M => rfl
    all_goals rw [hm, hp] at h; cases h
  · rw [if_neg hm, mppOf_enterM hm]

end

/-- Settles O40: the entry saves pc, mode and enable bit where the return of the same mode takes them from. -/
theorem returnUndoesEntry : Obligations.ReturnUndoesEntry := by
  unfold Obligations.ReturnUndoesEntry
  rintro s t c tval epc hhas rfl
  rcases takeTrap_cases c tval epc s with he | ⟨hmodes, hbelow, he⟩ <;> rw [he]
  · refine ⟨fun hM => ?_, fun hS => nomatch hS⟩
    obtain ⟨hm, hs, -⟩ := same_of_status_priv_pc (s := enterM c tval epc s) (t := returnM (enterM c tval epc s)) rfl
    exact ⟨_, exec_mret hM, rfl, returnM_enterM_priv hhas, (returnM_MIE _).trans enterM_MPIE, hm, hs, fun _ => rfl⟩
  · refine ⟨fun hM => (nomatch hM), fun hS hTSR => ?_⟩
    obtain ⟨hm, hs, -⟩ := same_of_status_priv_pc (s := enterS c tval epc s) (t := returnS (enterS c tval epc s)) rfl
    have hexec := exec_sret (s := enterS c tval epc s) hmodes (by simp) (by simp [enterS_TSR, hTSR])
    exact ⟨_, hexec, rfl, sppOf_enterS hbelow, (returnS_SIE _).trans enterS_SPIE, hm, hs, fun _ => rfl⟩

end Sys2Proof.Proofs.TrapReturn

/-! PROOF of O42. `wfi` where it may wait: a no-operation, or the entry into the wait state. -/

namespace Sys2Proof.Proofs.WaitForInterrupt
open Sys2Proof Sys2Proof.Machine

/-! ### The two ways WFI_IMPL allows (R210) -/

section
variable {s : State}

/-- `wfi` is a no-operation where it does not stall. -/
theorem exec_wfi_of_nop (hU : s.priv ≠ .U) (hTW : ¬(s.priv = .S ∧ statusBit s.mstatus .TW = true ∧ s.cfg.twLimit = 0))
    (h : s.cfg.wfiImpl = .nop ∨ (s.cfg.wfiImpl = .either ∧ s.now.wfiStall = false)) : exec .wfi s = .next s.advance := by
  have hexec : exec .wfi s = _ := if_neg (not_or.2 ⟨hU, hTW⟩)
  rw [hexec]
  rcases h with hi | ⟨hi, hs⟩
  · simp only [hi]
  · simp [hi, hs]

/-- `wfi` stalls where the implementation does, or where it chooses to at this step. -/
theorem exec_wfi_of_stall (hU : s.priv ≠ .U) (hTW : ¬(s.priv = .S ∧ statusBit s.mstatus .TW = true ∧ s.cfg.twLimit = 0))
    (h : s.cfg.wfiImpl = .stall ∨ (s.cfg.wfiImpl = .either ∧ s.now.wfiStall = true)) : exec .wfi s = .next (stallWfi s) := by
  have hexec : exec .wfi s = _ := if_neg (not_or.2 ⟨hU, hTW⟩)
  rw [hexec]
  rcases h with hi | ⟨hi, hs⟩
  · simp only [hi]
  · simp [hi, hs]

/-- Each value of WFI_IMPL, with the choice of this step, is one of the two ways. -/
theorem nop_or_stall (s : State) : (s.cfg.wfiImpl = .nop ∨ (s.cfg.wfiImpl = .either ∧ s.now.wfiStall = false)) ∨
    (s.cfg.wfiImpl = .stall ∨ (s.cfg.wfiImpl = .either ∧ s.now.wfiStall = true)) := by
  cases s.cfg.wfiImpl with
  | nop => exact .inl (.inl rfl)
  | stall => exact .inr (.inl rfl)
  | either =>
    cases s.now.wfiStall with
    | false => exact .inl (.inr ⟨rfl, rfl⟩)
    | true => exact .inr (.inr ⟨rfl, rfl⟩)

/-! ### The stall (R210, R68) -/

/-- An enabled interrupt that is already pending leaves nothing to wait for. -/
theorem stallWfi_of_pending (h : csrRead s .mie &&& csrRead s .mip ≠ 0#64) : stallWfi s = s.advance :=
  if_pos ((Waiting.wakes_iff_mie_and_mip s).2 h)

theorem stallWfi_of_not_pending (h : csrRead s .mie &&& csrRead s .mip = 0#64) :
    stallWfi s = { s with waiting := true, waited := 0 } :=
  if_neg fun hw => (Waiting.wakes_iff_mie_and_mip s).1 hw h

/-- A pending enabled interrupt makes `wfi` a no-operation whatever WFI_IMPL says. -/
theorem exec_wfi_of_pending (hU : s.priv ≠ .U) (hTW : ¬(s.priv = .S ∧ statusBit s.mstatus .TW = true ∧ s.cfg.twLimit = 0))
    (h : csrRead s .mie &&& csrRead s .mip ≠ 0#64) : exec .wfi s = .next s.advance := by
  rcases nop_or_stall s with hnop | hstall
  · exact exec_wfi_of_nop hU hTW hnop
  · rw [exec_wfi_of_stall hU hTW hstall, stallWfi_of_pending h]

end

/-- Settles O42: with nothing to wait for the pc moves on, and else only the fields of the wait state are written. -/
theorem wfiResult : Obligations.WfiResult := by
  unfold Obligations.WfiResult
  intro s hU hTW
  refine ⟨fun hnop => ⟨s.advance, ?_, movedTo_advance s⟩, fun hstall hnone => ?_⟩
  · rcases hnop with hi | hi | hpending
    · exact exec_wfi_of_nop hU hTW (.inl hi)
    · exact exec_wfi_of_nop hU hTW (.inr hi)
    · exact exec_wfi_of_pending hU hTW hpending
  · refine ⟨{ s with waiting := true, waited := 0 }, ?_, rfl, rfl, rfl, rfl, rfl, rfl, fun _ => rfl, ?_, rfl, ?_, fun _ => rfl, rfl⟩
    · rw [exec_wfi_of_stall hU hTW hstall, stallWfi_of_not_pending hnone]
    · simp [sameCsrs]
    · simp [samePlatform]

end Sys2Proof.Proofs.WaitForInterrupt

/-! PROOF of O44. `sfence.vma` where it is legal: the entries it removes from the translation cache, and its frame. -/

namespace Sys2Proof.Proofs.TranslationFence
open Sys2Proof Sys2Proof.Machine Sys2Proof.Proofs.EntrySource

section
variable {s : State} {rs1 rs2 : Reg}

theorem exec_sfenceVma (hmodes : s.cfg.modes = .msu) (hU : s.priv ≠ .U) (hTVM : ¬(s.priv = .S ∧ statusBit s.mstatus .TVM = true)) :
    exec (.sfenceVma rs1 rs2) s = .next (fenceTlb rs1 rs2 s).advance :=
  if_neg (not_or.2 ⟨not_not.2 hmodes, not_or.2 ⟨hU, hTVM⟩⟩)

/-! ### The table of R221 -/

theorem tlbCovers_iff {va : Word} {e : TlbEntry} :
    tlbCovers s va e = true ↔ ∃ sch ∈ coverSchemes s, e.prefixVpn = vpnPrefix sch va e.level := by
  simp only [tlbCovers, List.any_eq_true, decide_eq_true_eq]

/-- The four rows of the table as one rule: each operand that is given restricts what is removed. -/
theorem fenceRemoves_iff {va : Option Word} {asid : Option (BitVec 16)} {e : TlbEntry} : fenceRemoves s va asid e = true ↔
    (∀ a ∈ asid, e.asid = a ∧ pteG e.pte = false) ∧ ∀ v ∈ va, tlbCovers s v e = true := by
  cases va with
  | none =>
    cases asid with
    | none => simp [fenceRemoves]
    | some a => simp [fenceRemoves]
  | some v =>
    cases asid with
    | none => simp [fenceRemoves]
    | some a => simp [fenceRemoves]

/-- An operand is given unless its register number is 0 (R220 corner case 1). -/
theorem forall_mem_operand {α : Type} {r : Reg} {x : α} {p : α → Prop} :
    (∀ a ∈ (if r = 0#5 then none else some x), p a) ↔ (r ≠ 0#5 → p x) := by
  by_cases h : r = 0#5 <;> simp [h]

/-- What stays in the cache. -/
theorem mem_fenceTlb {e : TlbEntry} : e ∈ (fenceTlb rs1 rs2 s).tlb ↔ e ∈ s.tlb ∧
    ¬((rs2 ≠ 0#5 → e.asid = s.fenceAsid (s.reg rs2) ∧ pteG e.pte = false) ∧
      (rs1 ≠ 0#5 → ∃ sch ∈ coverSchemes s, e.prefixVpn = vpnPrefix sch (s.reg rs1) e.level)) := by
  simp only [fenceTlb, List.mem_filter, Bool.not_eq_true', ← Bool.not_eq_true, fenceRemoves_iff, forall_mem_operand, tlbCovers_iff]

/-! ### After the form with both operands x0 -/

theorem fenceTlb_all_tlb (s : State) : (fenceTlb 0#5 0#5 s).tlb = [] :=
  List.eq_nil_iff_forall_not_mem.2 fun _ he => (mem_fenceTlb.1 he).2 ⟨fun h => absurd rfl h, fun h => absurd rfl h⟩

/-- An empty cache serves no walk, whatever entry the walk would use. -/
theorem tlbLookup_of_empty (h : s.tlb = []) (sch : Scheme) (w : WalkChoice) (va : Word) (kind : AccessKind) (i : Nat) :
    s.tlbLookup sch w va kind i = none := by
  cases hlookup : s.tlbLookup sch w va kind i with
  | none => rfl
  | some p =>
    obtain ⟨e, he, -⟩ := tlbLookup_some hlookup
    rw [h] at he
    exact absurd he List.not_mem_nil

end

/-- Settles O44: the fence writes only the cache, and the advance only the pc. -/
theorem fenceResult : Obligations.FenceResult := by
  unfold Obligations.FenceResult
  intro s rs1 rs2 hmodes hU hTVM
  obtain ⟨hpc, hregs, hcsrs, hwait, -, hplatform, hmemory⟩ := movedTo_advance (fenceTlb rs1 rs2 s)
  refine ⟨(fenceTlb rs1 rs2 s).advance, exec_sfenceVma hmodes hU hTVM, fun e => mem_fenceTlb, ?_,
    hpc, hregs, hcsrs, hwait, hplatform, hmemory⟩
  rintro rfl rfl
  have hempty : (fenceTlb 0#5 0#5 s).advance.tlb = [] := fenceTlb_all_tlb s
  exact ⟨hempty, fun sch w va kind i pa => readPte_of_memory pa (tlbLookup_of_empty hempty sch w va kind i)⟩

end Sys2Proof.Proofs.TranslationFence

/-! PROOFS of O23, O25, O30 and O37. The CSR instructions where they complete and where their address is not listed, and the two calls
into a trap. -/

namespace Sys2Proof.Proofs.SystemCsr
open Sys2Proof Sys2Proof.Machine Sys2Proof.Proofs.PmpEntries Sys2Proof.Proofs.PmpRegisters Sys2Proof.Proofs.CsrMasks
  Sys2Proof.Proofs.CsrFields Sys2Proof.Proofs.IllegalInstruction

/-! ### The addresses R25 lists -/

/-- An address outside the table and outside the two ranges of PMP registers names no CSR. -/
theorem csrAt_eq_none {a : BitVec 12} (htable : a ∉ csrTable.map fun e => BitVec.ofNat 12 e.1)
    (hpmpcfg : ¬(0x3A0 ≤ a.toNat ∧ a.toNat ≤ 0x3A3)) (hpmpaddr : ¬(0x3B0 ≤ a.toNat ∧ a.toNat ≤ 0x3BF)) : csrAt a = none := by
  have hfind : csrTable.find? (fun e => decide (e.1 = a.toNat)) = none := by
    rw [List.find?_eq_none]
    intro e he haddr
    have haddr : e.1 = a.toNat := by simpa using haddr
    exact htable (List.mem_map.2 ⟨e, he, by simp [haddr]⟩)
  unfold csrAt
  rw [if_neg (by bv_omega), if_neg (by bv_omega), hfind, Option.map_none]

/-- No listed address has bits 11:10 = 11, so that none is read-only (R25, R232). -/
theorem csrAt_not_readOnly {a : BitVec 12} {c : Csr} (h : csrAt a = some c) : a.extractLsb' 10 2 ≠ 0b11#2 := by
  intro hbits
  have hhigh : 0xC00 ≤ a.toNat := by
    have hval := congrArg BitVec.toNat hbits
    simp only [BitVec.extractLsb'_toNat, Nat.shiftRight_eq_div_pow, BitVec.toNat_ofNat] at hval
    omega
  have htable : ∀ b ∈ csrTable.map (fun e => BitVec.ofNat 12 e.1), b.toNat < 0xC00 := by decide
  rw [csrAt_eq_none (fun hm => absurd (htable a hm) (by omega)) (by omega) (by omega)] at h
  cases h

/-- For a listed address the check of R232 has three conditions, whether the instruction writes or not. -/
theorem csrAllowed_of_listed {s : State} {a : BitVec 12} {c : Csr} (hcsr : csrAt a = some c) (hexists : csrExists s.cfg c = true)
    (hmode : (a.extractLsb' 8 2).toNat ≤ s.priv.code) (htvm : ¬(c = .satp ∧ s.priv = .S ∧ statusBit s.mstatus .TVM = true))
    (writes : Bool) : csrAllowed s a c writes = true :=
  (csrAllowed_iff s a c writes).2 ⟨hexists, hmode, fun h => csrAt_not_readOnly hcsr h.2, htvm⟩

/-- Settles O25: the operation all six forms share looks its address up first. -/
theorem csrUnlistedRefused : Obligations.CsrUnlistedRefused := by
  unfold Obligations.CsrUnlistedRefused
  intro s rd csr f i writes new hform htable hpmpcfg hpmpaddr
  exact (csrForms_exec hform).trans (csrOp_unlisted (csrAt_eq_none htable hpmpcfg hpmpaddr))

/-! ### Writes that complete -/

/-- A value that gives no unlocked, implemented entry R = 0 and W = 1 is written (R57, log 14). -/
theorem writePmpBytes_succeeds {l : List Nat} {s : State} {v : Word} (hl : l.Nodup)
    (hlegal : ∀ n e, l[n]? = some e → e < s.cfg.pmpCount → pmpL (s.pmpCfg e) = false →
      ¬(pmpR (v.extractLsb' (8 * n) 8) = false ∧ pmpW (v.extractLsb' (8 * n) 8) = true)) :
    ∃ t, writePmpBytes s v l = .ok t := by
  induction l generalizing s v with
  | nil => exact ⟨s, rfl⟩
  | cons i rest ih =>
    obtain ⟨hi, hrest⟩ := List.nodup_cons.1 hl
    unfold writePmpBytes
    split
    · next u hu =>
      refine ih hrest fun n e hn he hlock => ?_
      have hne : i ≠ e := by rintro rfl; exact hi (List.mem_of_getElem? hn)
      rw [writePmpByte_cfg hu] at he
      rw [writePmpByte_pmpCfg_ne hu hne] at hlock
      rw [extract_shift_byte]
      exact hlegal (n + 1) e hn he hlock
    · next r hr =>
      unfold writePmpByte at hr
      split at hr
      · next hw => rw [if_neg (hlegal 0 i rfl hw.1 hw.2)] at hr; cases hr
      · cases hr

/-- A write of any CSR but a PMP configuration register completes, and of that one where the value is legal for each entry it reaches. -/
theorem csrWrite_succeeds {s : State} {c : Csr} {v : Word}
    (hlegal : ∀ k, c = .pmpcfg k → ∀ n e, (pmpcfgEntries s.cfg.xlen k.val)[n]? = some e → e < s.cfg.pmpCount →
      pmpL (s.pmpCfg e) = false → ¬(bit v (8 * n) = false ∧ bit v (8 * n + 1) = true)) :
    ∃ u, csrWrite s c v = .ok u := by
  cases c
  case pmpcfg k =>
    refine writePmpBytes_succeeds (pmpcfgEntries_nodup _ _) ?_
    simpa only [pmpR_extract, pmpW_extract] using hlegal k rfl
  all_goals exact ⟨_, rfl⟩

/-! ### The CSR forms (R233 to R241) -/

section
variable {s : State} {rd : Reg} {csr : BitVec 12} {f : BitVec 5} {c : Csr} {i : Instr} {new : Word → Word}

/-- A form that does not write puts the value read in the register, reduced modulo 2^XLEN, and goes on. -/
theorem exec_csr_read (hform : (i, false, new) ∈ csrForms s rd csr f) (hcsr : csrAt csr = some c)
    (hallowed : csrAllowed s csr c false = true) :
    ∃ t, exec i s = .next t ∧ wroteReg rd (s.cfg.xlen.wrap (csrRead s c)) s t := by
  obtain ⟨t, ht, hwrote⟩ := writeAdvance_spec rd (csrRead s c) s
  exact ⟨t, ((csrForms_exec hform).trans (csrOp_read hcsr hallowed)).trans ht, hwrote⟩

/-- A form that writes does the same in the state the CSR write leaves, with the value read before it. -/
theorem exec_csr_write {u : State} (hform : (i, true, new) ∈ csrForms s rd csr f) (hcsr : csrAt csr = some c)
    (hallowed : csrAllowed s csr c true = true) (hwrite : csrWrite s c (new (csrReadForModify s c)) = .ok u) :
    ∃ t, exec i s = .next t ∧ wroteReg rd (s.cfg.xlen.wrap (csrRead s c)) u t := by
  obtain ⟨t, ht, hwrote⟩ := writeAdvance_spec rd (csrRead s c) u
  rw [(csrWrite_frame hwrite).cfg] at hwrote
  exact ⟨t, ((csrForms_exec hform).trans (csrOp_write hcsr hallowed hwrite)).trans ht, hwrote⟩

end

/-- Settles O23: the check passes, a legal write completes, it reaches CSRs only, and a CSR read answers an XLEN-bit value. -/
theorem csrResult : Obligations.CsrResult := by
  unfold Obligations.CsrResult
  intro s rd csr f c i writes new hform hwidth hcsr hexists hmode htvm
  have hallowed := csrAllowed_of_listed hcsr hexists hmode htvm
  have hread : s.cfg.xlen.wrap (csrRead s c) = csrRead s c := wrap_of_fits (fits_csrRead hwidth c)
  refine ⟨?_, ?_⟩
  · rintro rfl
    rw [← hread]
    exact exec_csr_read hform hcsr (hallowed false)
  · rintro rfl hlegal
    obtain ⟨u, hwrite⟩ : ∃ u, csrWrite s c (new (csrReadForModify s c)) = .ok u :=
      csrWrite_succeeds fun k hk => by subst hk; exact hlegal k rfl
    obtain ⟨t, hexec, hwrote⟩ := exec_csr_write hform hcsr (hallowed true) hwrite
    rw [hread] at hwrote
    have hframe := csrWrite_frame hwrite
    exact ⟨u, t, hwrite, hexec, hwrote, hframe.pc, hframe.cfg, hframe.priv, hframe.reg, hframe.sameWait, hframe.tlb,
      hframe.samePlatform, hframe.sameMemory⟩

/-! ### mip and the external line (R240) -/

/-- Every bit below XLEN survives the reduction modulo 2^XLEN. -/
theorem bit_wrap {x : Xlen} {i : Nat} (hi : i < x.bits) (v : Word) : bit (x.wrap v) i = bit v i := by
  have h : (x.wrap v).toNat.testBit i = v.toNat.testBit i := by rw [wrap_toNat, Nat.testBit_mod_two_pow]; simp [hi]
  exact h

/-- SEIP as the modifying forms see it is the software bit (R240). -/
theorem bit_mipForModify_seip {s : State} (hmodes : s.cfg.modes = .msu) : bit s.mipForModify 9 = bit s.mipSoft 9 := by
  simp [State.mipForModify, bit_mipWord, hmodes]

/-- SEIP as a read sees it is the software bit or the line (R50). -/
theorem bit_mip_seip {s : State} (hmodes : s.cfg.modes = .msu) : bit (csrRead s .mip) 9 = (bit s.mipSoft 9 || s.seipLine) := by
  simp [csrRead, State.mip, bit_mipWord, State.pending, hmodes]

/-- A write of mip under MODES = MSU takes SEIP as written. -/
theorem bit_mipWritten_seip {M : Modes} (hmodes : M = .msu) (old v : Word) : bit (mergeBits (mipMask M) old v) 9 = bit v 9 := by
  rw [bit_mergeBits_of (bit_mipMask M 9 (by decide)), if_pos ⟨by decide, hmodes⟩]

/-- Settles O30: the value read has the line in it, the value that is modified and written back has not. -/
theorem seipLineNotLatched : Obligations.SeipLineNotLatched := by
  unfold Obligations.SeipLineNotLatched
  intro s rd rs1 hM hmodes hrs1 hrd
  have hform : (Instr.csrrs rd 0x344#12 rs1, true, fun old => old ||| s.reg rs1) ∈ csrForms s rd 0x344#12 rs1 := by
    simp [csrForms, hrs1]
  have hcsr : csrAt 0x344#12 = some .mip := by decide
  have hallowed : csrAllowed s 0x344#12 .mip true = true :=
    csrAllowed_of_listed hcsr rfl (by rw [hM]; decide) (by simp) true
  obtain ⟨t, hexec, hreg, -, -, hcsrs, -, -, hplatform, -⟩ := exec_csr_write hform hcsr hallowed rfl
  obtain ⟨-, -, -, -, -, -, -, -, -, -, -, hsoft, -⟩ := hcsrs
  obtain ⟨-, -, -, -, hline⟩ := hplatform
  refine ⟨t, hexec, ?_, ?_, hline⟩
  · rw [hsoft]
    dsimp only
    rw [bit_mipWritten_seip hmodes, bit_or, csrReadForModify, bit_mipForModify_seip hmodes]
  · rw [hreg, if_neg hrd, bit_wrap (by cases s.cfg.xlen <;> decide), bit_mip_seip hmodes]

/-! ### ecall and ebreak (R230, R231) -/

/-- A trap from M mode goes to M mode, whatever is delegated (R321). -/
theorem takeTrap_of_machine {s : State} (hM : s.priv = .M) (c : Cause) (tval epc : Word) :
    takeTrap c tval epc s = enterM c tval epc s := by
  rcases TrapReturn.takeTrap_cases c tval epc s with he | ⟨-, hbelow, -⟩
  · exact he
  · exact absurd hM hbelow

/-- Settles O37: both are a raised exception, of the cause the mode names for `ecall`. -/
theorem callAndBreak : Obligations.CallAndBreak := by
  unfold Obligations.CallAndBreak
  intro s
  refine ⟨⟨raise (ecallCause s.priv) 0#64 s, ecallCause s.priv, rfl, trapped_raise _ _ s, ?_, ?_, ?_⟩,
    ⟨_, rfl, trapped_raise _ _ s⟩⟩
  · intro hU; rw [hU]; rfl
  · intro hS; rw [hS]; rfl
  · intro hM
    rw [raise, takeTrap_of_machine hM, hM]
    exact ⟨rfl, rfl, rfl⟩

end Sys2Proof.Proofs.SystemCsr

/-! PROOFS of O7 to O11 and O13. The instructions that compute in registers all end in one register write and the next pc; the jumps and
branches to an aligned target end in the shared jump and branch. What is left for each is the value that it computes. -/

namespace Sys2Proof.Proofs.BaseInstructions
open Sys2Proof Sys2Proof.Machine Sys2Proof.Proofs.SystemCsr Sys2Proof.Proofs.MisalignedTargets

/-! ### The values computed -/

/-- A register write of any word with the residue of `z` modulo 2^XLEN writes `z` modulo 2^XLEN. -/
theorem writeAdvance_modXlen (rd : Reg) {v : Word} {s : State} {z : Int}
    (h : (v.toNat : Int) % 2 ^ s.cfg.xlen.bits = z % 2 ^ s.cfg.xlen.bits) :
    ∃ t, writeAdvance rd v s = .next t ∧ wroteReg rd (modXlen s.cfg.xlen z) s t :=
  wrap_eq_modXlen h ▸ writeAdvance_spec rd v s

/-- A register write of a word writes each of its bits below XLEN, and nothing above. -/
theorem writeAdvance_bits (rd : Reg) {v : Word} {s : State} {f : Nat → Bool} (h : ∀ i, i < s.cfg.xlen.bits → bit v i = f i) :
    ∃ t w, writeAdvance rd v s = .next t ∧ wroteReg rd w s t ∧ fits s.cfg.xlen w ∧ ∀ i, i < s.cfg.xlen.bits → bit w i = f i := by
  obtain ⟨t, hnext, hwrote⟩ := writeAdvance_spec rd v s
  exact ⟨t, _, hnext, hwrote, fits_wrap _ v, fun i hi => (bit_wrap hi v).trans (h i hi)⟩

/-- The U immediate is the 20-bit field shifted left by 12, as a signed number (R184). -/
theorem toInt_append_twelve (imm : BitVec 20) : (imm ++ 0#12).toInt = imm.toInt * 4096 := by
  have happend : (imm ++ 0#12).toNat = imm.toNat * 4096 := by
    rw [BitVec.toNat_append, Nat.shiftLeft_eq]; exact Nat.or_zero _
  rw [BitVec.toInt_eq_toNat_cond, BitVec.toInt_eq_toNat_cond, happend]
  push_cast
  split <;> split <;> omega

/-- The residue of the U immediate modulo 2^XLEN. -/
theorem immU_emod (s : State) (imm : BitVec 20) :
    ((s.immU imm).toNat : Int) % 2 ^ s.cfg.xlen.bits = imm.toInt * 4096 % 2 ^ s.cfg.xlen.bits := by
  rw [State.immU, sext_emod _ _ (by decide), toInt_append_twelve]

/-- The residue of a sum with a term of known residue. -/
theorem add_emod_of {x : Xlen} {b : Word} {z : Int} (a : Word) (h : (b.toNat : Int) % 2 ^ x.bits = z % 2 ^ x.bits) :
    ((a + b).toNat : Int) % 2 ^ x.bits = (unsigned a + z) % 2 ^ x.bits := by
  rw [add_emod, Int.add_emod, h, ← Int.add_emod, unsigned]

/-- Shifting left by `n` multiplies by 2^n, modulo 2^XLEN (R265). -/
theorem shiftLeft_emod (x : Xlen) (a : Word) (n : Nat) :
    ((a <<< n).toNat : Int) % 2 ^ x.bits = unsigned a * 2 ^ n % 2 ^ x.bits := by
  rw [BitVec.toNat_shiftLeft, Nat.shiftLeft_eq]
  push_cast
  exact Int.emod_emod_of_dvd _ (pow_bits_dvd x)

/-- The bits of the sign-extended 12-bit immediate (R184). -/
theorem bit_imm12 (s : State) (imm : BitVec 12) {i : Nat} (hi : i < s.cfg.xlen.bits) : bit (s.imm12 imm) i = immBit imm i := by
  have hi64 : i < 64 := lt_of_lt_of_le hi (by cases s.cfg.xlen <;> decide)
  rw [State.imm12, sext, bit_wrap hi, bit, BitVec.getLsbD_signExtend, immBit]
  by_cases h : i < 12
  · have hmin : min i 11 = i := by omega
    simp [h, hi64, hmin]
  · have hmin : min i 11 = 11 := by omega
    simp [h, hi64, hmin, BitVec.msb_eq_getLsbD_last]

/-! ### The obligations -/

/-- Settles O7: the U immediate has the residue of the shifted field, alone and added to the pc. -/
theorem upperImmediateResult : Obligations.UpperImmediateResult := by
  unfold Obligations.UpperImmediateResult
  intro s rd imm
  have himm := immU_emod s imm
  exact ⟨writeAdvance_modXlen rd himm, writeAdvance_modXlen rd (add_emod_of s.pc himm)⟩

/-- Settles O8: addition and subtraction of words agree with those of their values modulo 2^XLEN. -/
theorem addSubResult : Obligations.AddSubResult := by
  unfold Obligations.AddSubResult
  intro s rd rs1 rs2 imm
  have himm := sext_emod s.cfg.xlen imm (by decide)
  exact ⟨writeAdvance_modXlen rd (add_emod_of (s.reg rs1) himm), writeAdvance_modXlen rd (add_emod _ _ _),
    writeAdvance_modXlen rd (sub_emod _ _ _)⟩

/-- Settles O9: the operation acts on each bit by itself, and the reduction modulo 2^XLEN keeps the bits below XLEN. -/
theorem logicResult : Obligations.LogicResult := by
  unfold Obligations.LogicResult
  intro s rd rs1 rs2 imm
  refine ⟨writeAdvance_bits rd fun i hi => ?_, writeAdvance_bits rd fun i hi => ?_, writeAdvance_bits rd fun i _ => bit_or _ _ i,
    writeAdvance_bits rd fun i _ => bit_and _ _ i⟩
  · rw [bit_or, bit_imm12 s imm hi]
  · rw [bit_and, bit_imm12 s imm hi]

/-- Settles O10: the shift multiplies modulo 2^XLEN, and the outcome of the comparison is 1 or 0 at either width. -/
theorem shiftAndCompareResult : Obligations.ShiftAndCompareResult := by
  unfold Obligations.ShiftAndCompareResult
  intro s rd rs1 rs2 shamt
  refine ⟨writeAdvance_modXlen rd (shiftLeft_emod _ _ _), ?_⟩
  have hcompare : unsigned (s.reg rs1) < unsigned (s.reg rs2) ↔ (s.reg rs1).toNat < (s.reg rs2).toNat := Int.ofNat_lt
  have hfits : fits s.cfg.xlen (if (s.reg rs1).toNat < (s.reg rs2).toNat then 1#64 else 0#64) :=
    fits_of_lt (by split <;> decide)
  simp only [hcompare]
  have hspec := writeAdvance_spec rd (if (s.reg rs1).toNat < (s.reg rs2).toNat then 1#64 else 0#64) s
  rwa [wrap_of_fits hfits] at hspec

/-- Settles O11: both are the shared jump to a computed target, which links and goes there where the target is aligned. -/
theorem jumpResult : Obligations.JumpResult := by
  unfold Obligations.JumpResult
  rintro s rd rs1 off imm j r rfl rfl
  rw [← pcTarget_eq s off (by decide), ← jalrTarget_eq]
  exact ⟨jump_aligned rd _ s, jump_aligned rd _ s⟩

/-- Settles O13: each branch is the shared branch on its condition of the table. -/
theorem branchResult : Obligations.BranchResult := by
  unfold Obligations.BranchResult
  intro s a b off i cond hi
  obtain ⟨taken, hexec, htaken⟩ := branchTable_exec hi
  rw [← pcTarget_eq s off (by decide), hexec]
  constructor
  · intro hcond haligned
    rw [htaken.2 hcond]
    exact branch_taken _ s haligned
  · intro hcond
    rw [Bool.eq_false_iff.2 (mt htaken.1 hcond)]
    exact branch_not_taken _ s

end Sys2Proof.Proofs.BaseInstructions

/-! PROOFS of O33, O34, O35 and O36. A trap enters one of two modes; what each entry leaves in mstatus, bit by bit, and what neither
reaches. -/

namespace Sys2Proof.Proofs.TrapEntry
open Sys2Proof Sys2Proof.Machine

/-! ### The mode that takes a trap (R321) -/

/-- The condition under which a trap is delegated, as R321 writes it. -/
theorem delegated_iff (s : State) (c : Cause) : delegated s c = true ↔
    s.cfg.modes = .msu ∧ s.priv ≠ .M ∧ bit (if c.isIrq then s.mideleg else s.medeleg) c.code = true := by
  cases c <;> simp [delegated, Cause.isIrq, Cause.code, and_assoc]

theorem takeTrap_eq (c : Cause) (tval epc : Word) (s : State) : takeTrap c tval epc s =
    if s.cfg.modes = .msu ∧ s.priv ≠ .M ∧ bit (if c.isIrq then s.mideleg else s.medeleg) c.code = true
    then enterS c tval epc s else enterM c tval epc s := by
  simp only [takeTrap, delegated_iff]

/-- A mode below M is U or S, neither of which is above S. -/
theorem code_le_supervisor {p : Priv} (h : p ≠ .M) : p.code ≤ Priv.S.code := by
  cases p
  case M => exact absurd rfl h
  all_goals decide

theorem code_le_machine (p : Priv) : p.code ≤ Priv.M.code := by cases p <;> decide

/-! ### The value of the cause register (R320) -/

theorem causeCode_lt (c : Cause) : c.code < 16 := by
  cases c with
  | exc e => cases e <;> decide
  | irq q => cases q <;> decide

theorem causeWord_toNat (x : Xlen) (c : Cause) :
    (causeWord x c).toNat = (if c.isIrq then 2 ^ (x.bits - 1) else 0) + c.code := by
  have hcode := causeCode_lt c
  have hirq : (if c.isIrq then 2 ^ (x.bits - 1) else 0) ≤ 2 ^ 63 := by
    split
    · exact Nat.pow_le_pow_right (by decide) (by cases x <;> decide)
    · exact Nat.zero_le _
  rw [causeWord, BitVec.toNat_ofNat]
  exact Nat.mod_eq_of_lt (by omega)

/-! ### The address of the handler (R322) -/

theorem trapVector_eq_modXlen {x : Xlen} {tvec : Word} {c : Cause} (h : fits x tvec) : trapVector x tvec c =
    modXlen x (unsigned tvec / 4 * 4 + if tvec.toNat % 4 = 1 ∧ c.isIrq = true then 4 * c.code else 0) := by
  have hbase : ((tvec &&& ~~~3#64).toNat : Int) = unsigned tvec / 4 * 4 := by
    rw [toNat_clear_low, unsigned]; omega
  unfold trapVector
  simp only [TrapRegisters.low_bits_eq_iff tvec (show 1 < 4 by decide)]
  split
  · rw [MisalignedAccess.wrap_add_ofNat, unsigned, hbase]
  · refine eq_modXlen (fits_and_left _ h) ?_
    rw [hbase, Nat.cast_zero, Int.add_zero]

/-! ### mstatus after an entry -/

section
variable (c : Cause) (tval epc : Word) (s : State)

/-- mstatus after the entry into M mode, bit by bit (R320). -/
theorem bit_enterM (i : Nat) : bit (enterM c tval epc s).mstatus i =
    if s.cfg.modes ≠ .m ∧ i = 12 then decide (s.priv = .M) else if s.cfg.modes ≠ .m ∧ i = 11 then decide (s.priv ≠ .U)
    else if i = 3 then false else if i = 7 then bit s.mstatus 3 else bit s.mstatus i := by
  by_cases hm : s.cfg.modes = .m
  · simp only [enterM, hm, if_true, bit_withStatusBit, not_true_eq_false, ne_eq, false_and, if_false]
    rfl
  · simp only [enterM, hm, if_false, bit_withMpp, bit_withStatusBit, ne_eq, not_false_eq_true, true_and]
    rfl

/-- mstatus after the entry into S mode, bit by bit (R325). -/
theorem bit_enterS (i : Nat) : bit (enterS c tval epc s).mstatus i =
    if i = 8 then decide (s.priv = .S) else if i = 1 then false else if i = 5 then bit s.mstatus 1 else bit s.mstatus i := by
  simp only [enterS, bit_withStatusBit]
  rfl

/-! ### What no entry reaches -/

theorem takeTrap_frame : sameUntrapped s (takeTrap c tval epc s) ∧ sameRegs s (takeTrap c tval epc s) ∧
    sameMemory s (takeTrap c tval epc s) ∧ sameWait s (takeTrap c tval epc s) ∧ sameCache s (takeTrap c tval epc s) ∧
    samePlatform s (takeTrap c tval epc s) := by
  refine ⟨?_, reg_takeTrap c tval epc s, ⟨byteAt_takeTrap c tval epc s, State.takeTrap_stored ..⟩, ?_, State.takeTrap_tlb .., ?_⟩
  · simp [sameUntrapped]
  · simp [sameWait]
  · simp [samePlatform]

end

/-! ### The obligations -/

/-- Settles O33: the bits of mstatus after the entry into M mode, and its frame. -/
theorem trapEntryM : Obligations.TrapEntryM := by
  unfold Obligations.TrapEntryM
  rintro s t c tval epc rfl hnot
  have hframe := takeTrap_frame c tval epc s
  rw [takeTrap_eq, if_neg hnot] at hframe ⊢
  refine ⟨rfl, causeWord_toNat _ c, rfl, ?_, ?_, fun hm => ?_, fun hm => ?_, fun i hi => ?_, rfl, rfl, ⟨rfl, rfl, rfl⟩, hframe⟩
  · simp [statusBit, StatusField.pos, bit_enterM]
  · simp [statusBit, StatusField.pos, bit_enterM]
  · simp [bit_enterM, hm]
  · simp [bit_enterM, hm]
  · simp only [List.mem_cons, List.not_mem_nil, or_false, not_or] at hi
    simp [bit_enterM, hi]

/-- Settles O34: the bits of mstatus after the entry into S mode, and its frame. -/
theorem trapEntryS : Obligations.TrapEntryS := by
  unfold Obligations.TrapEntryS
  rintro s t c tval epc rfl hmodes hbelow hbit
  have hframe := takeTrap_frame c tval epc s
  rw [takeTrap_eq, if_pos ⟨hmodes, hbelow, hbit⟩] at hframe ⊢
  refine ⟨rfl, causeWord_toNat _ c, rfl, ?_, ?_, ?_, fun i hi => ?_, rfl, rfl, ⟨rfl, rfl, rfl⟩, hframe⟩
  · simp [statusBit, StatusField.pos, bit_enterS]
  · simp [statusBit, StatusField.pos, bit_enterS]
  · simp [statusBit, StatusField.pos, bit_enterS]
  · simp only [List.mem_cons, List.not_mem_nil, or_false, not_or] at hi
    simp [bit_enterS, hi]

/-- Settles O35: a trap enters M mode, above which there is none, or S mode from a mode below M. -/
theorem trapRouting : Obligations.TrapRouting := by
  unfold Obligations.TrapRouting
  intro s c tval epc
  refine ⟨takeTrap_eq c tval epc s, ?_⟩
  rcases TrapReturn.takeTrap_cases c tval epc s with he | ⟨-, hbelow, he⟩
  · rw [he, State.enterM_priv]
    exact ⟨code_le_machine s.priv, by decide⟩
  · rw [he, State.enterS_priv]
    exact ⟨code_le_supervisor hbelow, by decide⟩

/-- Settles O36: clearing the low two bits rounds down to a multiple of 4, and only a vectored interrupt adds to that. -/
theorem trapVector : Obligations.TrapVector := by
  unfold Obligations.TrapVector
  exact fun _ _ _ => trapVector_eq_modXlen

end Sys2Proof.Proofs.TrapEntry

/-! PROOFS of O45 and O46. Which interrupts are takeable, as words of bits; and the choice among them, which is the first takeable one of a
list in the order of R313. -/

namespace Sys2Proof.Proofs.Interrupts
open Sys2Proof Sys2Proof.Machine

section
variable {s : State}

/-! ### The two enables (R311) -/

theorem mEnabled_eq : s.mEnabled = decide ((s.priv = .M ∧ statusBit s.mstatus .MIE = true) ∨ s.priv ≠ .M) := by
  unfold State.mEnabled
  cases s.priv <;> simp

theorem sEnabled_eq : s.sEnabled = decide ((s.priv = .S ∧ statusBit s.mstatus .SIE = true) ∨ s.priv = .U) := by
  unfold State.sEnabled
  cases s.priv <;> simp

/-- The bit of a word that counts only under a condition. -/
theorem bit_ite_zero (p : Prop) [Decidable p] (v : Word) (i : Nat) : bit (if p then v else 0#64) i = (decide p && bit v i) := by
  by_cases hp : p <;> simp [hp, bit]

/-- The bits of mideleg that count delegate their interrupts (R311). -/
theorem bit_effectiveMideleg (q : Irq) : bit (if s.cfg.modes = .msu then s.mideleg else 0#64) q.code = s.delegatedIrq q :=
  bit_ite_zero _ _ _

theorem irqCode_lt (q : Irq) : q.code < 64 := by cases q <;> decide

/-! ### The order of the choice (R313) -/

/-- `i` may be chosen before `j`: within one level, the class of `i` comes no later. -/
def NoLater (i j : Irq) : Prop := machineLevel i = machineLevel j → irqRank i ≤ irqRank j

theorem irqOrder_ordered (classFirst : Bool) : (irqOrder classFirst).Pairwise NoLater := by
  unfold NoLater
  cases classFirst <;> decide

theorem supervisorOrder_ordered : [Irq.sei, Irq.ssi, Irq.sti].Pairwise NoLater := by
  unfold NoLater
  decide

theorem mem_irqOrder (classFirst : Bool) (q : Irq) : q ∈ irqOrder classFirst := by
  cases classFirst <;> cases q <;> decide

/-- Only supervisor interrupts have a bit that mideleg may hold (R55). -/
theorem mem_supervisorOrder_of_delegated (h : s.mideleg &&& ~~~supervisorBits = 0#64) {q : Irq} (hq : s.delegatedIrq q = true) :
    q ∈ [Irq.sei, Irq.ssi, Irq.sti] := by
  have hbit : bit s.mideleg q.code = true := by
    unfold State.delegatedIrq at hq
    exact (Bool.and_eq_true_iff.1 hq).2
  have hnot : bit (~~~supervisorBits) q.code = false := by
    have hzero : bit (s.mideleg &&& ~~~supervisorBits) q.code = false := by rw [h]; simp [bit]
    rwa [bit_and, hbit, Bool.true_and] at hzero
  revert hnot
  cases q <;> decide

/-- What a search of an ordered list finds comes no later than anything else it could have found. -/
theorem find?_first {α : Type} {r : α → α → Prop} {p : α → Bool} {l : List α} {a b : α} (hl : l.Pairwise r) (hrefl : r a a)
    (h : l.find? p = some a) (hb : b ∈ l) (hp : p b = true) : r a b := by
  obtain ⟨-, before, after, rfl, hbefore⟩ := List.find?_eq_some_iff_append.1 h
  rcases List.mem_append.1 hb with hb | hb
  · have hnot := hbefore b hb
    rw [hp] at hnot
    cases hnot
  · rcases List.mem_cons.1 hb with rfl | hb
    · exact hrefl
    · obtain ⟨-, htail, -⟩ := List.pairwise_append.1 hl
      exact List.rel_of_pairwise_cons htail hb

/-! ### The interrupt selected -/

/-- The selected interrupt is the first takeable one bound for M, or, where there is none, the first one bound for S. -/
theorem selectIrq_cases (s : State) :
    (∃ i, s.selectIrq = some i ∧ (irqOrder s.now.classFirst).find? (fun q => !s.delegatedIrq q && s.takeable q) = some i) ∨
    ((∀ q, s.takeable q = true → s.delegatedIrq q = true) ∧
      s.selectIrq = [Irq.sei, Irq.ssi, Irq.sti].find? fun q => s.delegatedIrq q && s.takeable q) := by
  unfold State.selectIrq
  split
  · next i hi => exact .inl ⟨i, rfl, hi⟩
  · next hnone =>
    refine .inr ⟨fun q hq => ?_, rfl⟩
    have hno := List.find?_eq_none.1 hnone q (mem_irqOrder _ q)
    simpa [hq] using hno

end

/-- Settles O45: bit by bit, the two sets of R311 are the takeable interrupts outside and inside mideleg. -/
theorem takeableInterrupts : Obligations.TakeableInterrupts := by
  unfold Obligations.TakeableInterrupts
  rintro s q pend deleg mSet sSet rfl rfl rfl rfl
  have hpend : bit (csrRead s .mip &&& csrRead s .mie) q.code = (bit s.mie q.code && s.pending q) := by
    rw [bit_and, csrRead, csrRead, Waiting.bit_mip_code, Bool.and_comm]
  have hM : bit (csrRead s .mip &&& csrRead s .mie &&& ~~~(if s.cfg.modes = .msu then s.mideleg else 0#64)) q.code =
      (bit s.mie q.code && s.pending q && !s.delegatedIrq q) := by
    rw [bit_and, hpend, bit_not _ _ (irqCode_lt q), bit_effectiveMideleg]
  have hS : bit (csrRead s .mip &&& csrRead s .mie &&& if s.cfg.modes = .msu then s.mideleg else 0#64) q.code =
      (bit s.mie q.code && s.pending q && s.delegatedIrq q) := by
    rw [bit_and, hpend, bit_effectiveMideleg]
  rw [bit_or, bit_ite_zero, bit_ite_zero, hM, hS, ← mEnabled_eq, ← sEnabled_eq, State.takeable]
  cases s.delegatedIrq q with
  | true => simp [and_assoc]
  | false => simp [and_assoc]

/-- Settles O46: the two searches look in turn for an interrupt bound for M and for one bound for S, each in the order of R313. -/
theorem interruptChoice : Obligations.InterruptChoice := by
  unfold Obligations.InterruptChoice
  intro s hmideleg
  rcases selectIrq_cases s with ⟨i, hselect, hfind⟩ | ⟨hdelegated, hselect⟩
  · refine ⟨fun hnone => ?_, fun k hk => ?_⟩
    · rw [hnone] at hselect; cases hselect
    obtain rfl : i = k := Option.some.inj (hselect.symm.trans hk)
    obtain ⟨hM, htakeable⟩ : s.delegatedIrq i = false ∧ s.takeable i = true := by simpa using List.find?_some hfind
    refine ⟨htakeable, fun j hj => ⟨fun hS => ?_, fun hsame => ?_⟩⟩
    · rw [hM] at hS; cases hS
    · exact find?_first (irqOrder_ordered _) (fun _ => le_rfl) hfind (mem_irqOrder _ j) (by simp [← hsame, hM, hj])
  · rw [hselect]
    refine ⟨fun hnone q => ?_, fun i hfind => ?_⟩
    · by_contra hq
      have hq : s.takeable q = true := by simpa using hq
      have hS := hdelegated q hq
      have hno := List.find?_eq_none.1 hnone q (mem_supervisorOrder_of_delegated hmideleg hS)
      exact hno (by simp [hS, hq])
    · obtain ⟨-, htakeable⟩ : s.delegatedIrq i = true ∧ s.takeable i = true := by simpa using List.find?_some hfind
      refine ⟨htakeable, fun j hj => ⟨fun _ => hdelegated j hj, fun _ => ?_⟩⟩
      have hS := hdelegated j hj
      exact find?_first supervisorOrder_ordered (fun _ => le_rfl) hfind (mem_supervisorOrder_of_delegated hmideleg hS)
        (by simp [hS, hj])

end Sys2Proof.Proofs.Interrupts

/-! PROOFS of O21, O58 and O59. An instruction that ends in a next state completes with every CSR as it was, or takes an exception, or is
one that U mode may not run: a CSR write, a wait or a return. -/

namespace Sys2Proof.Proofs.Endings
open Sys2Proof Sys2Proof.Machine Sys2Proof.Proofs.AccessPath

/-! ### The end of a data access (R301, R303) -/

/-- An instruction that makes a data access goes on from what the access leaves, or raises one of its three exceptions with the address of
a byte of the access. -/
theorem dataAccess_ends {α : Type} {kind : AccessKind} {mis : Exc} {va : Word} {s t : State} {x : Access α} {f : α → State → Result}
    (hva : fits s.cfg.xlen va) (hx : x.sat (fun _ u => AccessFrame s u) (dataTrap kind mis va 4 s)) (h : x.finish f = .next t) :
    (∃ a u, AccessFrame s u ∧ f a u = .next t) ∨
    (∃ e u k, (e = mis ∨ e = pageFault kind ∨ e = accessFault kind) ∧ k < 4 ∧ AccessFrame s u ∧
      t = raise e (modXlen s.cfg.xlen (unsigned va + (k : Nat))) u) := by
  rcases Access.finish_next h with ⟨a, u, rfl, hnext⟩ | ⟨e, v, u, rfl, rfl⟩
  · exact .inl ⟨a, u, hx, hnext⟩
  · obtain ⟨frame, hexc, hvalue⟩ := hx
    have hbyte : ∃ k, k < 4 ∧ v = modXlen s.cfg.xlen (unsigned va + (k : Nat)) := by
      rcases hvalue with rfl | ⟨k, hk, rfl⟩
      · exact ⟨0, by decide, eq_modXlen hva (by simp [unsigned])⟩
      · exact ⟨k, hk, MisalignedAccess.wrap_add_ofNat _ _ k⟩
    obtain ⟨k, hk, rfl⟩ := hbyte
    exact .inr ⟨e, u, k, hexc.imp_right Or.symm, hk, frame, rfl⟩

/-- Settles O21: each instruction is one data access, then a register write or none. -/
theorem loadStoreExceptions : Obligations.LoadStoreExceptions := by
  unfold Obligations.LoadStoreExceptions
  rintro s t rd rs1 rs2 imm va rfl
  rw [← effAddr_eq]
  refine ⟨fun h => ?_, fun h => ?_⟩
  · rcases dataAccess_ends (fits_effAddr s rs1 imm) (memLoad_sat _ 4 s) h with ⟨v, u, f, hnext⟩ | ⟨e, u, k, hexc, hk, f, rfl⟩
    · obtain ⟨t', ht', -, hregs, hpc, hcsrs, -⟩ := writeAdvance_spec rd (sext s.cfg.xlen (v.setWidth 32)) u
      obtain rfl : t' = t := Host.Outcome.next.inj (ht'.symm.trans hnext)
      exact .inl ⟨hpc.trans (following_of_accessFrame f), sameCsrs_trans f.sameCsrs hcsrs, fun r hr => (hregs r hr).trans (f.reg r)⟩
    · exact .inr ⟨e, u, k, hexc, hk, f.sameRegs, f.sameCsrs, f.pc, trapped_raise _ _ u⟩
  · rcases dataAccess_ends (fits_effAddr s rs1 imm) (memStore_sat _ 4 _ s) h with ⟨-, u, f, hnext⟩ | ⟨e, u, k, hexc, hk, f, rfl⟩
    · obtain ⟨hpc, hregs, hcsrs, -⟩ := movedTo_advance u
      obtain rfl : u.advance = t := Host.Outcome.next.inj hnext
      exact .inl ⟨hpc.trans (following_of_accessFrame f), sameCsrs_trans f.sameCsrs hcsrs, fun r => (hregs r).trans (f.reg r)⟩
    · exact .inr ⟨e, u, k, hexc, hk, f.sameRegs, f.sameCsrs, f.pc, trapped_raise _ _ u⟩

/-! ### The ends of an instruction -/

/-- The ways instruction `i` can end, begun in `s` and ended in `t`: with the CSRs, the mode and the wait as they were; in an exception,
after an access or before any; with a CSR write or a wait, which leave the mode and which U mode may not do; or with a return. -/
inductive Ends (i : Instr) (s t : State) : Prop
  | completed (csrs : sameCsrs s t) (wait : sameWait s t)
  | raised (e : Exc) (v : Word) (u : State) (frame : AccessFrame s u) (entry : t = raise e v u)
  | privileged (mode : s.priv ≠ .U) (kept : t.priv = s.priv)
  | machineReturn (instr : i = .mret) (mode : s.priv = .M) (back : t = returnM s)
  | supervisorReturn (instr : i = .sret) (mode : s.priv ≠ .U) (modes : s.cfg.modes = .msu) (back : t = returnS s)

section
variable {i : Instr} {s t u : State}

theorem Ends.illegal (j : Instr) (s : State) : Ends i s (raiseIllegal j s) := .raised _ _ s (.refl s) rfl

/-- An access, and then changes of the integer registers and the pc only. -/
theorem Ends.of_sameBeyondRegs (f : AccessFrame s u) (h : sameBeyondRegs u t) : Ends i s t := by
  obtain ⟨hcsrs, hwait, -⟩ := h
  exact .completed (sameCsrs_trans f.sameCsrs hcsrs) (sameWait_trans (sameWait_of_accessFrame f) hwait)

theorem Ends.advance (f : AccessFrame s u) : Ends i s u.advance :=
  have ⟨_, _, hbeyond⟩ := movedTo_advance u
  .of_sameBeyondRegs f hbeyond

theorem Ends.writeAdvance {rd : Reg} {v : Word} (f : AccessFrame s u) (h : writeAdvance rd v u = .next t) : Ends i s t := by
  cases h
  exact .of_sameBeyondRegs f (sameBeyondRegs_setReg u rd v _)

theorem Ends.jump {rd : Reg} {target : Word} (h : jump rd target s = .next t) : Ends i s t := by
  unfold Machine.jump at h
  split at h
  · cases h; exact .of_sameBeyondRegs (.refl s) (sameBeyondRegs_setReg s rd _ target)
  · cases h; exact .raised _ _ s (.refl s) rfl

theorem Ends.branch {taken : Bool} {target : Word} (h : branch taken target s = .next t) : Ends i s t := by
  unfold Machine.branch at h
  split at h
  · split at h
    · cases h
      obtain ⟨-, -, hbeyond⟩ := movedTo_setPc s target
      exact .of_sameBeyondRegs (.refl s) hbeyond
    · cases h; exact .raised _ _ s (.refl s) rfl
  · cases h; exact .advance (.refl s)

/-- A CSR that R25 lists is no user CSR, so that the check of R232 fails in U mode. -/
theorem not_user_of_csrAllowed {a : BitVec 12} {c : Csr} {writes : Bool} (hcsr : csrAt a = some c)
    (h : csrAllowed s a c writes = true) : s.priv ≠ .U := by
  intro hU
  obtain ⟨-, hlevel, -⟩ := (csrAllowed_iff s a c writes).1 h
  rw [hU, IllegalInstruction.csrAt_mode hcsr, Priv.code] at hlevel
  split at hlevel <;> omega

theorem Ends.csrOp {j : Instr} {csr : BitVec 12} {rd : Reg} {writes : Bool} {new : Word → Word}
    (h : csrOp j csr rd writes new s = .next t) : Ends i s t := by
  obtain ⟨c, hcsr, ⟨-, rfl⟩ | ⟨-, -, rfl⟩ | ⟨hallowed, -, u, hwrite, rfl⟩⟩ := csrOp_next h
  · exact .illegal j s
  · exact .of_sameBeyondRegs (.refl s) (sameBeyondRegs_setReg s rd _ _)
  · exact .privileged (not_user_of_csrAllowed hcsr hallowed) (by simpa using (csrWrite_frame hwrite).priv)

theorem Ends.dataAccess {α : Type} {kind : AccessKind} {mis : Exc} {va : Word} {x : Access α} {f : α → State → Result}
    (hva : fits s.cfg.xlen va) (hx : x.sat (fun _ u => AccessFrame s u) (dataTrap kind mis va 4 s))
    (hf : ∀ a u, AccessFrame s u → f a u = .next t → Ends i s t) (h : x.finish f = .next t) : Ends i s t := by
  rcases dataAccess_ends hva hx h with ⟨a, u, frame, hnext⟩ | ⟨e, u, k, -, -, frame, hraise⟩
  · exact hf a u frame hnext
  · exact .raised e _ u frame hraise

theorem Ends.sret (h : execSret s = .next t) : Ends .sret s t := by
  unfold execSret at h
  split at h
  · cases h; exact .illegal _ s
  · next hlegal =>
    cases h
    simp only [not_or, not_not] at hlegal
    obtain ⟨hmodes, hU, -⟩ := hlegal
    exact .supervisorReturn rfl hU hmodes rfl

theorem Ends.mret (h : execMret s = .next t) : Ends .mret s t := by
  unfold execMret at h
  split at h
  · next hM => cases h; exact .machineReturn rfl hM rfl
  · cases h; exact .illegal _ s

theorem Ends.wfi (h : execWfi s = .next t) : Ends .wfi s t := by
  have hadvance : Ends .wfi s s.advance := .advance (.refl s)
  by_cases hillegal : s.priv = .U ∨ (s.priv = .S ∧ statusBit s.mstatus .TW = true ∧ s.cfg.twLimit = 0)
  · rw [execWfi, if_pos hillegal] at h
    cases h; exact .illegal _ s
  · obtain ⟨hU, hTW⟩ := not_or.1 hillegal
    have hstall : Ends .wfi s (stallWfi s) := by
      unfold stallWfi
      split
      · exact hadvance
      · exact .privileged hU rfl
    rcases WaitForInterrupt.nop_or_stall s with hnop | hst
    · have hexec := WaitForInterrupt.exec_wfi_of_nop hU hTW hnop
      obtain rfl : s.advance = t := Host.Outcome.next.inj (hexec.symm.trans h)
      exact hadvance
    · have hexec := WaitForInterrupt.exec_wfi_of_stall hU hTW hst
      obtain rfl : stallWfi s = t := Host.Outcome.next.inj (hexec.symm.trans h)
      exact hstall

theorem Ends.sfenceVma {rs1 rs2 : Reg} (h : execSfenceVma rs1 rs2 s = .next t) : Ends i s t := by
  unfold execSfenceVma at h
  split at h
  · cases h; exact .illegal _ s
  · cases h; exact .advance (accessFrame_tlb s _)

/-- Every instruction that ends in a next state ends in one of these ways. -/
theorem exec_ends (h : exec i s = .next t) : Ends i s t := by
  cases i <;> simp only [exec] at h
  case sret => exact .sret h
  case mret => exact .mret h
  case wfi => exact .wfi h
  case sfenceVma => exact .sfenceVma h
  case ecall | ebreak => cases h; exact .raised _ _ s (.refl s) rfl
  case csrrw | csrrs | csrrc | csrrwi | csrrsi | csrrci => exact .csrOp h
  case jal | jalr => exact .jump h
  case beq | bne | blt | bge | bltu | bgeu => exact .branch h
  case lw rd rs1 imm => exact .dataAccess (fits_effAddr s rs1 imm) (memLoad_sat _ 4 s) (fun _ _ f hnext => .writeAdvance f hnext) h
  case sw rs2 rs1 imm =>
    exact .dataAccess (fits_effAddr s rs1 imm) (memStore_sat _ 4 _ s) (fun _ _ f hnext => by cases hnext; exact .advance f) h
  all_goals exact .writeAdvance (.refl s) h

end

/-! ### The obligations -/

/-- Settles O58: of the ways an instruction can end, only an exception and the two returns change the mode. -/
theorem modeChanges : Obligations.ModeChanges := by
  unfold Obligations.ModeChanges
  intro s t i h hchanged
  cases exec_ends h with
  | completed csrs _ =>
    obtain ⟨-, hpriv, -⟩ := csrs
    exact absurd hpriv hchanged
  | raised e v u frame entry =>
    subst entry
    exact .inr (.inr ⟨e, v, u, frame.priv, frame.cfg, trapped_raise e v u⟩)
  | privileged _ kept => exact absurd kept hchanged
  | machineReturn instr mode back =>
    subst back
    refine .inl ⟨instr, mode, ?_⟩
    by_cases hm : s.cfg.modes = .m
    · exact .inr hm
    · exact .inl ((TrapReturn.returnM_priv s).trans (if_neg hm))
  | supervisorReturn instr mode modes back =>
    subst back
    exact .inr (.inl ⟨instr, mode, modes, rfl⟩)

/-- Settles O59: in U mode an instruction can only complete with the CSRs as they were, or take an exception. -/
theorem userModeContained : Obligations.UserModeContained := by
  unfold Obligations.UserModeContained
  intro s t i hU hwaiting h
  cases exec_ends h with
  | completed csrs wait =>
    obtain ⟨hwait, -⟩ := wait
    exact .inl ⟨csrs, hwait.trans hwaiting⟩
  | raised e v u frame entry =>
    subst entry
    exact .inr ⟨e, v, u, frame.sameCsrs, frame.pc, frame.sameRegs, trapped_raise e v u⟩
  | privileged mode _ => exact absurd hU mode
  | machineReturn _ mode _ => rw [hU] at mode; cases mode
  | supervisorReturn _ mode _ _ => exact absurd hU mode

end Sys2Proof.Proofs.Endings
